-- ==== Sys2Proof/Word.lean ====
section
/-! DEFINITION. The words of the CFU: bytes, 16-bit words, and the 4-byte block value (00_scope.md R11, R12). -/

namespace Sys2Proof

/-- A byte, an unsigned number 0..255 (R12). -/
abbrev Byte := BitVec 8

/-- A block value: a byte string of length 4, `b0` the first byte sent, received or stored (R12, R66). -/
structure Block where
  b0 : Byte
  b1 : Byte
  b2 : Byte
  b3 : Byte
deriving DecidableEq, Repr, Inhabited

end Sys2Proof
end

