-- ==== Sys2Proof/Machine/Bytes.lean ====
section
/-! DEFINITION. Byte strings and digits: cutting into blocks, hexadecimal digits, byte orders, masks
(00_scope.md R12, R13; 42_codec_transforms.md R161, R163). -/

namespace Sys2Proof

/-- The 4 bytes of a block value, first byte first (R12). -/
def Block.toList (b : Block) : List Byte := [b.b0, b.b1, b.b2, b.b3]

/-- A block value with all 4 bytes equal. -/
def Block.fill (b : Byte) : Block := ⟨b, b, b, b⟩

/-- A byte string is a block value only if it has length 4 (R12). -/
def Block.ofBytes : List Byte → Option Block
  | [a, b, c, d] => some ⟨a, b, c, d⟩
  | _ => none

/-- The byte string cut into block values; a last piece shorter than 4 bytes is dropped. -/
def cutBlocks : List Byte → List Block
  | a :: b :: c :: d :: rest => ⟨a, b, c, d⟩ :: cutBlocks rest
  | _ => []

/-- `(old & ~mask) | data` on one byte (R163). -/
def mergeByte (old data mask : Byte) : Byte := (old &&& ~~~mask) ||| data

/-- `merge(old, data, mask)` on one block (R163). -/
def Block.merge (old data mask : Block) : Block :=
  ⟨mergeByte old.b0 data.b0 mask.b0, mergeByte old.b1 data.b1 mask.b1,
   mergeByte old.b2 data.b2 mask.b2, mergeByte old.b3 data.b3 mask.b3⟩

/-- `merge(old, data, mask)` bytewise over byte strings of one length (R163). -/
def mergeBytes : List Byte → List Byte → List Byte → List Byte
  | o :: os, d :: ds, m :: ms => mergeByte o d m :: mergeBytes os ds ms
  | _, _, _ => []

/-- High byte of a 16-bit number (R98). -/
def hiByte (n : Nat) : Byte := BitVec.ofNat 8 (n / 256)

/-- Low byte of a 16-bit number (R98). -/
def loByte (n : Nat) : Byte := BitVec.ofNat 8 n

/-- `dig(s, q)`: digit `q` of the digit string of `s`, even positions the high nibble (R13). -/
def digit (s : List Byte) (q : Nat) : Byte :=
  if q % 2 = 0 then s.getD (q / 2) 0 >>> 4 else s.getD (q / 2) 0 &&& 0x0F#8

/-- The unsigned big-endian integer of a byte string, first byte most significant (R68, R172). -/
def bigEndian (s : List Byte) : Nat := s.foldl (fun acc b => acc * 256 + b.toNat) 0

/-- The `len` bytes of a number, most significant first (R173). -/
def bigEndianBytes : Nat → Nat → List Byte
  | 0, _ => []
  | len + 1, v => bigEndianBytes len (v / 256) ++ [BitVec.ofNat 8 v]

/-- The list without its longest tail of elements that satisfy `p`. -/
def trimTail {α : Type} (p : α → Bool) : List α → List α
  | [] => []
  | x :: xs =>
    match trimTail p xs with
    | [] => if p x then [] else [x]
    | y :: ys => x :: y :: ys

/-- The 16-bit code units of a byte string, each as its high and low byte (R170); an odd last byte is dropped. -/
def codeUnits : List Byte → List (Byte × Byte)
  | h :: l :: rest => (h, l) :: codeUnits rest
  | _ => []

/-- A string of `n` zero bytes with `bs` laid over it from byte `off` on. -/
def spread (n off : Nat) (bs : List Byte) : List Byte :=
  List.replicate off 0 ++ bs ++ List.replicate (n - off - bs.length) 0

end Sys2Proof
end

