-- ==== Sys2Proof/Syntax.lean ====
section
/-! DEFINITION. The instructions: one constructor per row of `spec/opcode_table.json`, 14 host commands
(30_encoding.md R92) and 3 tag commands (R95 to R97). -/

namespace Sys2Proof

/-- One constructor per row. `blk` and `n` are block indices, `sel` a field id or view id, unsigned numbers used as they
are (30_encoding.md R91, R98). -/
inductive Instr where
  | rdblk (blk : Nat)
  | wrblk (blk : Nat)
  | getuid
  | crcCompute
  | crcEnc
  | crcDec
  | crcValidate
  | crcRecompute
  | fldRd (sel : Nat)
  | fldDec (sel : Nat)
  | fldEnc (sel : Nat)
  | cfgReadall (sel : Nat)
  | cfgMutate (sel : Nat)
  | cfgErase
  | apduRead (n : Nat)
  | apduWrite (n : Nat) (d : Block)
  | apduGetuid
deriving DecidableEq, Repr

/-- A tag command as the CFU builds it (30_encoding.md R90). -/
inductive TagCmd where
  | read (n : Nat)
  | write (n : Nat) (d : Block)
  | getUid
deriving DecidableEq, Repr

/-- The two encoding spaces (30_encoding.md R90): a host command word, or the byte string of a tag command. -/
inductive Code where
  | cmd (w : BitVec 32)
  | apdu (bytes : List Byte)
deriving DecidableEq, Repr

end Sys2Proof
end

