-- ==== Sys2Proof/WellFormed.lean ====
section
/-! DEFINITION. Which instructions have an encoding: operands fit their fields (30_encoding.md R91, R98). -/

namespace Sys2Proof

/-- A block index fits the 16-bit field `blk`, or the two bytes of a tag command (R91, R98). It may be above 48: that is
checked at execution (R91). -/
def fitsBlk (n : Nat) : Bool := decide (n < 65536)

/-- A selector fits the 8-bit field `sel` (R91). -/
def fitsSel (f : Nat) : Bool := decide (f < 256)

/-- The instruction has an encoding. -/
def Instr.wellFormed : Instr → Bool
  | .rdblk blk => fitsBlk blk
  | .wrblk blk => fitsBlk blk
  | .getuid => true
  | .crcCompute => true
  | .crcEnc => true
  | .crcDec => true
  | .crcValidate => true
  | .crcRecompute => true
  | .fldRd sel => fitsSel sel
  | .fldDec sel => fitsSel sel
  | .fldEnc sel => fitsSel sel
  | .cfgReadall sel => fitsSel sel
  | .cfgMutate sel => fitsSel sel
  | .cfgErase => true
  | .apduRead n => fitsBlk n
  | .apduWrite n _ => fitsBlk n
  | .apduGetuid => true

end Sys2Proof
end

