-- ==== Sys2Proof/Decode.lean ====
section
/-! DEFINITION. Decoding host command words and tag commands, total, rejecting by name (30_encoding.md R91 to R102),
and the encoder written from the same tables. -/

namespace Sys2Proof

/-- Why a code selects no instruction. -/
inductive Reject where
  /-- `op` is not in the opcode map (R94). -/
  | unknownOp
  /-- `sel` is not 0 for an operation that uses no selector (R94). -/
  | selectorNotZero
  /-- `blk` is not 0 for an operation that uses no block index (R94). -/
  | blockNotZero
  /-- The byte string is none of the three tag commands (R95 to R97, R102). -/
  | notATagCommand
deriving DecidableEq, Repr

/-- `op = CMD[31:24]` (R91). -/
def cmdOp (w : BitVec 32) : BitVec 8 := w.extractLsb' 24 8

/-- `sel = CMD[23:16]` (R91). -/
def cmdSel (w : BitVec 32) : BitVec 8 := w.extractLsb' 16 8

/-- `blk = CMD[15:0]` (R91). -/
def cmdBlk (w : BitVec 32) : BitVec 16 := w.extractLsb' 0 16

/-- The word of an operation that uses `blk` only: `sel` must be 0 (R92, R94). -/
def withBlk (w : BitVec 32) (mk : Nat → Instr) : Except Reject Instr :=
  if cmdSel w = 0#8 then .ok (mk (cmdBlk w).toNat) else .error .selectorNotZero

/-- The word of an operation that uses `sel` only: `blk` must be 0 (R92, R94). -/
def withSel (w : BitVec 32) (mk : Nat → Instr) : Except Reject Instr :=
  if cmdBlk w = 0#16 then .ok (mk (cmdSel w).toNat) else .error .blockNotZero

/-- The word of an operation that uses neither field: both must be 0 (R92, R94). -/
def withNone (w : BitVec 32) (i : Instr) : Except Reject Instr :=
  if cmdSel w ≠ 0#8 then .error .selectorNotZero
  else if cmdBlk w ≠ 0#16 then .error .blockNotZero else .ok i

/-- The opcode map of host commands (R92); a word that selects no row is illegal (R94). -/
def decodeCmd (w : BitVec 32) : Except Reject Instr :=
  if cmdOp w = 0x01#8 then withBlk w .rdblk
  else if cmdOp w = 0x02#8 then withBlk w .wrblk
  else if cmdOp w = 0x03#8 then withNone w .getuid
  else if cmdOp w = 0x10#8 then withNone w .crcCompute
  else if cmdOp w = 0x11#8 then withNone w .crcEnc
  else if cmdOp w = 0x12#8 then withNone w .crcDec
  else if cmdOp w = 0x13#8 then withNone w .crcValidate
  else if cmdOp w = 0x14#8 then withNone w .crcRecompute
  else if cmdOp w = 0x20#8 then withSel w .fldRd
  else if cmdOp w = 0x21#8 then withSel w .fldDec
  else if cmdOp w = 0x22#8 then withSel w .fldEnc
  else if cmdOp w = 0x30#8 then withSel w .cfgReadall
  else if cmdOp w = 0x31#8 then withSel w .cfgMutate
  else if cmdOp w = 0x32#8 then withNone w .cfgErase
  else .error .unknownOp

/-- The block number of a tag command: high byte, then low byte (R98). -/
def blockNumber (hi lo : Byte) : Nat := hi.toNat * 256 + lo.toNat

/-- The three tag commands, told apart by length and byte 1 (R95 to R97, R102). -/
def decodeApdu : List Byte → Except Reject Instr
  | [c, i, p1, p2, l] =>
    if c = 0xFF#8 ∧ i = 0xB0#8 ∧ l = 0x04#8 then .ok (.apduRead (blockNumber p1 p2))
    else if c = 0xFF#8 ∧ i = 0xCA#8 ∧ p1 = 0#8 ∧ p2 = 0#8 ∧ l = 0#8 then .ok .apduGetuid
    else .error .notATagCommand
  | [c, i, p1, p2, l, d0, d1, d2, d3] =>
    if c = 0xFF#8 ∧ i = 0xD6#8 ∧ l = 0x04#8 then .ok (.apduWrite (blockNumber p1 p2) ⟨d0, d1, d2, d3⟩)
    else .error .notATagCommand
  | _ => .error .notATagCommand

/-- Decoding in either space (R90). -/
def decode : Code → Except Reject Instr
  | .cmd w => decodeCmd w
  | .apdu bs => decodeApdu bs

/-- The command word of the three fields (R91). -/
def cmdWord (op sel : BitVec 8) (blk : BitVec 16) : BitVec 32 := op ++ sel ++ blk

/-- The bytes `Transmit` is given for a tag command (R95 to R97). -/
def TagCmd.bytes : TagCmd → List Byte
  | .read n => [0xFF#8, 0xB0#8, hiByte n, loByte n, 0x04#8]
  | .write n d => [0xFF#8, 0xD6#8, hiByte n, loByte n, 0x04#8, d.b0, d.b1, d.b2, d.b3]
  | .getUid => [0xFF#8, 0xCA#8, 0x00#8, 0x00#8, 0x00#8]

/-- The encoding of an instruction (R91, R92, R95 to R97). -/
def encode : Instr → Code
  | .rdblk blk => .cmd (cmdWord 0x01 0 (BitVec.ofNat 16 blk))
  | .wrblk blk => .cmd (cmdWord 0x02 0 (BitVec.ofNat 16 blk))
  | .getuid => .cmd (cmdWord 0x03 0 0)
  | .crcCompute => .cmd (cmdWord 0x10 0 0)
  | .crcEnc => .cmd (cmdWord 0x11 0 0)
  | .crcDec => .cmd (cmdWord 0x12 0 0)
  | .crcValidate => .cmd (cmdWord 0x13 0 0)
  | .crcRecompute => .cmd (cmdWord 0x14 0 0)
  | .fldRd sel => .cmd (cmdWord 0x20 (BitVec.ofNat 8 sel) 0)
  | .fldDec sel => .cmd (cmdWord 0x21 (BitVec.ofNat 8 sel) 0)
  | .fldEnc sel => .cmd (cmdWord 0x22 (BitVec.ofNat 8 sel) 0)
  | .cfgReadall sel => .cmd (cmdWord 0x30 (BitVec.ofNat 8 sel) 0)
  | .cfgMutate sel => .cmd (cmdWord 0x31 (BitVec.ofNat 8 sel) 0)
  | .cfgErase => .cmd (cmdWord 0x32 0 0)
  | .apduRead n => .apdu (TagCmd.bytes (.read n))
  | .apduWrite n d => .apdu (TagCmd.bytes (.write n d))
  | .apduGetuid => .apdu (TagCmd.bytes .getUid)

/-- A row of the opcode map: `match` and `mask` (R92). -/
structure OpRow where
  mnemonic : String
  bits     : BitVec 32
  mask     : BitVec 32
deriving DecidableEq, Repr

/-- The opcode map of host commands as R92 prints it. The decoder does not read it: that decoder and table agree is a
statement about the model. -/
def opRows : List OpRow :=
  [⟨"RDBLK", 0x01000000, 0xFFFF0000⟩, ⟨"WRBLK", 0x02000000, 0xFFFF0000⟩,
   ⟨"GETUID", 0x03000000, 0xFFFFFFFF⟩, ⟨"CRC.COMPUTE", 0x10000000, 0xFFFFFFFF⟩,
   ⟨"CRC.ENC", 0x11000000, 0xFFFFFFFF⟩, ⟨"CRC.DEC", 0x12000000, 0xFFFFFFFF⟩,
   ⟨"CRC.VALIDATE", 0x13000000, 0xFFFFFFFF⟩, ⟨"CRC.RECOMPUTE", 0x14000000, 0xFFFFFFFF⟩,
   ⟨"FLD.RD", 0x20000000, 0xFF00FFFF⟩, ⟨"FLD.DEC", 0x21000000, 0xFF00FFFF⟩,
   ⟨"FLD.ENC", 0x22000000, 0xFF00FFFF⟩, ⟨"CFG.READALL", 0x30000000, 0xFF00FFFF⟩,
   ⟨"CFG.MUTATE", 0x31000000, 0xFF00FFFF⟩, ⟨"CFG.ERASE", 0x32000000, 0xFFFFFFFF⟩]

/-- `w & mask = match` (R92). -/
def OpRow.selects (r : OpRow) (w : BitVec 32) : Bool := w &&& r.mask == r.bits

/-- The mnemonic of an instruction, as the opcode table has it. -/
def Instr.mnemonic : Instr → String
  | .rdblk _ => "RDBLK"
  | .wrblk _ => "WRBLK"
  | .getuid => "GETUID"
  | .crcCompute => "CRC.COMPUTE"
  | .crcEnc => "CRC.ENC"
  | .crcDec => "CRC.DEC"
  | .crcValidate => "CRC.VALIDATE"
  | .crcRecompute => "CRC.RECOMPUTE"
  | .fldRd _ => "FLD.RD"
  | .fldDec _ => "FLD.DEC"
  | .fldEnc _ => "FLD.ENC"
  | .cfgReadall _ => "CFG.READALL"
  | .cfgMutate _ => "CFG.MUTATE"
  | .cfgErase => "CFG.ERASE"
  | .apduRead _ => "APDU.READ"
  | .apduWrite _ _ => "APDU.WRITE"
  | .apduGetuid => "APDU.GETUID"

/-- The bytes of a tag command whose bits are numbered from the first byte up: byte `k` is bits `8k+7..8k`; 9 bytes for a
write, else 5, by byte 1 (R102; log 17). -/
def apduOfNat (w : Nat) : List Byte :=
  let byte := fun k : Nat => BitVec.ofNat 8 (w / 256 ^ k)
  if byte 1 = 0xD6#8 then (List.range 9).map byte else (List.range 5).map byte

/-- The code of an instruction of `nbits` bits given as one number: up to 32 bits a host command word, more a tag command
(log 17). -/
def codeOfTableWord (nbits w : Nat) : Code :=
  if nbits ≤ 32 then .cmd (BitVec.ofNat 32 w) else .apdu (apduOfNat w)

/-- What the decoder reads from an instruction given as the opcode table numbers its bits (log 17). -/
def decodeTableWord (nbits w : Nat) : Option Instr :=
  match decode (codeOfTableWord nbits w) with
  | .ok i => some i
  | .error _ => none

end Sys2Proof
end

