-- ==== Sys2Proof/Machine/Flags.lean ====
section
/-! DEFINITION. The `STATUS` register and its five flags (10_state.md R26, R34). -/

namespace Sys2Proof.Machine

/-- The value of `STATUS` with the given flags: bit 0 `BUSY`, 1 `DONE`, 2 `FAULT`, 3 `CRCOK`, 4 `UNK`, bits 31:5 zero (R26). -/
def mkStatus (busy done fault crcok unk : Bool) : BitVec 32 :=
  (0#27 ++ BitVec.ofBool unk ++ BitVec.ofBool crcok ++ BitVec.ofBool fault ++ BitVec.ofBool done ++ BitVec.ofBool busy)

/-- `STATUS.BUSY` (R26). -/
def statusBusy (w : BitVec 32) : Bool := w.getLsbD 0

/-- `STATUS.DONE` (R26). -/
def statusDone (w : BitVec 32) : Bool := w.getLsbD 1

/-- `STATUS.FAULT` (R26). -/
def statusFault (w : BitVec 32) : Bool := w.getLsbD 2

/-- `STATUS.CRCOK` (R26). -/
def statusCrcok (w : BitVec 32) : Bool := w.getLsbD 3

/-- `STATUS.UNK` (R26). -/
def statusUnk (w : BitVec 32) : Bool := w.getLsbD 4

/-- `STATUS[31:5]`, reserved, reads as 0 (R26). -/
def statusReserved (w : BitVec 32) : BitVec 27 := w.extractLsb' 5 27

/-- The flags at the accepted write of `CMD` (R34). -/
def statusAccepted : BitVec 32 := mkStatus true false false false false

/-- The flags at a normal end (R34, R43). -/
def statusNormal (crcok unk : Bool) : BitVec 32 := mkStatus false true false crcok unk

/-- The flags after `raise` (R256). -/
def statusRaised : BitVec 32 := mkStatus false true true false false

end Sys2Proof.Machine
end

