-- ==== Sys2Proof/Config.lean ====
section
/-! DEFINITION. What is fixed for a machine: the parameters the source fixes (00_scope.md R9), the record of those it
leaves open (R10; log 4), field descriptors (10_state.md R35), and the free values, opaque constants with no body (log 8). -/

namespace Sys2Proof

/-- The kinds of logical field (10_state.md R35, 42_codec_transforms.md R160). -/
inductive Kind where
  | raw | mac | ascii | utf16be | ube | ule16 | bias127 | s8 | nib | flagnib | bitgrp | enumb | enumn
deriving DecidableEq, Repr, Inhabited

/-- A field descriptor (10_state.md R35). A component a kind does not use is 0 or false. -/
structure Descriptor where
  kind     : Kind
  blk0     : Nat
  nblk     : Nat
  off      : Nat
  len      : Nat
  bit      : Nat := 0
  tbl      : Nat := 0
  strict   : Bool := false
  writable : Bool := false
  mindig   : Nat := 0
  maxdig   : Nat := 0
deriving DecidableEq, Repr

/-- `JOINKEY_SHORT` (00_scope.md R10). -/
inductive JoinkeyShort where
  | zeroFillRight | reject
deriving DecidableEq, Repr

/-- `TORN_WRITE` (00_scope.md R10, 20_memory.md R77). -/
inductive TornWrite where
  | oldOrNew | any
deriving DecidableEq, Repr

/-- The sentinel texts a table may show for an unmapped code (00_scope.md R10, 42_codec_transforms.md R189). -/
inductive SentinelText where
  | unknown | notSelected
deriving DecidableEq, Repr, Inhabited

/-- The parameters the source leaves open (00_scope.md R10). `etGain` lists the codes of `ET[1]` beside 0xD8, which is always
mapped (10_state.md R37). `SENTINEL[1]` is fixed, so only the other three sentinels stand here; no operation reads them, the
host's renderings do (42_codec_transforms.md R189). `uidLen = none` is the value `any`. -/
structure Params where
  ftExt          : List (Nat × Descriptor)
  etRegion       : List Byte
  etGain         : List Byte
  etPing         : List Byte
  etSku          : List Byte
  sentinelRegion : SentinelText
  sentinelPing   : SentinelText
  sentinelSku    : SentinelText
  sleepNib       : Fin 8
  joinkeyShort   : JoinkeyShort
  tornWrite      : TornWrite
  uidLen         : Option Nat
deriving DecidableEq, Repr

namespace Config

/-- `CFG_LAST + 1`: the number of configuration blocks (R9). -/
def cfgBlocks : Nat := 48

/-- `CRC_BLOCK` (R9). -/
def crcBlock : Nat := 48

/-- `MAX_BLOCK` (R9). -/
def maxBlock : Nat := 48

/-- `CRC_INIT` (R9). -/
def crcInit : BitVec 16 := 0xFFFF#16

/-- `CRC_POLY` (R9). -/
def crcPoly : BitVec 16 := 0x1021#16

/-- `TEMP_BIAS` (R9). -/
def tempBias : Int := 127

/-- `SLEEP_NIB`: open, no default (R10, R213; log 4). -/
opaque sleepNib : Fin 8

/-- `RES` bytes at index `ceil(RESLEN/2)` and above after an operation: counter, index (U3; log 8). -/
opaque freeRes : Nat → Nat → Byte

/-- `SNAP[n]` with its `SNAPV` bit clear: counter, block (U4; log 8). -/
opaque freeSnap : Nat → Nat → Block

/-- `BUF[n]` between operations: counter, block (U6; log 8). -/
opaque freeBuf : Nat → Nat → Block

/-- `OP[k]` after a reset pulse: counter, index (U1; log 8). -/
opaque freeOp : Nat → Nat → Byte

/-- A host read, while `BUSY`, of a register whose value is then unspecified: counter (U5; log 8). -/
opaque freeBits : Nat → BitVec 64

/-- A host read of `SNAP` while `BUSY`: counter (U5; log 8). -/
opaque freeBlock : Nat → Block

/-- The label texts the source does not give: table, code (R189; log 20). -/
opaque labelText : Fin 4 → Byte → String

/-- `SENTINEL[0]`, `[2]`, `[3]`: open, no default (R10, R189; log 4). -/
opaque sentinelText : Fin 4 → SentinelText

/-- The parameters at their defaults (00_scope.md R10); `SLEEP_NIB` and three sentinels, which have none, are opaque. -/
def defaults : Params where
  ftExt := []
  etRegion := []
  etGain := []
  etPing := []
  etSku := []
  sentinelRegion := sentinelText 0
  sentinelPing := sentinelText 2
  sentinelSku := sentinelText 3
  sleepNib := sleepNib
  joinkeyShort := .zeroFillRight
  tornWrite := .oldOrNew
  uidLen := none

end Config

end Sys2Proof
end

