-- ==== Sys2Proof/Machine/State.lean ====
section
/-! DEFINITION. The state of the machine as plain data: the CFU's registers (10_state.md R21, R30), the tag behind
`Transmit` (R39), the parameters (00_scope.md R10), what the host and the environment do next, and the state after reset. -/

namespace Sys2Proof.Machine

/-- The step lists of the sequencer (10_state.md R31; log 11). -/
inductive Phase where
  | check | rmwRead | write | regionRead | crcRead | crcWrite | fieldRead | viewRead | decode | finish
deriving DecidableEq, Repr

/-- `SEQ`: `IDLE`, or the position inside the running operation (R31). -/
inductive Seq where
  | idle
  | pos (phase : Phase) (i : Nat)
deriving DecidableEq, Repr

/-- What `Transmit` yields (20_memory.md R63). -/
inductive Answer where
  | resp (bytes : List Byte)
  | err
deriving DecidableEq, Repr

/-- What a block holds after a write exchange that did not succeed: its old value, the payload, or, with `TORN_WRITE = any`,
any value (R77; log 7). -/
inductive WriteFate where
  | old
  | new
  | torn (b : Block)
deriving DecidableEq, Repr

/-- What the environment does at one exchange (R64, R79, R283). -/
inductive LinkOutcome where
  /-- The tag answers as the well-behaved tag (R65). -/
  | behaved
  /-- Any answer (R64); `fate` tells of the block if this is a write that does not succeed (R77). -/
  | answers (y : Answer) (fate : WriteFate)
  /-- A reset falls before the exchange is made (R283). -/
  | resetBefore
  /-- A reset falls while the exchange is in flight (R283). -/
  | resetDuring (fate : WriteFate)
deriving DecidableEq, Repr

/-- The registers a host can name (R30). Numbers 13 to 15 and above 18 name none (U42), and so have no constructor. -/
inductive Reg where
  | cmd | status | faultcode | faultblk | faultfld | crcexp | crcact | crcreg | opv | oplen | resv | reslen | snapv
  | op (k : Fin 192)
  | res (k : Fin 192)
  | snap (n : Fin 49)
deriving DecidableEq, Repr

/-- A host write (R30): the four writable registers at their widths, or a write of a read-only one (U26). -/
inductive HostWrite where
  | cmd (w : BitVec 32)
  | opv (v : BitVec 64)
  | oplen (n : BitVec 16)
  | op (k : Fin 192) (b : Byte)
  | readOnly (r : Reg)
deriving DecidableEq, Repr

/-- One access of the host (R20, R25, R44). -/
inductive HostAct where
  | write (w : HostWrite)
  | read (r : Reg)
deriving DecidableEq, Repr

/-- The value a host read returns: a block for `SNAP[n]`, else the register's bits, zero-extended. -/
inductive HostVal where
  | bits (v : BitVec 64)
  | block (b : Block)
deriving DecidableEq, Repr

/-- What happens at one coming exchange: host accesses made while it is in flight (R44), and its outcome. -/
structure LinkEvent where
  host    : List HostAct
  outcome : LinkOutcome
deriving DecidableEq, Repr

/-- What comes next between operations: a host access, a pulse of the reset input (R280), or the bytes of a tag command
handed to the tag outside any operation (log 9). -/
inductive Event where
  | host (a : HostAct)
  | reset
  | wire (bytes : List Byte)
deriving DecidableEq, Repr

/-- An exchange that was made: `SEQ` at that moment, the command bytes, and the answer; none if a reset fell before the
CFU saw it (R283). -/
structure Exchange where
  seq    : Seq
  cmd    : List Byte
  answer : Option Answer
deriving DecidableEq, Repr

/-- Memory as pairs of a byte address and a byte; block `n` is the bytes at `4n..4n+3` (20_memory.md R66; log 14). -/
abbrev Memory := List Host.Cell

/-- The five fault kinds of the CFU (60_exceptions.md R250). They are reported in registers and lead to a next state; the
model's own stops are `Fault` and `Refusal`. -/
inductive FaultKind where
  | transportFault | encodingFault | decodeFault | crcMismatch | unknownBeaconType
deriving DecidableEq, Repr

structure State where
  -- host-visible registers of the CFU (10_state.md R30)
  cmd       : BitVec 32
  status    : BitVec 32
  faultcode : BitVec 8
  faultblk  : BitVec 16
  faultfld  : BitVec 8
  crcexp    : BitVec 16
  crcact    : BitVec 16
  crcreg    : BitVec 16
  opv       : BitVec 64
  oplen     : BitVec 16
  resv      : BitVec 64
  reslen    : BitVec 16
  snapv     : BitVec 49
  op        : Vector Byte 192
  res       : Vector Byte 192
  snap      : Vector Block 49
  -- hidden registers (R31, R32)
  seq       : Seq
  buf       : Vector Block 49
  -- outside the CFU, not reset with it (R39)
  tag       : Memory
  uid       : List Byte
  -- configuration: no step changes it (R40; log 4)
  params    : Params
  -- the model's own: what comes next, what was exchanged, the last host read, the counter of free values (log 8, 15)
  inbox     : List Event
  link      : List LinkEvent
  trace     : List Exchange
  hostRd    : HostVal
  fresh     : Nat
deriving DecidableEq, Repr

/-- The machine stops. No host command raises one (70_reset_and_hazards.md R295). -/
inductive Fault where
  /-- Raised by the meanings of `APDU.READ` and `APDU.WRITE` for a block above 48, which the tag does not have (R39, R60),
  where the environment's answer is not given in `link`. Safe: the model stops where a tag would answer something. -/
  | noSuchBlock
deriving DecidableEq, Repr

/-- The model has no meaning for what comes next. -/
inductive Refusal where
  /-- Answered by `exec` for an instruction that has no meaning yet. Safe. -/
  | notModelled (mnemonic : String)
  /-- Answered by `step` for raw bytes that are none of the three tag commands, which the CFU never sends (R102). Safe. -/
  | notATagCommand
deriving DecidableEq, Repr

/-- The machine right after reset (10_state.md R42). The arrays `OP`, `RES`, `SNAP`, `BUF`, which the spec leaves
unspecified, are zero (log 1); the tag lists nothing (log 2) and has an empty UID (log 3); nothing is pending (log 15). -/
def State.reset : State where
  cmd := 0
  status := 0
  faultcode := 0
  faultblk := 0xFFFF
  faultfld := 0xFF
  crcexp := 0
  crcact := 0
  crcreg := 0xFFFF
  opv := 0
  oplen := 0
  resv := 0
  reslen := 0
  snapv := 0
  op := Vector.replicate 192 0
  res := Vector.replicate 192 0
  snap := Vector.replicate 49 ⟨0, 0, 0, 0⟩
  seq := .idle
  buf := Vector.replicate 49 ⟨0, 0, 0, 0⟩
  tag := []
  uid := []
  params := Config.defaults
  inbox := []
  link := []
  trace := []
  hostRd := .bits 0
  fresh := 0

end Sys2Proof.Machine
end

