-- ==== Sys2Proof/Machine/Ops.lean ====
section
/-! DEFINITION. The shared operations: tag memory, the end of an operation and `raise` (10_state.md R43,
60_exceptions.md R256), reset (R42), one exchange (20_memory.md R63 to R65), block read and write (40_transport.md R121 to R125). -/

namespace Sys2Proof.Machine

/-! ### Tag memory -/

/-- What a byte of the tag that nothing is listed for reads as (log 2). -/
def Memory.unlisted : Byte := 0xFF#8

/-- One byte of tag memory. -/
def Memory.byteAt : Memory → Nat → Byte
  | [], _ => Memory.unlisted
  | (k, b) :: m, a => if k = a then b else Memory.byteAt m a

/-- Tag memory with one byte replaced, in canonical form. -/
def Memory.setByte : Memory → Nat → Byte → Memory
  | [], a, b => if b = Memory.unlisted then [] else [(a, b)]
  | (k, c) :: m, a, b =>
    if a < k then (if b = Memory.unlisted then (k, c) :: m else (a, b) :: (k, c) :: m)
    else if a = k then (if b = Memory.unlisted then m else (a, b) :: m)
    else (k, c) :: Memory.setByte m a b

/-- The canonical form: addresses strictly rising, no entry equal to what an unlisted byte reads as. -/
def Memory.wf : Memory → Bool
  | [] => true
  | (k, b) :: m => decide (b ≠ Memory.unlisted) && m.all (fun c => decide (k < c.1)) && Memory.wf m

/-- Every listed address is one of the tag's 196 bytes (R39). -/
def Memory.inTag (m : Memory) : Bool := m.all (fun c => decide (c.1 < 196))

/-- `TAG[n]` (R39, R66). -/
def Memory.blockAt (m : Memory) (n : Nat) : Block :=
  ⟨m.byteAt (4 * n), m.byteAt (4 * n + 1), m.byteAt (4 * n + 2), m.byteAt (4 * n + 3)⟩

/-- `TAG[n] <- d`: all 4 bytes replaced (R62). -/
def Memory.setBlock (m : Memory) (n : Nat) (d : Block) : Memory :=
  (((m.setByte (4 * n) d.b0).setByte (4 * n + 1) d.b1).setByte (4 * n + 2) d.b2).setByte (4 * n + 3) d.b3

/-! ### Images: `BUF` and `SNAP` -/

/-- Block `n` of an image; an index above 48 names none and is not used. -/
def imageAt (img : Vector Block 49) (n : Nat) : Block := (img[n]?).getD ⟨0, 0, 0, 0⟩

/-- `cat(B, blk0, nblk)` (42_codec_transforms.md R161). -/
def cat (img : Vector Block 49) (blk0 nblk : Nat) : List Byte :=
  (List.range nblk).flatMap (fun j => (imageAt img (blk0 + j)).toList)

/-! ### The end of an operation -/

/-- What an operation delivers at its normal end: `RESV`, the valid bytes of `RES` (`RESLEN` counts their digits), and the
flags `CRCOK` and `UNK`; 0, none and clear where its rule names none (R43). -/
structure Result where
  resv  : BitVec 64 := 0
  bytes : List Byte := []
  crcok : Bool := false
  unk   : Bool := false
deriving DecidableEq, Repr

/-- `RES` with the given valid bytes; the bytes beyond them hold a free value (R24, U3; log 8). -/
def resFill (c : Nat) (bs : List Byte) : Vector Byte 192 :=
  Vector.ofFn (fun k => bs.getD k.val (Config.freeRes c k.val))

/-- `BUF` between operations holds free values (R32, U6; log 8). -/
def bufFree (c : Nat) : Vector Block 49 := Vector.ofFn (fun n => Config.freeBuf c n.val)

/-- `SNAP` where `SNAPV` is clear holds free values (R33, U4; log 8). -/
def snapFree (c : Nat) : Vector Block 49 := Vector.ofFn (fun n => Config.freeSnap c n.val)

/-- Normal end of an operation (R43). -/
def finish (r : Result) (s : State) : State :=
  { s with
    resv := r.resv, res := resFill s.fresh r.bytes, reslen := BitVec.ofNat 16 (2 * r.bytes.length)
    faultcode := 0, faultblk := 0xFFFF, faultfld := 0xFF
    status := statusNormal r.crcok r.unk, seq := .idle, buf := bufFree s.fresh, fresh := s.fresh + 1 }

/-- `FAULTCODE` of a fault kind (R251). -/
def FaultKind.code : FaultKind → BitVec 8
  | .transportFault => 1
  | .encodingFault => 2
  | .decodeFault => 3
  | .crcMismatch => 4
  | .unknownBeaconType => 5

/-- `raise F(blk, fld)`, the CFU's whole trap mechanism (R256). After `CrcMismatch` `RESV` holds the computed CRC, which
`CRCEXP` holds (R255). -/
def raiseFault (f : FaultKind) (blk : BitVec 16) (fld : BitVec 8) (s : State) : State :=
  { s with
    faultcode := f.code, faultblk := blk, faultfld := fld
    status := statusRaised
    resv := if f = .crcMismatch then s.crcexp.setWidth 64 else 0
    res := resFill s.fresh [], reslen := 0
    seq := .idle, buf := bufFree s.fresh, fresh := s.fresh + 1 }

/-- The accepted write of `CMD` (R25, R34). There is no return from a fault: this is what clears its flags (R262). -/
def acceptCmd (w : BitVec 32) (s : State) : State :=
  { s with cmd := w, status := statusAccepted, seq := .pos .check 0 }

/-- A pulse of the reset input: every register at its reset value (R42), the arrays the spec leaves unspecified at free
values (U1, U2; log 8); the tag, and what is not the CFU's, stay (R282; log 16). -/
def resetPulse (s : State) : State :=
  { s with
    cmd := 0, status := 0, faultcode := 0, faultblk := 0xFFFF, faultfld := 0xFF
    crcexp := 0, crcact := 0, crcreg := 0xFFFF, opv := 0, oplen := 0, resv := 0, reslen := 0, snapv := 0
    op := Vector.ofFn (fun k => Config.freeOp s.fresh k.val), res := resFill s.fresh []
    snap := snapFree s.fresh, seq := .idle, buf := bufFree s.fresh, fresh := s.fresh + 1 }

/-! ### Running part of an operation -/

/-- How a part of an operation ends: with a value, by `raise`, or cut by a reset that fell in it (R43). -/
inductive Run (α : Type) where
  | ok (a : α) (s : State)
  | raised (f : FaultKind) (blk : BitVec 16) (fld : BitVec 8) (s : State)
  | cut (s : State)
deriving DecidableEq, Repr

/-- One part after another: the first `raise` or reset ends the operation (R260). -/
def Run.andThen {α β : Type} (r : Run α) (k : α → State → Run β) : Run β :=
  match r with
  | .ok a s => k a s
  | .raised f blk fld s => .raised f blk fld s
  | .cut s => .cut s

/-- The state in which a part of an operation left the machine. -/
def Run.after {α : Type} (r : Run α) : State :=
  match r with
  | .ok _ s => s
  | .raised _ _ _ s => s
  | .cut s => s

/-- The next state of a whole operation: normal end, faulted end, or cut by reset (R43). -/
def Run.toOutcome (r : Run Result) : Host.Outcome State Fault Refusal :=
  match r with
  | .ok a s => .next (finish a s)
  | .raised f blk fld s => .next (raiseFault f blk fld s)
  | .cut s => .next s

/-! ### Host accesses -/

/-- Width of a register in bits (R30). -/
def Reg.width : Reg → Nat
  | .cmd | .status | .snap _ => 32
  | .faultcode | .faultfld | .op _ | .res _ => 8
  | .faultblk | .crcexp | .crcact | .crcreg | .oplen | .reslen => 16
  | .opv | .resv => 64
  | .snapv => 49

/-- Register number (R30). -/
def Reg.number : Reg → Nat
  | .cmd => 0 | .status => 1 | .faultcode => 2 | .faultblk => 3 | .faultfld => 4 | .crcexp => 5 | .crcact => 6
  | .crcreg => 7 | .opv => 8 | .oplen => 9 | .resv => 10 | .reslen => 11 | .snapv => 12
  | .op _ => 16 | .res _ => 17 | .snap _ => 18

/-- The value a register holds (R30). -/
def regValue (s : State) : Reg → HostVal
  | .cmd => .bits (s.cmd.setWidth 64)
  | .status => .bits (s.status.setWidth 64)
  | .faultcode => .bits (s.faultcode.setWidth 64)
  | .faultblk => .bits (s.faultblk.setWidth 64)
  | .faultfld => .bits (s.faultfld.setWidth 64)
  | .crcexp => .bits (s.crcexp.setWidth 64)
  | .crcact => .bits (s.crcact.setWidth 64)
  | .crcreg => .bits (s.crcreg.setWidth 64)
  | .opv => .bits s.opv
  | .oplen => .bits (s.oplen.setWidth 64)
  | .resv => .bits s.resv
  | .reslen => .bits (s.reslen.setWidth 64)
  | .snapv => .bits (s.snapv.setWidth 64)
  | .op k => .bits (s.op[k].setWidth 64)
  | .res k => .bits (s.res[k].setWidth 64)
  | .snap n => .block s.snap[n]

/-- The registers a host reads truly while an operation runs; the others return an unspecified value (R44, U5). -/
def Reg.trueWhileBusy : Reg → Bool
  | .cmd | .status | .opv | .oplen | .op _ => true
  | _ => false

/-- An unspecified value of a register's width (U5; log 8). -/
def regFree (c : Nat) (r : Reg) : HostVal :=
  match r with
  | .snap _ => .block (Config.freeBlock c)
  | r => .bits (((Config.freeBits c).setWidth r.width).setWidth 64)

/-- One host access while an operation runs: a write is ignored, a read returns the register or an unspecified value (R44). -/
def hostBusy (a : HostAct) (s : State) : State :=
  match a with
  | .write _ => s
  | .read r =>
    if r.trueWhileBusy then { s with hostRd := regValue s r }
    else { s with hostRd := regFree s.fresh r, fresh := s.fresh + 1 }

/-- The host accesses made while an exchange is in flight, in order. -/
def hostBusyAll : List HostAct → State → State
  | [], s => s
  | a :: as, s => hostBusyAll as (hostBusy a s)

/-- One host access while no operation runs, other than a write of `CMD`, which starts one (R25, R30, U26). -/
def hostIdle (a : HostAct) (s : State) : State :=
  match a with
  | .write (.cmd _) => s
  | .write (.opv v) => { s with opv := v }
  | .write (.oplen n) => { s with oplen := n }
  | .write (.op k b) => { s with op := s.op.set k.val b }
  | .write (.readOnly _) => s
  | .read r => { s with hostRd := regValue s r }

/-! ### One exchange -/

/-- A response ends in the status word 90 00 (30_encoding.md R99). -/
def statusOk (resp : List Byte) : Bool :=
  decide (2 ≤ resp.length) && (resp.drop (resp.length - 2) == [0x90#8, 0x00#8])

/-- The exchange succeeded: `Ok(resp)` with status word 90 00 (R77, R99). -/
def Answer.success : Answer → Bool
  | .resp r => statusOk r
  | .err => false

/-- What the well-behaved tag answers (R65). -/
def behavedAnswer (c : TagCmd) (s : State) : Answer :=
  match c with
  | .read n => .resp ((s.tag.blockAt n).toList ++ [0x90#8, 0x00#8])
  | .write _ _ => .resp [0x90#8, 0x00#8]
  | .getUid => .resp (s.uid ++ [0x90#8, 0x00#8])

/-- A block after a write exchange that did not succeed, or was in flight at a reset (R77; log 7). -/
def fateBlock (p : Params) (fate : WriteFate) (old payload : Block) : Block :=
  match fate with
  | .old => old
  | .new => payload
  | .torn b => match p.tornWrite with
    | .any => b
    | .oldOrNew => old

/-- The tag stores a block it has; it has no block above 48 (R39, R60). -/
def tagStore (m : Memory) (n : Nat) (d : Block) : Memory := if n ≤ Config.maxBlock then m.setBlock n d else m

/-- Tag memory after a command whose exchange succeeded: a write replaced the block, nothing else has an effect (R62). -/
def tagAfter (c : TagCmd) (s : State) : Memory :=
  match c with
  | .write n d => tagStore s.tag n d
  | _ => s.tag

/-- Tag memory after a command whose exchange did not succeed (R77). -/
def tagAfterFailure (c : TagCmd) (fate : WriteFate) (s : State) : Memory :=
  match c with
  | .write n d => tagStore s.tag n (fateBlock s.params fate (s.tag.blockAt n) d)
  | _ => s.tag

/-- The exchange as the environment settles it (R64, R65, R77, R283). -/
def settle (c : TagCmd) (o : LinkOutcome) (s : State) : Run Answer :=
  match o with
  | .behaved =>
    .ok (behavedAnswer c s)
      { s with tag := tagAfter c s, trace := ⟨s.seq, c.bytes, some (behavedAnswer c s)⟩ :: s.trace }
  | .answers y fate =>
    .ok y
      { s with tag := if y.success then tagAfter c s else tagAfterFailure c fate s
               trace := ⟨s.seq, c.bytes, some y⟩ :: s.trace }
  | .resetBefore => .cut (resetPulse s)
  | .resetDuring fate =>
    .cut (resetPulse { s with tag := tagAfterFailure c fate s, trace := ⟨s.seq, c.bytes, none⟩ :: s.trace })

/-- `Transmit` at position `q` of the running operation (R31, R63): the next entry of `link` says what the host does
meanwhile and what the environment answers; with no entry the tag is well-behaved (log 6). -/
def transmit (q : Seq) (c : TagCmd) (s : State) : Run Answer :=
  match s.link with
  | [] => settle c .behaved { s with seq := q }
  | e :: es => settle c e.outcome (hostBusyAll e.host { s with seq := q, link := es })

/-! ### Block transport -/

/-- `check_status` (40_transport.md R122): the data before the status word. -/
def checkStatus (y : Answer) (blk : BitVec 16) (fld : BitVec 8) (s : State) : Run (List Byte) :=
  match y with
  | .err => .raised .transportFault blk fld s
  | .resp r =>
    if statusOk r then .ok (r.take (r.length - 2)) s else .raised .transportFault blk fld s

/-- `ReadBlock(n, fld)` (R121, R123). -/
def readBlock (q : Seq) (n : Nat) (fld : BitVec 8) (s : State) : Run Block :=
  if n > Config.maxBlock then .raised .encodingFault (BitVec.ofNat 16 n) fld s
  else
    (transmit q (.read n) s).andThen fun y s =>
    (checkStatus y (BitVec.ofNat 16 n) fld s).andThen fun data s =>
    match Block.ofBytes data with
    | some b => .ok b { s with buf := s.buf.setIfInBounds n b }
    | none => .raised .decodeFault (BitVec.ofNat 16 n) fld s

/-- `WriteBlock(n, d, fld)` (R121, R125). -/
def writeBlock (q : Seq) (n : Nat) (d : Block) (fld : BitVec 8) (s : State) : Run Unit :=
  if n > Config.maxBlock then .raised .encodingFault (BitVec.ofNat 16 n) fld s
  else
    (transmit q (.write n d) s).andThen fun y s =>
    (checkStatus y (BitVec.ofNat 16 n) fld s).andThen fun _ s => .ok () s

/-- `GetUID()` (R127). -/
def getUid (q : Seq) (s : State) : Run (List Byte) :=
  (transmit q .getUid s).andThen fun y s => checkStatus y 0xFFFF 0xFF s

/-- Block reads in list order, the first at index `i` of the step list (R149, R202, R230). -/
def readBlocks (ph : Phase) (fld : BitVec 8) : List Nat → Nat → State → Run Unit
  | [], _, s => .ok () s
  | n :: ns, i, s => (readBlock (.pos ph i) n fld s).andThen fun _ s => readBlocks ph fld ns (i + 1) s

/-- Block writes in list order, the first at index `i` of the step list (R230, R233, R235). -/
def writeBlocks (ph : Phase) (fld : BitVec 8) : List (Nat × Block) → Nat → State → Run Unit
  | [], _, s => .ok () s
  | (n, d) :: ws, i, s =>
    (writeBlock (.pos ph i) n d fld s).andThen fun _ s => writeBlocks ph fld ws (i + 1) s

end Sys2Proof.Machine
end

