-- ==== Sys2Proof/Machine/Crc.lean ====
section
/-! DEFINITION. The CRC engine: the checksum function and the storage encoding (41_crc.md R140 to R145), reading the
region, recomputing and validating (R149 to R151), and the five CRC commands. -/

namespace Sys2Proof.Machine

/-- One of the eight shifts of a byte step: the shifted-out bit selects the polynomial (R142). -/
def crcShift (c : BitVec 16) : BitVec 16 :=
  if c.msb then (c <<< 1) ^^^ Config.crcPoly else c <<< 1

/-- `crc_byte(c, b)` (R142; log 23). -/
def crcByte (c : BitVec 16) (b : Byte) : BitVec 16 :=
  crcShift (crcShift (crcShift (crcShift (crcShift (crcShift (crcShift (crcShift (c ^^^ (b.setWidth 16 <<< 8)))))))))

/-- `k c`, with the number `c` computed before it is handed on, so that Lean's kernel evaluates a long string byte by
byte (`computed_eq` says that it is `k c`). -/
def computed {α : Type} (c : BitVec 16) (k : BitVec 16 → α) : α :=
  match c.toNat with
  | 0 => k 0#16
  | n + 1 => k (BitVec.ofNat 16 (n + 1))

/-- The byte steps of `crc16` from register value `c` on, in ascending order (R141). -/
def crcFrom (c : BitVec 16) : List Byte → BitVec 16
  | [] => c
  | b :: bs => computed (crcByte c b) (fun c' => crcFrom c' bs)

/-- `crc16(s)` (R141). -/
def crc16 (s : List Byte) : BitVec 16 := crcFrom Config.crcInit s

/-- `enc_store(c)`: low byte, high byte, two zero bytes (R143). -/
def encStore (c : BitVec 16) : Block := ⟨c.extractLsb' 0 8, c.extractLsb' 8 8, 0, 0⟩

/-- `dec_store(b)`: bytes 2 and 3 are not read (R144). -/
def decStore (b : Block) : BitVec 16 := b.b1 ++ b.b0

/-- `read_region(fld)`: 48 reads, ascending, then the 192 bytes in address order (R149). -/
def readRegion (fld : BitVec 8) (s : State) : Run (List Byte) :=
  (readBlocks .regionRead fld (List.range Config.cfgBlocks) 0 s).andThen fun _ s =>
  .ok (cat s.buf 0 Config.cfgBlocks) s

/-- `recompute(fld)` (R151). -/
def recompute (fld : BitVec 8) (s : State) : Run (BitVec 16) :=
  (readRegion fld s).andThen fun region s =>
  (writeBlock (.pos .crcWrite 0) Config.crcBlock (encStore (crc16 region)) fld
    { s with crcreg := crc16 region }).andThen fun _ s =>
  .ok (crc16 region) s

/-- The comparison that ends `CRC.VALIDATE` and `CFG.ERASE` (R150, R235). -/
def crcCompare (computed stored : BitVec 16) (s : State) : Run Result :=
  if computed = stored then
    .ok { resv := computed.setWidth 64, crcok := true }
      { s with crcreg := computed, crcexp := computed, crcact := stored }
  else
    .raised .crcMismatch 48 0xFF { s with crcreg := computed, crcexp := computed, crcact := stored }

/-- The body of `CRC.VALIDATE` (R150). -/
def validate (s : State) : Run Result :=
  (readRegion 0xFF s).andThen fun region s =>
  (readBlock (.pos .crcRead 0) Config.crcBlock 0xFF s).andThen fun b48 s =>
  crcCompare (crc16 region) (decStore b48) s

/-- `CRC.COMPUTE`, up to its end (R146). -/
def crcComputeRun (s : State) : Run Result :=
  if s.oplen ≠ 384 then .raised .encodingFault 0xFFFF 0xFF s
  else .ok { resv := (crc16 s.op.toList).setWidth 64 } { s with crcreg := crc16 s.op.toList }

/-- `CRC.ENC`, up to its end (R147). -/
def crcEncRun (s : State) : Run Result :=
  if s.opv.toInt < 0 ∨ s.opv.toInt > 0xFFFF then .raised .encodingFault 0xFFFF 0xFF s
  else .ok { bytes := (encStore (s.opv.setWidth 16)).toList } s

/-- `CRC.DEC`, up to its end (R148). -/
def crcDecRun (s : State) : Run Result :=
  if s.oplen ≠ 8 then .raised .encodingFault 0xFFFF 0xFF s
  else .ok { resv := (decStore ⟨s.op[0], s.op[1], s.op[2], s.op[3]⟩).setWidth 64 } s

/-- `CRC.COMPUTE` (R146). -/
def execCrcCompute (s : State) : Host.Outcome State Fault Refusal := (crcComputeRun s).toOutcome

/-- `CRC.ENC` (R147). -/
def execCrcEnc (s : State) : Host.Outcome State Fault Refusal := (crcEncRun s).toOutcome

/-- `CRC.DEC` (R148). -/
def execCrcDec (s : State) : Host.Outcome State Fault Refusal := (crcDecRun s).toOutcome

/-- `CRC.VALIDATE` (R150). -/
def execCrcValidate (s : State) : Host.Outcome State Fault Refusal := (validate s).toOutcome

/-- `CRC.RECOMPUTE` (R151). -/
def execCrcRecompute (s : State) : Host.Outcome State Fault Refusal :=
  ((recompute 0xFF s).andThen fun c s => .ok { resv := c.setWidth 64 } s).toOutcome

end Sys2Proof.Machine
end

