-- ==== Sys2Proof/Machine/Operands.lean ====
section
/-! DEFINITION. Operand forms: the field table, enumeration sets and views (10_state.md R36 to R38, R45), operands from
`OP`/`OPLEN` and `OPV` (R22, R23), and the decode and encode rule of every field kind (42_codec_transforms.md). -/

namespace Sys2Proof.Machine

/-! ### The field table -/

/-- The kind takes its operand from `OP` and `OPLEN` (R160). -/
def Kind.takesOp : Kind → Bool
  | .raw | .mac | .ascii => true
  | _ => false

/-- `nblk` is the least number of blocks that contains `len` bytes from `off` on, which are all inside (R45). -/
def bytesFit (d : Descriptor) (len : Nat) : Bool :=
  decide (d.off < 4) && decide (1 ≤ len) && decide (d.off + len ≤ 4 * d.nblk) && decide (4 * (d.nblk - 1) < d.off + len)

/-- One block, one of its 8 digits (R45). -/
def digitFit (d : Descriptor) : Bool := decide (d.nblk = 1) && decide (d.off < 8) && decide (d.len = 1)

/-- An enumeration names a table, and only table 3 is strict (R37). -/
def enumFit (d : Descriptor) : Bool := decide (d.tbl ≤ 3) && (d.strict == decide (d.tbl = 3))

/-- The well-formed descriptors (R45, R37, R166; log 13). -/
def descWf (d : Descriptor) : Bool :=
  decide (d.blk0 ≤ 47) && decide (1 ≤ d.nblk) && decide (d.nblk ≤ 24) && decide (d.blk0 + d.nblk - 1 ≤ 47) &&
  match d.kind with
  | .raw | .mac | .ascii => bytesFit d d.len && decide (d.maxdig ≤ 2 * d.len)
  | .utf16be => bytesFit d d.len && decide (d.len % 2 = 0) && !d.writable
  | .ube => bytesFit d d.len && decide (d.len ≤ 8)
  | .ule16 => bytesFit d d.len && decide (d.len = 2)
  | .bias127 | .s8 => bytesFit d d.len && decide (d.len = 1)
  | .enumb => bytesFit d d.len && decide (d.len = 1) && enumFit d
  | .bitgrp =>
    decide (d.nblk = 1) && decide (d.off < 4) && decide (1 ≤ d.len) && decide (d.len ≤ 2) && decide (d.bit + d.len ≤ 8)
  | .nib | .flagnib => digitFit d
  | .enumn => digitFit d && enumFit d

/-- Rows 0 to 7 of the field table (R36). -/
def fixedDesc (p : Params) : Nat → Option Descriptor
  | 0 => some { kind := .raw, blk0 := 0, nblk := 2, off := 0, len := 8 }
  | 1 => some { kind := .raw, blk0 := 3, nblk := 4, off := 0, len := 16, writable := true
                mindig := (match p.joinkeyShort with | .zeroFillRight => 0 | .reject => 32), maxdig := 32 }
  | 2 => some { kind := .mac, blk0 := 11, nblk := 2, off := 0, len := 8, writable := true, mindig := 16, maxdig := 16 }
  | 3 => some { kind := .mac, blk0 := 11, nblk := 2, off := 0, len := 8 }
  | 4 => some { kind := .raw, blk0 := 18, nblk := 2, off := 0, len := 8 }
  | 5 => some { kind := .ascii, blk0 := 22, nblk := 2, off := 0, len := 8, writable := true, mindig := 0, maxdig := 16 }
  | 6 => some { kind := .utf16be, blk0 := 22, nblk := 2, off := 0, len := 8 }
  | 7 => some { kind := .flagnib, blk0 := 13, nblk := 1, off := p.sleepNib.val, len := 1, writable := true }
  | _ => none

/-- The entry of `FT_EXT` for an id, if there is one and it is well-formed (R36, R45; log 13). -/
def extDesc (p : Params) (f : Nat) : Option Descriptor :=
  match p.ftExt.find? (fun e => decide (e.1 = f)) with
  | some e => if descWf e.2 then some e.2 else none
  | none => none

/-- `FT[f]`, undefined for 0xFF and above (R36, R201). -/
def desc (p : Params) (f : Nat) : Option Descriptor :=
  if f ≤ 7 then fixedDesc p f else if f < 255 then extDesc p f else none

/-- `code in ET[tbl]`; 0xD8 is in `ET[1]` (R37). -/
def mapped (p : Params) (tbl : Nat) (code : Byte) : Bool :=
  match tbl with
  | 0 => p.etRegion.contains code
  | 1 => code == 0xD8#8 || p.etGain.contains code
  | 2 => p.etPing.contains code
  | 3 => p.etSku.contains code
  | _ => false

/-- `VIEW[v]`, ascending (R38). -/
def view : Nat → Option (List Nat)
  | 0 => some [8, 9, 10, 11, 12, 13, 14, 15]
  | 1 => some [7, 8, 9, 13, 14, 15, 19, 20, 21, 24, 25, 26, 27, 28, 29, 30, 31]
  | _ => none

/-- A set of blocks as the bits of `SNAPV` (R33). -/
def blockMask (bs : List Nat) : BitVec 49 := bs.foldl (fun m n => m ||| BitVec.twoPow 49 n) 0#49

/-! ### Decoding -/

/-- `F`, the field's bytes in `C` (R161). -/
def fieldBytes (d : Descriptor) (c : List Byte) : List Byte := (c.drop d.off).take d.len

/-- What a decode rule yields (R162): an exact integer with the flag `unk`, a byte string, or the miss of a strict table. -/
inductive DecVal where
  | num (v : Int) (unk : Bool)
  | bytes (bs : List Byte)
  | unmapped
deriving DecidableEq, Repr

/-- Decode of an enumeration code (R187). -/
def decodeEnum (p : Params) (d : Descriptor) (code : Byte) : DecVal :=
  if mapped p d.tbl code then .num code.toNat false
  else if d.strict then .unmapped
  else .num code.toNat true

/-- `ASCII` decode: the bytes without trailing 0x00 (R168). -/
def asciiTrim (f : List Byte) : List Byte := trimTail (fun b => b == 0#8) f

/-- `UTF16BE` decode: the code units without trailing 0x0000, each high byte first (R170). -/
def utf16Trim (f : List Byte) : List Byte :=
  (trimTail (fun u : Byte × Byte => u.1 == 0#8 && u.2 == 0#8) (codeUnits f)).flatMap (fun u => [u.1, u.2])

/-- The decode rule of a field over the bytes `C` of its blocks (R160, R162). -/
def decodeBytes (p : Params) (d : Descriptor) (c : List Byte) : DecVal :=
  match d.kind with
  | .raw => .bytes (fieldBytes d c)
  | .mac => .bytes (fieldBytes d c)
  | .ascii => .bytes (asciiTrim (fieldBytes d c))
  | .utf16be => .bytes (utf16Trim (fieldBytes d c))
  | .ube => .num (bigEndian (fieldBytes d c)) false
  | .ule16 => .num (((c.getD (d.off + 1) 0).toNat * 256 + (c.getD d.off 0).toNat : Nat) : Int) false
  | .bias127 => .num ((c.getD d.off 0).toNat - Config.tempBias) false
  | .s8 => .num ((c.getD d.off 0).toInt) false
  | .nib => .num (digit c d.off).toNat false
  | .flagnib => .num (if digit c d.off = 1#8 then 1 else 0) false
  | .bitgrp => .num (((c.getD d.off 0).toNat / 2 ^ d.bit) % 2 ^ d.len : Nat) false
  | .enumb => decodeEnum p d (c.getD d.off 0)
  | .enumn => decodeEnum p d (digit c d.off)

/-- `dec(d, B)` on a block image (R161, R162). -/
def decodeField (p : Params) (d : Descriptor) (img : Vector Block 49) : DecVal :=
  decodeBytes p d (cat img d.blk0 d.nblk)

/-! ### Encoding -/

/-- What the field operations take their value from (R93, R160). -/
structure Operand where
  opv   : BitVec 64
  oplen : Nat
  op    : List Byte
deriving DecidableEq, Repr

/-- The operand registers of a state (R22, R23). -/
def operandOf (s : State) : Operand := ⟨s.opv, s.oplen.toNat, s.op.toList⟩

/-- The bytes of the first `n` digits: an odd last digit is the high nibble of its byte, the low nibble 0 (R22, R166). -/
def digitBytes (op : List Byte) (n : Nat) : List Byte :=
  if n % 2 = 0 then op.take (n / 2) else op.take (n / 2) ++ [op.getD (n / 2) 0 &&& 0xF0#8]

/-- A byte string filled with 0x00 up to a length (R166, R169). -/
def zeroFill (len : Nat) (bs : List Byte) : List Byte := bs ++ List.replicate (len - bs.length) 0

/-- A digit at digit index `off` of a byte: its data and its mask (R182). -/
def digitPlace (off : Nat) (q : Byte) : Byte × Byte :=
  if off % 2 = 0 then (q <<< 4, 0xF0#8) else (q, 0x0F#8)

/-- The integer operand is in a range, both ends included (R191). -/
def inRange (o : Operand) (lo hi : Int) : Bool := decide (lo ≤ o.opv.toInt) && decide (o.opv.toInt ≤ hi)

/-- Data and mask of whole bytes from byte `off` of the field's blocks on (R163). -/
def wholeBytes (d : Descriptor) (bs : List Byte) : List Byte × List Byte :=
  (spread (4 * d.nblk) d.off bs, spread (4 * d.nblk) d.off (List.replicate bs.length 0xFF#8))

/-- Data and mask of a part of the byte at index `idx` of the field's blocks (R163). -/
def partByte (d : Descriptor) (idx : Nat) (dm : Byte × Byte) : List Byte × List Byte :=
  (spread (4 * d.nblk) idx [dm.1], spread (4 * d.nblk) idx [dm.2])

/-- Data and mask of one digit (R182). -/
def oneDigit (d : Descriptor) (q : Byte) : List Byte × List Byte := partByte d (d.off / 2) (digitPlace d.off q)

/-- The checks of a `UBE` operand: 8 bytes take every 64-bit pattern as unsigned, fewer take 0..2^(8 len)-1 (R173; log 12). -/
def ubeOk (d : Descriptor) (o : Operand) : Bool :=
  if d.len = 8 then true else inRange o 0 (2 ^ (8 * d.len) - 1)

/-- The characters of an `ASCII` operand are an even number of digits, at most `maxdig`, each byte at most 0x7F (R169). -/
def asciiOk (d : Descriptor) (o : Operand) : Bool :=
  decide (o.oplen % 2 = 0) && decide (d.mindig ≤ o.oplen) && decide (o.oplen ≤ d.maxdig) &&
  (o.op.take (o.oplen / 2)).all (fun b => decide (b.toNat ≤ 0x7F))

/-- The digits of a `RAW` or `MAC` operand number `mindig` to `maxdig` (R166). -/
def rawOk (d : Descriptor) (o : Operand) : Bool := decide (d.mindig ≤ o.oplen) && decide (o.oplen ≤ d.maxdig)

/-- The low byte of the integer operand. -/
def opvByte (o : Operand) : Byte := o.opv.setWidth 8

/-- The encode rule of each kind after the common checks: data and mask, or no value for `EncodingFault` (R163). -/
def encodeKind (p : Params) (d : Descriptor) (o : Operand) : Option (List Byte × List Byte) :=
  match d.kind with
  | .raw => if rawOk d o then some (wholeBytes d (zeroFill d.len (digitBytes o.op o.oplen))) else none
  | .mac => if rawOk d o then some (wholeBytes d (zeroFill d.len (digitBytes o.op o.oplen))) else none
  | .ascii => if asciiOk d o then some (wholeBytes d (zeroFill d.len (o.op.take (o.oplen / 2)))) else none
  | .utf16be => none
  | .ube => if ubeOk d o then some (wholeBytes d (bigEndianBytes d.len o.opv.toNat)) else none
  | .ule16 =>
    if inRange o 0 0xFFFF then some (wholeBytes d [loByte o.opv.toNat, hiByte o.opv.toNat]) else none
  | .bias127 =>
    if inRange o (-127) 128 then some (wholeBytes d [BitVec.ofInt 8 (o.opv.toInt + Config.tempBias)]) else none
  | .s8 => if inRange o (-128) 127 then some (wholeBytes d [opvByte o]) else none
  | .nib => if inRange o 0 15 then some (oneDigit d (opvByte o)) else none
  | .flagnib => if inRange o 0 1 then some (oneDigit d (opvByte o)) else none
  | .bitgrp =>
    if inRange o 0 (2 ^ d.len - 1) then
      some (partByte d d.off (opvByte o <<< d.bit, BitVec.ofNat 8 (2 ^ d.len - 1) <<< d.bit)) else none
  | .enumb => if inRange o 0 255 && mapped p d.tbl (opvByte o) then some (wholeBytes d [opvByte o]) else none
  | .enumn => if inRange o 0 15 && mapped p d.tbl (opvByte o) then some (oneDigit d (opvByte o)) else none

/-- `enc(d, v)`: the checks common to every encode (R192), then the kind's rule (R163). -/
def encodeField (p : Params) (d : Descriptor) (o : Operand) : Option (List Byte × List Byte) :=
  if !d.writable then none
  else if Kind.takesOp d.kind && decide (384 < o.oplen) then none
  else encodeKind p d o

end Sys2Proof.Machine
end

