-- ==== Sys2Proof/Machine/Fields.lean ====
section
/-! DEFINITION. The field commands `FLD.RD`, `FLD.DEC`, `FLD.ENC` (43_field_ops.md). -/

namespace Sys2Proof.Machine

/-- The field id carried into the fault context, the 8 bits of `CMD.sel` (R91, R121). -/
def fldId (f : Nat) : BitVec 8 := BitVec.ofNat 8 f

/-- `desc(f)` inside an operation: an undefined field id raises before any exchange (R201). -/
def withDesc {α : Type} (f : Nat) (s : State) (k : Descriptor → Run α) : Run α :=
  match desc s.params f with
  | some d => k d
  | none => .raised .encodingFault 0xFFFF (fldId f) s

/-- `enc(d, v)` inside an operation: a read-only field or a value its kind does not take raises before any exchange
(R163, R192, R205). -/
def withEncoded {α : Type} (f : Nat) (d : Descriptor) (s : State) (k : List Byte → List Byte → Run α) : Run α :=
  match encodeField s.params d (operandOf s) with
  | some (data, mask) => k data mask
  | none => .raised .encodingFault 0xFFFF (fldId f) s

/-- `read_field(d, f)`: one read per block the field lies in, ascending (R202). -/
def readField (d : Descriptor) (f : Nat) (s : State) : Run Unit :=
  readBlocks .fieldRead (fldId f) ((List.range d.nblk).map (d.blk0 + ·)) 0 s

/-- Delivery of a decoded value (R200); the miss of a strict table raises (R187, R257). -/
def deliver (d : Descriptor) (f : Nat) (v : DecVal) (s : State) : Run Result :=
  match v with
  | .num n unk => .ok { resv := BitVec.ofInt 64 n, unk := unk } s
  | .bytes bs => .ok { bytes := bs } s
  | .unmapped => .raised .unknownBeaconType (BitVec.ofNat 16 d.blk0) (fldId f) s

/-- `FLD.RD f`, up to its end (R203). -/
def fldRdRun (f : Nat) (s : State) : Run Result :=
  withDesc f s fun d =>
    (readField d f s).andThen fun _ s => deliver d f (decodeField s.params d s.buf) s

/-- The first block of a field that the snapshot does not hold (R204). -/
def missingBlock (d : Descriptor) (snapv : BitVec 49) : Option Nat :=
  ((List.range d.nblk).map (d.blk0 + ·)).find? (fun n => !snapv.getLsbD n)

/-- `FLD.DEC f`, up to its end (R204; log 19). -/
def fldDecRun (f : Nat) (s : State) : Run Result :=
  withDesc f s fun d =>
    match missingBlock d s.snapv with
    | some n => .raised .encodingFault (BitVec.ofNat 16 n) (fldId f) s
    | none => deliver d f (decodeField s.params d s.snap) s

/-- `FLD.ENC f`, up to its end: data, then mask (R205). -/
def fldEncRun (f : Nat) (s : State) : Run Result :=
  withDesc f s fun d => withEncoded f d s fun data mask => .ok { bytes := data ++ mask } s

/-- `FLD.RD` (R203). -/
def execFldRd (f : Nat) (s : State) : Host.Outcome State Fault Refusal := (fldRdRun f s).toOutcome

/-- `FLD.DEC` (R204). -/
def execFldDec (f : Nat) (s : State) : Host.Outcome State Fault Refusal := (fldDecRun f s).toOutcome

/-- `FLD.ENC` (R205). -/
def execFldEnc (f : Nat) (s : State) : Host.Outcome State Fault Refusal := (fldEncRun f s).toOutcome

end Sys2Proof.Machine
end

