-- ==== Sys2Proof/Machine/Aggregate.lean ====
section
/-! DEFINITION. The aggregate commands `CFG.READALL`, `CFG.MUTATE`, `CFG.ERASE` (44_aggregate.md). -/

namespace Sys2Proof.Machine

/-- Field `f` belongs to the view of blocks `bs`: it is defined and all its blocks are in the view (R232). -/
def memberDesc (p : Params) (bs : List Nat) (f : Nat) : Option Descriptor :=
  match desc p f with
  | some d => if ((List.range d.nblk).map (d.blk0 + ·)).all (fun n => bs.contains n) then some d else none
  | none => none

/-- The decode pass over the fields of a list: the first member whose strict table misses (R231). -/
def firstUnmapped (p : Params) (bs : List Nat) (img : Vector Block 49) : List Nat → Option (Nat × Descriptor)
  | [] => none
  | f :: fs =>
    match memberDesc p bs f with
    | some d => if decodeField p d img = .unmapped then some (f, d) else firstUnmapped p bs img fs
    | none => firstUnmapped p bs img fs

/-- `SNAP` with the view's blocks taken from `BUF`; the others keep what they hold (R231). -/
def snapTake (bs : List Nat) (buf snap : Vector Block 49) : Vector Block 49 :=
  Vector.ofFn (fun n => if bs.contains n.val then buf[n] else snap[n])

/-- The end of `CFG.READALL`, once every block of the view is in `BUF`: the decode pass, then the snapshot all at once
(R231, R237). -/
def takeSnapshot (bs : List Nat) (s : State) : Run Result :=
  match firstUnmapped s.params bs s.buf (List.range 255) with
  | some (f, d) => .raised .unknownBeaconType (BitVec.ofNat 16 d.blk0) (fldId f) s
  | none =>
    .ok { bytes := bs.flatMap (fun n => (imageAt s.buf n).toList) }
      { s with snap := snapTake bs s.buf s.snap, snapv := blockMask bs }

/-- `CFG.READALL v`, up to its end. The old snapshot is gone first; a block outside `SNAPV` holds a free value (R231, U4). -/
def readallRun (v : Nat) (s : State) : Run Result :=
  match view v with
  | none => .raised .encodingFault 0xFFFF 0xFF { s with snapv := 0, snap := snapFree s.fresh }
  | some bs =>
    (readBlocks .viewRead 0xFF bs 0 { s with snapv := 0, snap := snapFree s.fresh }).andThen fun _ s =>
    takeSnapshot bs s

/-- The read phase of a mutation: a block the mask covers only in part is read, a fully covered one is not; `j` counts
blocks, `i` exchanges (R233). -/
def readOld (blk0 : Nat) (fld : BitVec 8) : List Block → Nat → Nat → State → Run (List Block)
  | [], _, _, s => .ok [] s
  | m :: ms, j, i, s =>
    if m = Block.fill 0xFF#8 then
      (readOld blk0 fld ms (j + 1) i s).andThen fun bs s => .ok (Block.fill 0 :: bs) s
    else
      (readBlock (.pos .rmwRead i) (blk0 + j) fld s).andThen fun b s =>
      (readOld blk0 fld ms (j + 1) (i + 1) s).andThen fun bs s => .ok (b :: bs) s

/-- The writes of a mutation: block `j` of the field gets `(old & ~mask) | data` (R163, R233). -/
def newBlocks (blk0 : Nat) : List Block → List Block → List Block → List (Nat × Block)
  | o :: os, d :: ds, m :: ms => (blk0, Block.merge o d m) :: newBlocks (blk0 + 1) os ds ms
  | _, _, _ => []

/-- `CFG.MUTATE f`, up to its end (R233). -/
def mutateRun (f : Nat) (s : State) : Run Result :=
  withDesc f s fun d => withEncoded f d s fun data mask =>
    (readOld d.blk0 (fldId f) (cutBlocks mask) 0 0 s).andThen fun olds s =>
    (writeBlocks .write (fldId f) (newBlocks d.blk0 olds (cutBlocks data) (cutBlocks mask)) 0 s).andThen fun _ s =>
    (recompute (fldId f) s).andThen fun c s => .ok { resv := c.setWidth 64 } s

/-- `CFG.ERASE`, up to its end: fill, recompute, validate (R235). -/
def eraseRun (s : State) : Run Result :=
  (writeBlocks .write 0xFF ((List.range Config.cfgBlocks).map (fun n => (n, Block.fill 0xFF#8))) 0 s).andThen fun _ s =>
  (recompute 0xFF s).andThen fun _ s => validate s

/-- `CFG.READALL` (R231). -/
def execCfgReadall (v : Nat) (s : State) : Host.Outcome State Fault Refusal := (readallRun v s).toOutcome

/-- `CFG.MUTATE` (R233). -/
def execCfgMutate (f : Nat) (s : State) : Host.Outcome State Fault Refusal := (mutateRun f s).toOutcome

/-- `CFG.ERASE` (R235). -/
def execCfgErase (s : State) : Host.Outcome State Fault Refusal := (eraseRun s).toOutcome

end Sys2Proof.Machine
end

