-- ==== Sys2Proof/Machine/Transport.lean ====
section
/-! DEFINITION. The block transport commands `RDBLK`, `WRBLK`, `GETUID` (40_transport.md R124, R126, R128), and the three
tag commands as the tag executes them (30_encoding.md R95 to R97, 20_memory.md R65; log 9). -/

namespace Sys2Proof.Machine

/-- `RDBLK blk`, up to its end (R124; phase: log 11). -/
def rdblkRun (blk : Nat) (s : State) : Run Result :=
  (readBlock (.pos .fieldRead 0) blk 0xFF s).andThen fun d s => .ok { bytes := d.toList } s

/-- `WRBLK blk`, up to its end: the length of the operand is checked before the block index (R126; phase: log 11). A wrong
length records `FAULTBLK = blk`, as R126 and V103 have it, also for a block the tag has, where the table of
60_exceptions.md R251 has 0xFFFF: DESIGN CHOICE (log 24). -/
def wrblkRun (blk : Nat) (s : State) : Run Result :=
  if s.oplen ≠ 8 then .raised .encodingFault (BitVec.ofNat 16 blk) 0xFF s
  else
    (writeBlock (.pos .write 0) blk ⟨s.op[0], s.op[1], s.op[2], s.op[3]⟩ 0xFF s).andThen fun _ s => .ok {} s

/-- The length of a UID that `GETUID` delivers: at most 192, and `UID_LEN` where that is a number (R128). -/
def uidLengthOk (p : Params) (len : Nat) : Bool :=
  decide (len ≤ 192) && (match p.uidLen with
    | none => true
    | some n => decide (len = n))

/-- `GETUID`, up to its end (R128; phase: log 11). -/
def getuidRun (s : State) : Run Result :=
  (getUid (.pos .fieldRead 0) s).andThen fun u s =>
  if uidLengthOk s.params u.length then .ok { bytes := u } s else .raised .decodeFault 0xFFFF 0xFF s

/-- `RDBLK` (R124). -/
def execRdblk (blk : Nat) (s : State) : Host.Outcome State Fault Refusal := (rdblkRun blk s).toOutcome

/-- `WRBLK` (R126). -/
def execWrblk (blk : Nat) (s : State) : Host.Outcome State Fault Refusal := (wrblkRun blk s).toOutcome

/-- `GETUID` (R128). -/
def execGetuid (s : State) : Host.Outcome State Fault Refusal := (getuidRun s).toOutcome

/-! ### The tag's side of one exchange -/

/-- The tag command names a block of the tag, or none (R39, R60). -/
def tagCmdInRange : TagCmd → Bool
  | .read n => decide (n ≤ Config.maxBlock)
  | .write n _ => decide (n ≤ Config.maxBlock)
  | .getUid => true

/-- The environment's answer to the next exchange is that of the well-behaved tag (log 6). -/
def nextBehaved (s : State) : Bool :=
  match s.link with
  | [] => true
  | e :: _ => decide (e.outcome = .behaved)

/-- One exchange outside any operation: host accesses scheduled beside it wait in `inbox`, since the CFU is not busy with
it, and `SEQ` stays (log 9). -/
def tagExchange (c : TagCmd) (s : State) : Run Answer :=
  match s.link with
  | [] => settle c .behaved s
  | e :: es => settle c e.outcome { s with link := es, inbox := e.host.map .host ++ s.inbox }

/-- A tag command executed by the tag. A block the tag does not have stops the model, unless the environment's answer is
given (log 9). -/
def tagRun (c : TagCmd) (s : State) : Host.Outcome State Fault Refusal :=
  if !tagCmdInRange c && nextBehaved s then .fault .noSuchBlock else .next (tagExchange c s).after

/-- `APDU.READ n` (R95, R65). -/
def execApduRead (n : Nat) (s : State) : Host.Outcome State Fault Refusal := tagRun (.read n) s

/-- `APDU.WRITE n d` (R96, R65). -/
def execApduWrite (n : Nat) (d : Block) (s : State) : Host.Outcome State Fault Refusal := tagRun (.write n d) s

/-- `APDU.GETUID` (R97, R65). -/
def execApduGetuid (s : State) : Host.Outcome State Fault Refusal := tagRun .getUid s

end Sys2Proof.Machine
end

