-- ==== Sys2Proof/Machine/Dispatch.lean ====
section
/-! DEFINITION. The one dispatch from instruction to meaning. -/

namespace Sys2Proof.Machine

def exec (i : Instr) (s : State) : Host.Outcome State Fault Refusal :=
  match i with
  | .rdblk blk => Sys2Proof.Machine.execRdblk blk s
  | .wrblk blk => Sys2Proof.Machine.execWrblk blk s
  | .getuid => Sys2Proof.Machine.execGetuid s
  | .crcCompute => Sys2Proof.Machine.execCrcCompute s
  | .crcEnc => Sys2Proof.Machine.execCrcEnc s
  | .crcDec => Sys2Proof.Machine.execCrcDec s
  | .crcValidate => Sys2Proof.Machine.execCrcValidate s
  | .crcRecompute => Sys2Proof.Machine.execCrcRecompute s
  | .fldRd sel => Sys2Proof.Machine.execFldRd sel s
  | .fldDec sel => Sys2Proof.Machine.execFldDec sel s
  | .fldEnc sel => Sys2Proof.Machine.execFldEnc sel s
  | .cfgReadall sel => Sys2Proof.Machine.execCfgReadall sel s
  | .cfgMutate sel => Sys2Proof.Machine.execCfgMutate sel s
  | .cfgErase => Sys2Proof.Machine.execCfgErase s
  | .apduRead n => Sys2Proof.Machine.execApduRead n s
  | .apduWrite n d => Sys2Proof.Machine.execApduWrite n d s
  | .apduGetuid => Sys2Proof.Machine.execApduGetuid s

end Sys2Proof.Machine
end

