-- ==== Sys2Proof/Machine/Fetch.lean ====
section
/-! DEFINITION. What the machine does next: the CFU has no program counter and holds no program, the host's writes of `CMD`
start its operations (10_state.md R25, R31; log 10). -/

namespace Sys2Proof.Machine

/-- What comes next: an instruction to run, a state in which the event is already dealt with, or a refusal. -/
inductive Fetched where
  | run (i : Instr) (s : State)
  | done (s : State)
  | refuse (r : Refusal)
deriving DecidableEq, Repr

/-- A host write of `CMD`: ignored while `BUSY` (R44); else accepted, and an illegal word ends at once with
`EncodingFault(0xFFFF, 0xFF)` (R25, R94). -/
def fetchCmd (w : BitVec 32) (s : State) : Fetched :=
  if statusBusy s.status then .done s
  else
    match decodeCmd w with
    | .ok i => .run i (acceptCmd w s)
    | .error _ => .done (raiseFault .encodingFault 0xFFFF 0xFF (acceptCmd w s))

/-- The bytes of a tag command outside any operation (log 9). -/
def fetchWire (bs : List Byte) (s : State) : Fetched :=
  match decodeApdu bs with
  | .ok i => .run i s
  | .error _ => .refuse .notATagCommand

/-- A host access other than a write of `CMD`, with the rules of a running operation where `BUSY` is set (R44; log 18). -/
def hostAccess (a : HostAct) (s : State) : State :=
  if statusBusy s.status then hostBusy a s else hostIdle a s

/-- One event dealt with, already taken from `inbox`. -/
def fetchEvent (e : Event) (s : State) : Fetched :=
  match e with
  | .host (.write (.cmd w)) => fetchCmd w s
  | .host a => .done (hostAccess a s)
  | .reset => .done (resetPulse s)
  | .wire bs => fetchWire bs s

/-- The next event of `inbox`; with none the CFU does nothing (R285). -/
def fetch (s : State) : Fetched :=
  match s.inbox with
  | [] => .done s
  | e :: es => fetchEvent e { s with inbox := es }

/-- The state with the code of an instruction placed where the next step takes it from: the head of `inbox`, as a host
write of `CMD` with the CFU not busy, or as the bytes of a tag command (log 10, 17). -/
def placeCode (c : Code) (s : State) : State :=
  match c with
  | .cmd w =>
    { s with
      status := if statusBusy s.status then 0 else s.status
      inbox := .host (.write (.cmd w)) :: s.inbox }
  | .apdu bs => { s with inbox := .wire bs :: s.inbox }

end Sys2Proof.Machine
end

