-- ==== Sys2Proof/Safety.lean ====
section
/-! DEFINITION. What claims about the machine are stated in: views of a state, the ways an operation ends, what an
operation leaves unchanged, and the invariant of every step. -/

namespace Sys2Proof.Machine

/-! ### Views of a state -/

/-- `TAG[blk0] ++ ... ++ TAG[blk0+nblk-1]` (20_memory.md R66). -/
def tagCat (m : Memory) (blk0 nblk : Nat) : List Byte :=
  (List.range nblk).flatMap (fun j => (m.blockAt (blk0 + j)).toList)

/-- The configuration region, the 192 bytes of blocks 0 to 47 (R66). -/
def region (m : Memory) : List Byte := tagCat m 0 48

/-- The stored CRC is current: `dec_store(TAG[48]) = crc16(TAG[0] ++ ... ++ TAG[47])` (R71). -/
def StoredCrcCurrent (m : Memory) : Prop := decStore (m.blockAt 48) = crc16 (region m)

/-- The valid bytes of `RES`, `RES[0..ceil(RESLEN/2)]` (10_state.md R24). -/
def resBytes (s : State) : List Byte := s.res.toList.take ((s.reslen.toNat + 1) / 2)

/-- The command bytes of the exchanges made so far, newest first. -/
def sent (s : State) : List (List Byte) := s.trace.map (·.cmd)

/-- The read commands of a list of blocks, newest first. -/
def readsOf (ns : List Nat) : List (List Byte) := (ns.map (fun n => (TagCmd.read n).bytes)).reverse

/-- The instruction is one of the 14 host commands (30_encoding.md R92). -/
def Instr.isHostCommand : Instr → Bool
  | .apduRead _ | .apduWrite _ _ | .apduGetuid => false
  | _ => true

/-- No reset falls in a coming exchange (70_reset_and_hazards.md R283). -/
def NoReset (s : State) : Prop :=
  ∀ e ∈ s.link, e.outcome ≠ .resetBefore ∧ ∀ fate, e.outcome ≠ .resetDuring fate

/-- The answer carries the status word 90 00 (30_encoding.md R99). -/
def Answered (y : Answer) : Prop := ∃ data, y = .resp (data ++ [0x90#8, 0x00#8])

/-! ### How an operation ends -/

/-- `exec` answers a next state, and it is as `P` says. -/
def Completes (i : Instr) (s : State) (P : State → Prop) : Prop := ∃ t, exec i s = .next t ∧ P t

/-- A normal end: no fault recorded, `DONE` set, `CRCOK` and `UNK` as given (10_state.md R34, R43). -/
def NormalEnd (t : State) (crcok unk : Bool) : Prop :=
  t.status = mkStatus false true false crcok unk ∧
  t.faultcode = 0 ∧ t.faultblk = 0xFFFF ∧ t.faultfld = 0xFF ∧ t.seq = .idle

/-- A faulted end with the given record and `RESV` (60_exceptions.md R256). -/
def FaultedEnd (t : State) (code : BitVec 8) (blk : BitVec 16) (fld : BitVec 8) (resv : BitVec 64) : Prop :=
  t.status = 0x00000006#32 ∧ t.faultcode = code ∧ t.faultblk = blk ∧ t.faultfld = fld ∧
  t.resv = resv ∧ t.reslen = 0 ∧ t.seq = .idle

/-- Every register whose reset value the spec gives holds it (10_state.md R42). -/
def AtReset (t : State) : Prop :=
  t.cmd = 0 ∧ t.status = 0 ∧ t.faultcode = 0 ∧ t.faultblk = 0xFFFF ∧ t.faultfld = 0xFF ∧
  t.crcexp = 0 ∧ t.crcact = 0 ∧ t.crcreg = 0xFFFF ∧ t.opv = 0 ∧ t.oplen = 0 ∧ t.resv = 0 ∧ t.reslen = 0 ∧
  t.snapv = 0 ∧ t.seq = .idle

/-! ### What an operation leaves unchanged -/

/-- The command and the operand registers (10_state.md R22, R23, R30: no operation writes them). -/
def OperandsKept (s t : State) : Prop := t.cmd = s.cmd ∧ t.opv = s.opv ∧ t.oplen = s.oplen ∧ t.op = s.op

/-- What is not the CFU's: the UID, the parameters, the host's pending events (R39, R40). -/
def OutsideKept (s t : State) : Prop := t.uid = s.uid ∧ t.params = s.params ∧ t.inbox = s.inbox

/-- The snapshot (R33, 44_aggregate.md R237). -/
def SnapshotKept (s t : State) : Prop := t.snap = s.snap ∧ t.snapv = s.snapv

/-- The pair of compared CRCs (R28). -/
def CrcPairKept (s t : State) : Prop := t.crcexp = s.crcexp ∧ t.crcact = s.crcact

/-- Every byte of the tag. -/
def TagKept (s t : State) : Prop := ∀ a, t.tag.byteAt a = s.tag.byteAt a

/-- Every byte of the tag outside the given blocks. -/
def TagKeptBut (ns : List Nat) (s t : State) : Prop := ∀ a, a / 4 ∉ ns → t.tag.byteAt a = s.tag.byteAt a

/-- The frame of an operation that writes only its result, its status and its fault record. -/
def OnlyResult (s t : State) : Prop :=
  OperandsKept s t ∧ OutsideKept s t ∧ SnapshotKept s t ∧ CrcPairKept s t ∧ t.crcreg = s.crcreg

/-! ### The invariant of every step -/

/-- Tag memory is in canonical form and lists only bytes the tag has (R39). -/
def TagInv (s : State) : Prop := Memory.wf s.tag = true ∧ Memory.inTag s.tag = true

/-- Between steps no operation runs; reserved bits read as 0; `FAULT` says that a fault is recorded, and a code above 5 is
never produced; `CRCOK` says that the two CRCs agree (R26, R27, R28, R31, 60_exceptions.md R251). -/
def StatusInv (s : State) : Prop :=
  statusReserved s.status = 0 ∧ statusBusy s.status = false ∧ s.seq = .idle ∧
  (statusFault s.status = true ↔ s.faultcode ≠ 0) ∧ s.faultcode.toNat ≤ 5 ∧
  (statusDone s.status = false → s.faultcode = 0) ∧
  (statusCrcok s.status = true → s.crcexp = s.crcact)

/-- `SNAPV` is empty or one of the two views, so bit 48 is never set (R33, R38). -/
def SnapshotInv (s : State) : Prop := s.snapv = 0 ∨ s.snapv = 0xFF00 ∨ s.snapv = 0xFF38E380

/-- Every field whose blocks are all in the snapshot decodes there: no strict table misses (43_field_ops.md R204). -/
def SnapshotDecodes (s : State) : Prop :=
  ∀ (f : Nat) (d : Descriptor), desc s.params f = some d →
    (∀ j < d.nblk, s.snapv.getLsbD (d.blk0 + j) = true) → decodeField s.params d s.snap ≠ .unmapped

/-- `RESLEN` counts whole bytes and fits the result buffer (R24). -/
def ResultInv (s : State) : Prop := s.reslen.toNat ≤ 384 ∧ s.reslen.toNat % 2 = 0

/-- What every step keeps. -/
def Inv (s : State) : Prop := TagInv s ∧ StatusInv s ∧ SnapshotInv s ∧ SnapshotDecodes s ∧ ResultInv s

end Sys2Proof.Machine
end

