-- ==== Sys2Proof/Certificates/Slice0/Obligations.lean ====
section
/-! DEFINITION. The statements about the model, one `Prop` each; `OBLIGATIONS.json` lists them with the rules of the spec
they rest on. -/

open Sys2Proof Sys2Proof.Machine

/-! ### Encoding -/

/-- 30_encoding.md R90 to R98: no bit of an encoding is dropped. -/
def Obligations.DecodeEncodeRoundTrip : Prop :=
  ∀ i : Instr, i.wellFormed = true → decode (encode i) = .ok i

/-- 30_encoding.md R91 to R97: each code that decodes has one meaning, and decodes to an instruction with an encoding. -/
def Obligations.EncodeDecodeRoundTrip : Prop :=
  ∀ (c : Code) (i : Instr), decode c = .ok i → i.wellFormed = true ∧ encode i = c

/-- 30_encoding.md R92, R94: the decoder reads the opcode map as printed; every word selects at most one row, and a word is
illegal exactly when it selects none. -/
def Obligations.OpcodeMapIsTheDecoder : Prop :=
  ∀ w : BitVec 32,
    (opRows.filter (fun r => r.selects w)).map (·.mnemonic) =
      match decodeCmd w with
      | .ok i => [i.mnemonic]
      | .error _ => []

/-- 30_encoding.md R95 to R97, R103: the words and byte strings the spec writes out. -/
def Obligations.SpecWordsDecode : Prop :=
  decodeCmd 0x0100000B#32 = .ok (.rdblk 11) ∧ decodeCmd 0x0200000C#32 = .ok (.wrblk 12) ∧
  decodeCmd 0x03000000#32 = .ok .getuid ∧ decodeCmd 0x14000000#32 = .ok .crcRecompute ∧
  decodeCmd 0x20020000#32 = .ok (.fldRd 2) ∧ decodeCmd 0x30000000#32 = .ok (.cfgReadall 0) ∧
  decodeCmd 0x31020000#32 = .ok (.cfgMutate 2) ∧ decodeCmd 0x32000000#32 = .ok .cfgErase ∧
  decodeApdu [0xFF#8, 0xB0#8, 0x00#8, 0x0B#8, 0x04#8] = .ok (.apduRead 11) ∧
  decodeApdu [0xFF#8, 0xD6#8, 0x00#8, 0x0C#8, 0x04#8, 0x00#8, 0x00#8, 0x0D#8, 0x27#8] =
    .ok (.apduWrite 12 ⟨0x00#8, 0x00#8, 0x0D#8, 0x27#8⟩)

/-- 30_encoding.md R95, R96, R97: the bytes of the tag commands, for every block number of 16 bits. -/
def Obligations.TagCommandBytes : Prop :=
  ∀ (n : Nat) (d : Block), n < 65536 → ∃ hi lo : Byte,
    hi.toNat = n / 256 ∧ lo.toNat = n % 256 ∧
    TagCmd.bytes (.read n) = [0xFF#8, 0xB0#8, hi, lo, 0x04#8] ∧
    TagCmd.bytes (.write n d) = [0xFF#8, 0xD6#8, hi, lo, 0x04#8, d.b0, d.b1, d.b2, d.b3] ∧
    TagCmd.bytes .getUid = [0xFF#8, 0xCA#8, 0x00#8, 0x00#8, 0x00#8]

/-! ### One step -/

/-- 10_state.md R25, R34: a step runs the instruction that was decoded, on the state in which the host's write was accepted
(`CMD` stored, `BUSY` alone set). A raw tag command runs on the state as it is: the model's own event (log 9). -/
def Obligations.StepRunsDecodedInstruction : Prop :=
  ∀ (s : State) (es : List Event) (i : Instr),
    (∀ w, s.inbox = .host (.write (.cmd w)) :: es → statusBusy s.status = false → decode (.cmd w) = .ok i →
      step s = exec i { s with inbox := es, cmd := w, status := 0x00000001#32, seq := .pos .check 0 }) ∧
    (∀ bs, s.inbox = .wire bs :: es → decode (.apdu bs) = .ok i → step s = exec i { s with inbox := es })

/-- 30_encoding.md R94: a word that selects no row of the opcode map is accepted, makes no exchange, and ends at once with
EncodingFault(0xFFFF, 0xFF). -/
def Obligations.IllegalWordRaisesEncodingFault : Prop :=
  ∀ (s : State) (es : List Event) (w : BitVec 32),
    s.inbox = .host (.write (.cmd w)) :: es → statusBusy s.status = false → (∀ r ∈ opRows, r.selects w = false) →
    ∃ t, step s = .next t ∧ FaultedEnd t 2 0xFFFF 0xFF 0 ∧ t.cmd = w ∧
      t.opv = s.opv ∧ t.oplen = s.oplen ∧ t.op = s.op ∧ SnapshotKept s t ∧ CrcPairKept s t ∧ t.crcreg = s.crcreg ∧
      t.uid = s.uid ∧ t.params = s.params ∧ t.inbox = es ∧ t.link = s.link ∧ sent t = sent s ∧ TagKept s t

/-- 10_state.md R44: while BUSY a host write is ignored, and a read of STATUS, CMD, OPV, OPLEN or OP returns the register;
any other read returns a value of which nothing is said. The first clause is about states with BUSY set at the boundary of a
step, which no run reaches (log 18); the second is about `hostBusyAll`, by which `transmit` applies the host accesses made
beside an exchange in flight: what the host holds after them is what its last read returned. -/
def Obligations.HostAccessWhileBusy : Prop :=
  (∀ (s : State) (es : List Event) (a : HostAct),
    s.inbox = .host a :: es → statusBusy s.status = true →
    ∃ v c, step s = .next { s with inbox := es, hostRd := v, fresh := c } ∧
      (∀ w, a = .write w → v = s.hostRd) ∧
      (∀ r, a = .read r → r.trueWhileBusy = true → v = regValue s r)) ∧
  (∀ (s : State) (as : List HostAct),
    (∃ v c, hostBusyAll as s = { s with hostRd := v, fresh := c }) ∧
    ((∀ a ∈ as, ∃ w, a = .write w) → hostBusyAll as s = s) ∧
    (∀ before after r, as = before ++ .read r :: after → (∀ a ∈ after, ∃ w, a = .write w) → r.trueWhileBusy = true →
      (hostBusyAll as s).hostRd = regValue s r))

/-- 10_state.md R22, R23, R30; 93_implementation_defined.md U26: while no operation runs a host write sets the register it
names and no other, a write of a read-only register is ignored, a read returns the register; with nothing to come the machine
stays as it is (R285). -/
def Obligations.HostAccessWhileIdle : Prop :=
  ∀ (s : State) (es : List Event), statusBusy s.status = false →
    (∀ v, s.inbox = .host (.write (.opv v)) :: es → step s = .next { s with inbox := es, opv := v }) ∧
    (∀ n, s.inbox = .host (.write (.oplen n)) :: es → step s = .next { s with inbox := es, oplen := n }) ∧
    (∀ k b, s.inbox = .host (.write (.op k b)) :: es →
      ∃ o, step s = .next { s with inbox := es, op := o } ∧ o[k] = b ∧ ∀ j : Fin 192, j ≠ k → o[j] = s.op[j]) ∧
    (∀ r, s.inbox = .host (.write (.readOnly r)) :: es → step s = .next { s with inbox := es }) ∧
    (∀ r, s.inbox = .host (.read r) :: es → step s = .next { s with inbox := es, hostRd := regValue s r }) ∧
    (s.inbox = [] → step s = .next s)

/-- 10_state.md R42, 70_reset_and_hazards.md R281, R282: after reset, and after a pulse of the reset input in any state, every
register whose reset value is stated holds it; the pulse leaves the tag and the UID. -/
def Obligations.ResetGivesTheResetValues : Prop :=
  AtReset State.reset ∧
  ∀ (s : State) (es : List Event), s.inbox = .reset :: es →
    ∃ t, step s = .next t ∧ AtReset t ∧ t.tag = s.tag ∧ t.uid = s.uid ∧ t.params = s.params ∧ t.inbox = es ∧
      t.link = s.link ∧ t.trace = s.trace

/-! ### Block transport -/

/-- 40_transport.md R124, with the well-behaved tag of 20_memory.md R65. -/
def Obligations.RdblkDeliversTheBlock : Prop :=
  ∀ (s : State) (blk : Nat), s.link = [] → blk ≤ 48 →
    Completes (.rdblk blk) s fun t =>
      NormalEnd t false false ∧ resBytes t = (s.tag.blockAt blk).toList ∧ t.reslen = 8 ∧ t.resv = 0 ∧
      sent t = TagCmd.bytes (.read blk) :: sent s ∧ OnlyResult s t ∧ TagKept s t

/-- 40_transport.md R122, R123, R124: a block read for every answer of the environment. -/
def Obligations.RdblkByAnswer : Prop :=
  ∀ (s : State) (es : List LinkEvent) (y : Answer) (fate : WriteFate) (blk : Nat),
    s.link = ⟨[], .answers y fate⟩ :: es → blk ≤ 48 →
    Completes (.rdblk blk) s fun t =>
      (∀ data, y = .resp (data ++ [0x90#8, 0x00#8]) → data.length = 4 →
        NormalEnd t false false ∧ resBytes t = data ∧ t.reslen = 8 ∧ t.resv = 0) ∧
      (∀ data, y = .resp (data ++ [0x90#8, 0x00#8]) → data.length ≠ 4 →
        FaultedEnd t 3 (BitVec.ofNat 16 blk) 0xFF 0) ∧
      (¬Answered y → FaultedEnd t 1 (BitVec.ofNat 16 blk) 0xFF 0) ∧
      sent t = TagCmd.bytes (.read blk) :: sent s ∧ OnlyResult s t ∧ TagKept s t

/-- 40_transport.md R121, R126: a block index above 48, or a WRBLK operand that is not 8 digits, raises EncodingFault with
no exchange. That FAULTBLK is the block for an operand of wrong length and a block of at most 48 is the model's choice of R126
over the table of 60_exceptions.md R251 (log 24). -/
def Obligations.BlockCommandsRefuseBadOperands : Prop :=
  ∀ (s : State) (blk : Nat), blk < 65536 →
    (48 < blk → Completes (.rdblk blk) s fun t =>
      FaultedEnd t 2 (BitVec.ofNat 16 blk) 0xFF 0 ∧ sent t = sent s ∧ OnlyResult s t ∧ TagKept s t) ∧
    (48 < blk ∨ s.oplen ≠ 8 → Completes (.wrblk blk) s fun t =>
      FaultedEnd t 2 (BitVec.ofNat 16 blk) 0xFF 0 ∧ sent t = sent s ∧ OnlyResult s t ∧ TagKept s t)

/-- 40_transport.md R126, 20_memory.md R62, with the well-behaved tag of R65: all 4 bytes of the block are replaced, and no
other byte of the tag, the stored CRC among them. -/
def Obligations.WrblkWritesTheBlock : Prop :=
  ∀ (s : State) (blk : Nat), s.link = [] → Memory.wf s.tag = true → s.oplen = 8 → blk ≤ 48 →
    Completes (.wrblk blk) s fun t =>
      NormalEnd t false false ∧ t.resv = 0 ∧ t.reslen = 0 ∧
      (t.tag.blockAt blk).toList = s.op.toList.take 4 ∧ TagKeptBut [blk] s t ∧
      sent t = TagCmd.bytes (.write blk ⟨s.op[0], s.op[1], s.op[2], s.op[3]⟩) :: sent s ∧ OnlyResult s t

/-- 40_transport.md R125, 20_memory.md R77: a block write for every answer of the environment; after one that does not
succeed the block holds its old value or the payload, where TORN_WRITE is old_or_new. -/
def Obligations.WrblkByAnswer : Prop :=
  ∀ (s : State) (es : List LinkEvent) (y : Answer) (fate : WriteFate) (blk : Nat),
    s.link = ⟨[], .answers y fate⟩ :: es → Memory.wf s.tag = true → s.oplen = 8 → blk ≤ 48 →
    Completes (.wrblk blk) s fun t =>
      (Answered y → NormalEnd t false false ∧ t.resv = 0 ∧ t.reslen = 0 ∧
        (t.tag.blockAt blk).toList = s.op.toList.take 4) ∧
      (¬Answered y → FaultedEnd t 1 (BitVec.ofNat 16 blk) 0xFF 0 ∧
        (s.params.tornWrite = .oldOrNew →
          t.tag.blockAt blk = s.tag.blockAt blk ∨ (t.tag.blockAt blk).toList = s.op.toList.take 4)) ∧
      TagKeptBut [blk] s t ∧ OnlyResult s t

/-- 40_transport.md R127, R128: the data of the answer is delivered at any length that fits and that UID_LEN allows, another
length is a DecodeFault, and no status word 90 00 a TransportFault. `y` is the environment's answer, or that of the
well-behaved tag of 20_memory.md R65. -/
def Obligations.GetuidByAnswer : Prop :=
  ∀ (s : State) (y : Answer),
    (s.link = [] ∧ y = .resp (s.uid ++ [0x90#8, 0x00#8]) ∨ ∃ fate es, s.link = ⟨[], .answers y fate⟩ :: es) →
    Completes .getuid s fun t =>
      (∀ data, y = .resp (data ++ [0x90#8, 0x00#8]) →
        data.length ≤ 192 ∧ (∀ n, s.params.uidLen = some n → data.length = n) →
        NormalEnd t false false ∧ resBytes t = data ∧ t.reslen.toNat = 2 * data.length ∧ t.resv = 0) ∧
      (∀ data, y = .resp (data ++ [0x90#8, 0x00#8]) →
        192 < data.length ∨ (∃ n, s.params.uidLen = some n ∧ data.length ≠ n) → FaultedEnd t 3 0xFFFF 0xFF 0) ∧
      (¬Answered y → FaultedEnd t 1 0xFFFF 0xFF 0) ∧
      sent t = [0xFF#8, 0xCA#8, 0x00#8, 0x00#8, 0x00#8] :: sent s ∧ OnlyResult s t ∧ TagKept s t

/-! ### The tag commands, executed by the tag -/

/-- 20_memory.md R65: the well-behaved tag; a read and get-UID leave it as it is, a write stores the payload. The CFU's
registers stay (log 9). -/
def Obligations.TagExecutesItsCommands : Prop :=
  ∀ (s : State) (n : Nat) (d : Block), s.link = [] → Memory.wf s.tag = true → n ≤ 48 →
    (Completes (.apduRead n) s fun t =>
      t = { s with trace := ⟨s.seq, TagCmd.bytes (.read n), some (.resp ((s.tag.blockAt n).toList ++ [0x90#8, 0x00#8]))⟩
                              :: s.trace }) ∧
    (Completes (.apduWrite n d) s fun t =>
      t = { s with tag := t.tag
                   trace := ⟨s.seq, TagCmd.bytes (.write n d), some (.resp [0x90#8, 0x00#8])⟩ :: s.trace } ∧
      t.tag.blockAt n = d ∧ TagKeptBut [n] s t) ∧
    (Completes .apduGetuid s fun t =>
      t = { s with trace := ⟨s.seq, TagCmd.bytes .getUid, some (.resp (s.uid ++ [0x90#8, 0x00#8]))⟩ :: s.trace })

/-- 20_memory.md R60, R64: the tag has no block above 48, so a raw command that names one stops the model, unless the
environment's answer is given (log 9: the model's choice of a stop). -/
def Obligations.TagCommandBeyondBlock48 : Prop :=
  ∀ (s : State) (n : Nat) (d : Block), 48 < n →
    (s.link = [] → exec (.apduRead n) s = .fault .noSuchBlock ∧ exec (.apduWrite n d) s = .fault .noSuchBlock) ∧
    (∀ y fate es, s.link = ⟨[], .answers y fate⟩ :: es →
      (Completes (.apduRead n) s fun t => t.tag = s.tag ∧ sent t = TagCmd.bytes (.read n) :: sent s) ∧
      (Completes (.apduWrite n d) s fun t => t.tag = s.tag ∧ sent t = TagCmd.bytes (.write n d) :: sent s))

/-! ### The CRC engine -/

/-- 41_crc.md R141, R142 at the values of 95_test_vectors.md V20 to V22. The bit-by-bit step of R142 and the value 0x29B1 of
123456789, which confirms it, are general knowledge by the spec's own mark, not in the source; the model takes them (log 23). -/
def Obligations.CrcCheckValues : Prop :=
  crcByte 0xFFFF#16 0x31#8 = 0xC782#16 ∧ crc16 [] = 0xFFFF#16 ∧ crc16 [0x00#8] = 0xE1F0#16 ∧
  crc16 [0x31#8, 0x32#8, 0x33#8, 0x34#8, 0x35#8, 0x36#8, 0x37#8, 0x38#8, 0x39#8] = 0x29B1#16 ∧
  crc16 (List.replicate 192 0xFF#8) = 0x12C3#16

/-- 41_crc.md R153 (a passage the spec marks as general knowledge): the CRC detects every change confined to one byte. -/
def Obligations.CrcDetectsEveryByteChange : Prop :=
  ∀ (before after : List Byte) (a b : Byte), a ≠ b → crc16 (before ++ a :: after) ≠ crc16 (before ++ b :: after)

/-- 41_crc.md R145: the storage encoding round trip, and the blocks on which the other direction holds. -/
def Obligations.StoredCrcRoundTrip : Prop :=
  (∀ c : BitVec 16, decStore (encStore c) = c) ∧
  (∀ b : Block, encStore (decStore b) = b ↔ b.b2 = 0 ∧ b.b3 = 0)

/-- 41_crc.md R146. -/
def Obligations.CrcComputeResult : Prop :=
  ∀ s : State,
    Completes .crcCompute s fun t =>
      (s.oplen = 384 →
        NormalEnd t false false ∧ t.crcreg = crc16 s.op.toList ∧ t.resv.toNat = (crc16 s.op.toList).toNat ∧ t.reslen = 0) ∧
      (s.oplen ≠ 384 → FaultedEnd t 2 0xFFFF 0xFF 0 ∧ t.crcreg = s.crcreg) ∧
      sent t = sent s ∧ OperandsKept s t ∧ OutsideKept s t ∧ SnapshotKept s t ∧ CrcPairKept s t ∧ TagKept s t

/-- 41_crc.md R147: low byte first, two zero bytes after. -/
def Obligations.CrcEncResult : Prop :=
  ∀ s : State,
    Completes .crcEnc s fun t =>
      (0 ≤ s.opv.toInt ∧ s.opv.toInt ≤ 0xFFFF →
        NormalEnd t false false ∧ t.resv = 0 ∧ t.reslen = 8 ∧
        (resBytes t).map (·.toNat) = [s.opv.toNat % 256, s.opv.toNat / 256, 0, 0]) ∧
      (s.opv.toInt < 0 ∨ 0xFFFF < s.opv.toInt → FaultedEnd t 2 0xFFFF 0xFF 0) ∧
      sent t = sent s ∧ OnlyResult s t ∧ TagKept s t

/-- 41_crc.md R148: bytes 2 and 3 are ignored. -/
def Obligations.CrcDecResult : Prop :=
  ∀ s : State,
    Completes .crcDec s fun t =>
      (s.oplen = 8 → NormalEnd t false false ∧ t.reslen = 0 ∧ t.resv.toNat = s.op[0].toNat + 256 * s.op[1].toNat) ∧
      (s.oplen ≠ 8 → FaultedEnd t 2 0xFFFF 0xFF 0) ∧
      sent t = sent s ∧ OnlyResult s t ∧ TagKept s t

/-- 41_crc.md R150, 60_exceptions.md R255, with the well-behaved tag of 20_memory.md R65: CRCOK exactly when the stored CRC
is current; else CrcMismatch, with the values compared and the computed CRC in RESV; nothing is written. -/
def Obligations.ValidateComparesTheCrcs : Prop :=
  ∀ s : State, s.link = [] →
    Completes .crcValidate s fun t =>
      t.crcreg = crc16 (region s.tag) ∧ t.crcexp = crc16 (region s.tag) ∧ t.crcact = decStore (s.tag.blockAt 48) ∧
      t.resv = (crc16 (region s.tag)).setWidth 64 ∧ t.reslen = 0 ∧
      (StoredCrcCurrent s.tag → NormalEnd t true false) ∧
      (¬StoredCrcCurrent s.tag → FaultedEnd t 4 48 0xFF t.resv) ∧
      sent t = readsOf (List.range 49) ++ sent s ∧
      OperandsKept s t ∧ OutsideKept s t ∧ SnapshotKept s t ∧ TagKept s t

/-- 41_crc.md R149, 43_field_ops.md R202, 60_exceptions.md R260: the first read that fails, or whose data is not 4 bytes, ends
the operation; no later block is read; the CRC registers keep their values. `ns` is the operation's list of reads. -/
def Obligations.ReadsStopAtTheFirstFailure : Prop :=
  ∀ (s : State) (i : Instr) (ns : List Nat) (fld : BitVec 8) (k blk : Nat) (y : Answer) (fate : WriteFate)
    (es : List LinkEvent),
    (i = .crcValidate ∧ ns = List.range 49 ∧ fld = 0xFF ∨
     i = .crcRecompute ∧ ns = List.range 48 ∧ fld = 0xFF ∨
     (∃ v, i = .cfgReadall v ∧ view v = some ns ∧ fld = 0xFF) ∨
     (∃ f d, i = .fldRd f ∧ desc s.params f = some d ∧ ns = (List.range d.nblk).map (d.blk0 + ·) ∧
       fld = BitVec.ofNat 8 f)) →
    ns[k]? = some blk → (∀ data, y = .resp (data ++ [0x90#8, 0x00#8]) → data.length ≠ 4) →
    s.link = List.replicate k ⟨[], .behaved⟩ ++ ⟨[], .answers y fate⟩ :: es →
    Completes i s fun t =>
      (¬Answered y → FaultedEnd t 1 (BitVec.ofNat 16 blk) fld 0) ∧
      (Answered y → FaultedEnd t 3 (BitVec.ofNat 16 blk) fld 0) ∧
      sent t = readsOf (ns.take (k + 1)) ++ sent s ∧ t.link = es ∧
      OperandsKept s t ∧ OutsideKept s t ∧ CrcPairKept s t ∧ t.crcreg = s.crcreg ∧ TagKept s t ∧
      ((∀ v, i ≠ .cfgReadall v) → SnapshotKept s t) ∧ ((∃ v, i = .cfgReadall v) → t.snapv = 0)

/-- 41_crc.md R151, with the well-behaved tag of 20_memory.md R65: block 48 gets the encoded CRC of the region, and no other
byte of the tag changes. -/
def Obligations.RecomputeStampsBlock48 : Prop :=
  ∀ s : State, s.link = [] → Memory.wf s.tag = true →
    Completes .crcRecompute s fun t =>
      NormalEnd t false false ∧ t.crcreg = crc16 (region s.tag) ∧ t.resv = (crc16 (region s.tag)).setWidth 64 ∧
      t.reslen = 0 ∧ t.tag.blockAt 48 = encStore (crc16 (region s.tag)) ∧ TagKeptBut [48] s t ∧ StoredCrcCurrent t.tag ∧
      sent t = TagCmd.bytes (.write 48 (encStore (crc16 (region s.tag)))) :: (readsOf (List.range 48) ++ sent s) ∧
      OperandsKept s t ∧ OutsideKept s t ∧ SnapshotKept s t ∧ CrcPairKept s t

/-- 41_crc.md R152: a validation right after a recompute that ended normally succeeds, whatever the blocks hold. -/
def Obligations.ValidateSucceedsAfterRecompute : Prop :=
  ∀ (s t u : State) (w : BitVec 32), s.link = [] → Memory.wf s.tag = true →
    exec .crcRecompute s = .next t → exec .crcValidate (acceptCmd w t) = .next u →
    NormalEnd u true false ∧ u.crcexp = u.crcact

/-! ### Fields -/

/-- 43_field_ops.md R200, R203, with the well-behaved tag of 20_memory.md R65: the field's decode rule applied to the blocks
just read, one exchange per block, ascending; the miss of a strict table raises UnknownBeaconType and delivers nothing. -/
def Obligations.FldRdDeliversTheField : Prop :=
  ∀ (s : State) (f : Nat) (d : Descriptor), s.link = [] → desc s.params f = some d →
    Completes (.fldRd f) s fun t =>
      (∀ v unk, decodeBytes s.params d (tagCat s.tag d.blk0 d.nblk) = .num v unk →
        NormalEnd t false unk ∧ t.resv = BitVec.ofInt 64 v ∧ t.reslen = 0) ∧
      (∀ bs, decodeBytes s.params d (tagCat s.tag d.blk0 d.nblk) = .bytes bs →
        NormalEnd t false false ∧ resBytes t = bs ∧ t.reslen.toNat = 2 * bs.length ∧ t.resv = 0) ∧
      (decodeBytes s.params d (tagCat s.tag d.blk0 d.nblk) = .unmapped →
        FaultedEnd t 5 (BitVec.ofNat 16 d.blk0) (BitVec.ofNat 8 f) 0) ∧
      sent t = readsOf ((List.range d.nblk).map (d.blk0 + ·)) ++ sent s ∧ OnlyResult s t ∧ TagKept s t

/-- 43_field_ops.md R208, R209: the 8 octets of blocks 11 and 12, under two names. -/
def Obligations.FldRdDevEui : Prop :=
  ∀ (s : State) (f : Nat), s.link = [] → f = 2 ∨ f = 3 →
    Completes (.fldRd f) s fun t =>
      NormalEnd t false false ∧ t.reslen = 16 ∧
      resBytes t = (s.tag.blockAt 11).toList ++ (s.tag.blockAt 12).toList ∧
      sent t = TagCmd.bytes (.read 12) :: TagCmd.bytes (.read 11) :: sent s ∧ OnlyResult s t ∧ TagKept s t

/-- 42_codec_transforms.md R187: an unmapped code of a table that is not strict is delivered with UNK set and is no fault;
of the strict table it raises UnknownBeaconType. The code is a byte (`ENUMB`) or a digit (`ENUMN`). -/
def Obligations.UnmappedCodesAreFatalOnlyInTheStrictTable : Prop :=
  ∀ (s : State) (f : Nat) (d : Descriptor) (code : Byte), s.link = [] → desc s.params f = some d →
    d.kind = .enumb ∧ code = (tagCat s.tag d.blk0 d.nblk).getD d.off 0 ∨
    d.kind = .enumn ∧ code = digit (tagCat s.tag d.blk0 d.nblk) d.off →
    mapped s.params d.tbl code = false →
    Completes (.fldRd f) s fun t =>
      (d.strict = false → NormalEnd t false true ∧ t.resv.toNat = code.toNat ∧ t.reslen = 0) ∧
      (d.strict = true → FaultedEnd t 5 (BitVec.ofNat 16 d.blk0) (BitVec.ofNat 8 f) 0) ∧
      OnlyResult s t ∧ TagKept s t

/-- 43_field_ops.md R201: an undefined field id, 0xFF among them, raises EncodingFault(0xFFFF, f) before any exchange. -/
def Obligations.UndefinedFieldRaises : Prop :=
  ∀ (s : State) (f : Nat), f = 0xFF ∨ desc s.params f = none →
    ∀ i ∈ [Instr.fldRd f, Instr.fldDec f, Instr.fldEnc f, Instr.cfgMutate f],
      Completes i s fun t =>
        FaultedEnd t 2 0xFFFF (BitVec.ofNat 8 f) 0 ∧ sent t = sent s ∧ OnlyResult s t ∧ TagKept s t

/-- 43_field_ops.md R204: FLD.DEC decodes the snapshot, with no exchange; a field with a block outside it raises
EncodingFault with the first such block. -/
def Obligations.FldDecDecodesTheSnapshot : Prop :=
  ∀ (s : State) (f : Nat) (d : Descriptor), desc s.params f = some d →
    Completes (.fldDec f) s fun t =>
      ((∀ j < d.nblk, s.snapv.getLsbD (d.blk0 + j) = true) →
        (∀ v unk, decodeField s.params d s.snap = .num v unk →
          NormalEnd t false unk ∧ t.resv = BitVec.ofInt 64 v ∧ t.reslen = 0) ∧
        (∀ bs, decodeField s.params d s.snap = .bytes bs →
          NormalEnd t false false ∧ resBytes t = bs ∧ t.reslen.toNat = 2 * bs.length ∧ t.resv = 0)) ∧
      (∀ j < d.nblk, s.snapv.getLsbD (d.blk0 + j) = false → (∀ k < j, s.snapv.getLsbD (d.blk0 + k) = true) →
        FaultedEnd t 2 (BitVec.ofNat 16 (d.blk0 + j)) (BitVec.ofNat 8 f) 0) ∧
      sent t = sent s ∧ OnlyResult s t ∧ TagKept s t

/-- 43_field_ops.md R204: the result is a function of SNAP, SNAPV and f alone (and of the parameters, which no step
changes); so FLD.DEC shows nothing of the tag as it now is. -/
def Obligations.FldDecDependsOnTheSnapshotOnly : Prop :=
  ∀ (s s' t t' : State) (f : Nat), s.snap = s'.snap → s.snapv = s'.snapv → s.params = s'.params →
    exec (.fldDec f) s = .next t → exec (.fldDec f) s' = .next t' →
    t.resv = t'.resv ∧ t.reslen = t'.reslen ∧ resBytes t = resBytes t' ∧ t.status = t'.status ∧
    t.faultcode = t'.faultcode ∧ t.faultblk = t'.faultblk ∧ t.faultfld = t'.faultfld

/-- 43_field_ops.md R205: FLD.ENC delivers data, then mask, with no exchange; a read-only field or a value its kind does not
take raises EncodingFault(0xFFFF, f). -/
def Obligations.FldEncDeliversDataAndMask : Prop :=
  ∀ (s : State) (f : Nat) (d : Descriptor), desc s.params f = some d →
    Completes (.fldEnc f) s fun t =>
      (∀ data mask, encodeField s.params d (operandOf s) = some (data, mask) →
        NormalEnd t false false ∧ resBytes t = data ++ mask ∧ t.reslen.toNat = 16 * d.nblk ∧ t.resv = 0) ∧
      (encodeField s.params d (operandOf s) = none → FaultedEnd t 2 0xFFFF (BitVec.ofNat 8 f) 0) ∧
      (d.writable = false → FaultedEnd t 2 0xFFFF (BitVec.ofNat 8 f) 0) ∧
      sent t = sent s ∧ OnlyResult s t ∧ TagKept s t

/-- 10_state.md R36, R45, 43_field_ops.md R206 to R213: the fixed rows of the field table for every choice of the
parameters, nothing at 255 and above, and no field that names block 48. -/
def Obligations.FieldTable : Prop :=
  ∀ p : Params,
    desc p 0 = some { kind := .raw, blk0 := 0, nblk := 2, off := 0, len := 8 } ∧
    (∀ least, (p.joinkeyShort = .zeroFillRight → least = 0) → (p.joinkeyShort = .reject → least = 32) →
      desc p 1 = some { kind := .raw, blk0 := 3, nblk := 4, off := 0, len := 16, writable := true
                        mindig := least, maxdig := 32 }) ∧
    desc p 2 = some { kind := .mac, blk0 := 11, nblk := 2, off := 0, len := 8, writable := true
                      mindig := 16, maxdig := 16 } ∧
    desc p 3 = some { kind := .mac, blk0 := 11, nblk := 2, off := 0, len := 8 } ∧
    desc p 4 = some { kind := .raw, blk0 := 18, nblk := 2, off := 0, len := 8 } ∧
    desc p 5 = some { kind := .ascii, blk0 := 22, nblk := 2, off := 0, len := 8, writable := true
                      mindig := 0, maxdig := 16 } ∧
    desc p 6 = some { kind := .utf16be, blk0 := 22, nblk := 2, off := 0, len := 8 } ∧
    desc p 7 = some { kind := .flagnib, blk0 := 13, nblk := 1, off := p.sleepNib.val, len := 1, writable := true } ∧
    (∀ f, 255 ≤ f → desc p f = none) ∧
    ∀ f d, desc p f = some d → 1 ≤ d.nblk ∧ d.blk0 + d.nblk ≤ 48

/-- 42_codec_transforms.md R163: data and mask cover the field's blocks, and data is 0 wherever mask is. -/
def Obligations.EncodeStaysInsideItsMask : Prop :=
  ∀ (p : Params) (d : Descriptor) (o : Operand) (data mask : List Byte),
    descWf d = true → o.op.length = 192 → encodeField p d o = some (data, mask) →
    data.length = 4 * d.nblk ∧ mask.length = 4 * d.nblk ∧
    ∀ k, data.getD k 0 &&& ~~~(mask.getD k 0) = 0

/-- 42_codec_transforms.md R185: bit k of the value of a bit group is bit `bit + k` of the byte, the element k of the
reversed string's slice. -/
def Obligations.BitGroupReadsLeastSignificantFirst : Prop :=
  ∀ (p : Params) (d : Descriptor) (c : List Byte), d.kind = .bitgrp → d.bit + d.len ≤ 8 →
    ∃ v : Nat, decodeBytes p d c = .num v false ∧ v < 2 ^ d.len ∧
      ∀ k < d.len, v.testBit k = (c.getD d.off 0).getLsbD (d.bit + k)

/-- 42_codec_transforms.md R168, R170, R172, R174, R176, R179, R181, R183: the values of the two text kinds and of the integer
kinds that take a byte, a byte order or a digit, as `FLD.RD` delivers them from the well-behaved tag of 20_memory.md R65 and
`FLD.DEC` from the snapshot (43_field_ops.md R200, R203, R204). `c` is the bytes of the field's blocks, `q` their digit at
index `off`. A big-endian integer is told by its base-256 digits; a text is the field without its longest tail of zero bytes,
or of zero code units. -/
def Obligations.DecodedValueOfEachKind : Prop :=
  ∀ (s : State) (f : Nat) (d : Descriptor) (i : Instr) (c : List Byte) (q : Nat), desc s.params f = some d →
    i = .fldRd f ∧ s.link = [] ∧ c = tagCat s.tag d.blk0 d.nblk ∨
    i = .fldDec f ∧ (∀ j < d.nblk, s.snapv.getLsbD (d.blk0 + j) = true) ∧ c = cat s.snap d.blk0 d.nblk →
    q = (if d.off % 2 = 0 then (c.getD (d.off / 2) 0).toNat / 16 else (c.getD (d.off / 2) 0).toNat % 16) →
    d.kind ∈ [.ascii, .utf16be, .ube, .ule16, .bias127, .s8, .nib, .flagnib] →
    Completes i s fun t =>
      NormalEnd t false false ∧
      (d.kind = .ascii → t.resv = 0 ∧ t.reslen.toNat = 2 * (resBytes t).length ∧
        (∃ k, resBytes t ++ List.replicate k 0 = (c.drop d.off).take d.len) ∧ (resBytes t).getLast? ≠ some 0) ∧
      (d.kind = .utf16be → t.resv = 0 ∧ t.reslen.toNat = 2 * (resBytes t).length ∧ t.reslen.toNat % 4 = 0 ∧
        (∃ k, resBytes t ++ List.replicate (2 * k) 0 = (c.drop d.off).take d.len) ∧
        ∀ bs, resBytes t ≠ bs ++ [0, 0]) ∧
      (d.kind = .ube → t.reslen = 0 ∧ t.resv.toNat < 256 ^ d.len ∧
        ∀ k < d.len, t.resv.toNat / 256 ^ (d.len - 1 - k) % 256 = (c.getD (d.off + k) 0).toNat) ∧
      (d.kind = .ule16 → t.reslen = 0 ∧
        t.resv.toNat = (c.getD d.off 0).toNat + 256 * (c.getD (d.off + 1) 0).toNat) ∧
      (d.kind = .bias127 → t.reslen = 0 ∧ t.resv.toInt = ((c.getD d.off 0).toNat : Int) - 127) ∧
      (d.kind = .s8 → t.reslen = 0 ∧
        t.resv.toInt = if (c.getD d.off 0).toNat ≤ 127 then ((c.getD d.off 0).toNat : Int)
          else ((c.getD d.off 0).toNat : Int) - 256) ∧
      (d.kind = .nib → t.reslen = 0 ∧ t.resv.toNat = q) ∧
      (d.kind = .flagnib → t.reslen = 0 ∧ t.resv = if q = 1 then 1 else 0)

/-- 42_codec_transforms.md R164, "the other direction": what encode accepted, merged into any old bytes, decodes to the value
given: the integer; the digits of a RAW or MAC operand, zero-filled; an ASCII name without its trailing zero bytes. -/
def Obligations.FieldEncodeThenDecode : Prop :=
  ∀ (p : Params) (d : Descriptor) (o : Operand) (c data mask : List Byte),
    descWf d = true → c.length = 4 * d.nblk → o.op.length = 192 → encodeField p d o = some (data, mask) →
    (Kind.takesOp d.kind = false →
      decodeBytes p d (mergeBytes c data mask) =
        .num (if d.kind = .ube ∧ d.len = 8 then (o.opv.toNat : Int) else o.opv.toInt) false) ∧
    (d.kind = .raw ∨ d.kind = .mac →
      ∃ bs, decodeBytes p d (mergeBytes c data mask) = .bytes bs ∧ bs.length = d.len ∧
        ∀ q < 2 * d.len, digit bs q = if q < o.oplen then digit o.op q else 0) ∧
    (d.kind = .ascii →
      ∃ bs k, decodeBytes p d (mergeBytes c data mask) = .bytes bs ∧
        bs ++ List.replicate k 0 = o.op.take (o.oplen / 2) ∧ bs.getLast? ≠ some 0)

/-- 42_codec_transforms.md R164, first direction: what decode gave is accepted by encode and reproduces the bytes. The
exceptions are those of the rule: an ASCII byte above 0x7F, a FLAGNIB digit above 1, an unmapped code (`unk`). A RAW, MAC or
ASCII descriptor must take operands of the decoded length (log 13). -/
def Obligations.FieldDecodeThenEncode : Prop :=
  ∀ (p : Params) (d : Descriptor) (o : Operand) (c : List Byte),
    descWf d = true → d.writable = true → c.length = 4 * d.nblk → o.op.length = 192 →
    (∀ v, decodeBytes p d c = .num v false → (d.kind = .flagnib → (digit c d.off).toNat ≤ 1) →
      o.opv = BitVec.ofInt 64 v →
      ∃ data mask, encodeField p d o = some (data, mask) ∧ mergeBytes c data mask = c) ∧
    (∀ bs, decodeBytes p d c = .bytes bs → (d.kind = .ascii → ∀ b ∈ bs, b.toNat ≤ 0x7F) →
      o.oplen = 2 * bs.length → o.op.take bs.length = bs → d.mindig ≤ o.oplen → o.oplen ≤ d.maxdig →
      ∃ data mask, encodeField p d o = some (data, mask) ∧ mergeBytes c data mask = c)

/-! ### Aggregate operations -/

/-- 44_aggregate.md R231, R232, with the well-behaved tag of 20_memory.md R65: both views, block by block ascending; the
snapshot shows the tag, unless the strict table of a member field misses, which raises UnknownBeaconType for the first such
field and leaves no snapshot. -/
def Obligations.ReadallDeliversTheSnapshot : Prop :=
  ∀ (s : State) (v : Nat) (bs : List Nat), s.link = [] →
    v = 0 ∧ bs = [8, 9, 10, 11, 12, 13, 14, 15] ∨
    v = 1 ∧ bs = [7, 8, 9, 13, 14, 15, 19, 20, 21, 24, 25, 26, 27, 28, 29, 30, 31] →
    Completes (.cfgReadall v) s fun t =>
      ((∀ f d, desc s.params f = some d → (∀ j < d.nblk, d.blk0 + j ∈ bs) →
          decodeBytes s.params d (tagCat s.tag d.blk0 d.nblk) ≠ .unmapped) →
        NormalEnd t false false ∧ resBytes t = bs.flatMap (fun n => (s.tag.blockAt n).toList) ∧
        t.reslen.toNat = 8 * bs.length ∧ t.resv = 0 ∧
        (∀ n : Fin 49, t.snapv.getLsbD n = decide (n.val ∈ bs)) ∧
        (∀ n : Fin 49, n.val ∈ bs → t.snap[n] = s.tag.blockAt n)) ∧
      (∀ f d, desc s.params f = some d → (∀ j < d.nblk, d.blk0 + j ∈ bs) →
        decodeBytes s.params d (tagCat s.tag d.blk0 d.nblk) = .unmapped →
        (∀ g < f, ∀ e, desc s.params g = some e → (∀ j < e.nblk, e.blk0 + j ∈ bs) →
          decodeBytes s.params e (tagCat s.tag e.blk0 e.nblk) ≠ .unmapped) →
        FaultedEnd t 5 (BitVec.ofNat 16 d.blk0) (BitVec.ofNat 8 f) 0 ∧ t.snapv = 0) ∧
      sent t = readsOf bs ++ sent s ∧
      OperandsKept s t ∧ OutsideKept s t ∧ CrcPairKept s t ∧ t.crcreg = s.crcreg ∧ TagKept s t

/-- 44_aggregate.md R231: no partial snapshot, whatever the environment does; an undefined view raises
EncodingFault(0xFFFF, 0xFF) with no exchange, the old snapshot gone. -/
def Obligations.NoPartialSnapshot : Prop :=
  (∀ (s t : State) (v : Nat), exec (.cfgReadall v) s = .next t →
    t.snapv = 0 ∨ NormalEnd t false false ∧ ∃ bs, view v = some bs ∧ ∀ n : Fin 49, t.snapv.getLsbD n = decide (n.val ∈ bs)) ∧
  (∀ (s : State) (v : Nat), 2 ≤ v →
    Completes (.cfgReadall v) s fun t =>
      FaultedEnd t 2 0xFFFF 0xFF 0 ∧ t.snapv = 0 ∧ sent t = sent s ∧
      OperandsKept s t ∧ OutsideKept s t ∧ CrcPairKept s t ∧ t.crcreg = s.crcreg ∧ TagKept s t)

/-- 44_aggregate.md R237: SNAP and SNAPV change only in CFG.READALL (and by reset). -/
def Obligations.SnapshotChangesOnlyInReadall : Prop :=
  ∀ (i : Instr) (s t : State), NoReset s → (∀ v, i ≠ .cfgReadall v) → exec i s = .next t → SnapshotKept s t

/-- 44_aggregate.md R233, with the well-behaved tag of 20_memory.md R65: the field's blocks hold the old bytes merged with
data and mask, block 48 the CRC of the new region, and no other byte of the tag changes; the exchanges are the reads of the
blocks the mask covers in part, the writes, the 48 reads, the write of block 48. -/
def Obligations.MutateWritesTheFieldAndStamps : Prop :=
  ∀ (s : State) (f : Nat) (d : Descriptor) (data mask : List Byte), s.link = [] → Memory.wf s.tag = true →
    desc s.params f = some d → encodeField s.params d (operandOf s) = some (data, mask) →
    Completes (.cfgMutate f) s fun t =>
      NormalEnd t false false ∧
      tagCat t.tag d.blk0 d.nblk = mergeBytes (tagCat s.tag d.blk0 d.nblk) data mask ∧
      t.tag.blockAt 48 = encStore (crc16 (region t.tag)) ∧
      TagKeptBut (48 :: (List.range d.nblk).map (d.blk0 + ·)) s t ∧
      t.crcreg = crc16 (region t.tag) ∧ t.resv = (crc16 (region t.tag)).setWidth 64 ∧ t.reslen = 0 ∧
      sent t =
        TagCmd.bytes (.write 48 (t.tag.blockAt 48)) :: readsOf (List.range 48) ++
        ((List.range d.nblk).map (fun j => TagCmd.bytes (.write (d.blk0 + j) (t.tag.blockAt (d.blk0 + j))))).reverse ++
        readsOf (((List.range d.nblk).filter (fun j => decide ((mask.drop (4 * j)).take 4 ≠ List.replicate 4 0xFF#8))).map
          (d.blk0 + ·)) ++ sent s ∧
      OperandsKept s t ∧ OutsideKept s t ∧ SnapshotKept s t ∧ CrcPairKept s t

/-- 44_aggregate.md R233, 42_codec_transforms.md R163, R192: a read-only field, or a value its kind does not take, raises
EncodingFault(0xFFFF, f) before any exchange; 43_field_ops.md R207: so does a Join Key longer than 32 digits. -/
def Obligations.MutateRefusesBadOperands : Prop :=
  ∀ (s : State) (f : Nat) (d : Descriptor), desc s.params f = some d →
    d.writable = false ∨ encodeField s.params d (operandOf s) = none ∨ f = 1 ∧ 32 < s.oplen.toNat →
    Completes (.cfgMutate f) s fun t =>
      FaultedEnd t 2 0xFFFF (BitVec.ofNat 8 f) 0 ∧ sent t = sent s ∧ OnlyResult s t ∧ TagKept s t

/-- 44_aggregate.md R234: a write of the field that does not succeed ends the mutation: the earlier blocks of the field are
new, the later ones and block 48 old, and the faulted block old or new (with TORN_WRITE = old_or_new). The exchanges made are
the reads of the blocks the mask covers in part and the writes up to the failed one, and no other. `p j` is the merged block
`j` of the field. -/
def Obligations.MutateStopsAtTheFirstFailedWrite : Prop :=
  ∀ (s : State) (f k : Nat) (d : Descriptor) (data mask : List Byte) (partly : List Nat) (p : Nat → Block) (y : Answer)
    (fate : WriteFate) (es : List LinkEvent),
    Memory.wf s.tag = true → desc s.params f = some d → encodeField s.params d (operandOf s) = some (data, mask) →
    partly = (List.range d.nblk).filter (fun j => decide ((mask.drop (4 * j)).take 4 ≠ List.replicate 4 0xFF#8)) →
    (∀ j ≤ k, (p j).toList = ((mergeBytes (tagCat s.tag d.blk0 d.nblk) data mask).drop (4 * j)).take 4) →
    k < d.nblk → ¬Answered y →
    s.link = List.replicate (partly.length + k) ⟨[], .behaved⟩ ++ ⟨[], .answers y fate⟩ :: es →
    Completes (.cfgMutate f) s fun t =>
      FaultedEnd t 1 (BitVec.ofNat 16 (d.blk0 + k)) (BitVec.ofNat 8 f) 0 ∧
      (∀ j < k, t.tag.blockAt (d.blk0 + j) = p j) ∧
      (s.params.tornWrite = .oldOrNew →
        t.tag.blockAt (d.blk0 + k) = s.tag.blockAt (d.blk0 + k) ∨ t.tag.blockAt (d.blk0 + k) = p k) ∧
      TagKeptBut ((List.range (k + 1)).map (d.blk0 + ·)) s t ∧
      sent t = ((List.range (k + 1)).map (fun j => TagCmd.bytes (.write (d.blk0 + j) (p j)))).reverse ++
        readsOf (partly.map (d.blk0 + ·)) ++ sent s ∧
      t.link = es ∧ OnlyResult s t

/-- 44_aggregate.md R234: whatever the environment does, a mutation that ends in a fault about another block than 48 leaves
the stored CRC as it was, and every block that is not the field's. -/
def Obligations.FailedMutationLeavesStoredCrc : Prop :=
  ∀ (s t : State) (f : Nat) (d : Descriptor), NoReset s → desc s.params f = some d → exec (.cfgMutate f) s = .next t →
    t.faultcode ≠ 0 → t.faultblk ≠ 48 → TagKeptBut ((List.range d.nblk).map (d.blk0 + ·)) s t

/-- 44_aggregate.md R235, R236, with the well-behaved tag of 20_memory.md R65: blocks 0 to 47 hold the fill, block 48 its CRC
0x12C3, the validation succeeds; the 146 exchanges in order. -/
def Obligations.EraseFillsAndValidates : Prop :=
  ∀ s : State, s.link = [] → Memory.wf s.tag = true →
    Completes .cfgErase s fun t =>
      NormalEnd t true false ∧ (∀ n < 48, t.tag.blockAt n = ⟨0xFF, 0xFF, 0xFF, 0xFF⟩) ∧
      t.tag.blockAt 48 = ⟨0xC3, 0x12, 0x00, 0x00⟩ ∧ TagKeptBut (List.range 49) s t ∧
      t.crcreg = 0x12C3 ∧ t.crcexp = 0x12C3 ∧ t.crcact = 0x12C3 ∧ t.resv = 0x12C3 ∧ t.reslen = 0 ∧
      sent t =
        readsOf (List.range 49) ++ TagCmd.bytes (.write 48 ⟨0xC3, 0x12, 0x00, 0x00⟩) :: readsOf (List.range 48) ++
        ((List.range 48).map (fun n => TagCmd.bytes (.write n ⟨0xFF, 0xFF, 0xFF, 0xFF⟩))).reverse ++ sent s ∧
      OperandsKept s t ∧ OutsideKept s t ∧ SnapshotKept s t

/-- 42_codec_transforms.md R164, 70_reset_and_hazards.md R296: what CFG.MUTATE wrote, FLD.RD reads back: the integer, the sleep
flag with the polarity it was written with; the digits of a RAW or MAC operand, zero-filled; an ASCII name without its trailing
zero bytes. The tag is the well-behaved one of 20_memory.md R65. -/
def Obligations.MutateThenReadBack : Prop :=
  ∀ (s t u : State) (f : Nat) (d : Descriptor) (w : BitVec 32), s.link = [] → Memory.wf s.tag = true →
    desc s.params f = some d → encodeField s.params d (operandOf s) ≠ none →
    exec (.cfgMutate f) s = .next t → exec (.fldRd f) (acceptCmd w t) = .next u →
    NormalEnd u false false ∧ (Kind.takesOp d.kind = false → u.resv = s.opv) ∧
    (d.kind = .raw ∨ d.kind = .mac →
      (resBytes u).length = d.len ∧
        ∀ q < 2 * d.len, digit (resBytes u) q = if q < s.oplen.toNat then digit s.op.toList q else 0) ∧
    (d.kind = .ascii →
      (∃ k, resBytes u ++ List.replicate k 0 = s.op.toList.take (s.oplen.toNat / 2)) ∧ (resBytes u).getLast? ≠ some 0)

/-! ### The whole machine -/

/-- 10_state.md R31, R43, 70_reset_and_hazards.md R295: every host command, on every operand and whatever the environment
does, ends normally, or faulted, or is cut by a reset that leaves the registers at their reset values; it makes at most
146 exchanges. -/
def Obligations.HostCommandsAlwaysEnd : Prop :=
  ∀ (i : Instr) (s : State), Instr.isHostCommand i = true →
    Completes i s fun t =>
      ((∃ crcok unk, NormalEnd t crcok unk) ∨
       (∃ code blk fld resv, FaultedEnd t code blk fld resv ∧ 1 ≤ code.toNat ∧ code.toNat ≤ 5) ∨
       (AtReset t ∧ ¬NoReset s)) ∧
      (sent t).length ≤ (sent s).length + 146

/-- 60_exceptions.md R256, R251: what `raise` records, and that it changes nothing else of the machine's registers. -/
def Obligations.RaiseEffect : Prop :=
  ∀ (f : FaultKind) (blk : BitVec 16) (fld : BitVec 8) (s : State),
    FaultedEnd (raiseFault f blk fld s)
      (match f with
        | .transportFault => 1 | .encodingFault => 2 | .decodeFault => 3 | .crcMismatch => 4 | .unknownBeaconType => 5)
      blk fld (if f = .crcMismatch then s.crcexp.setWidth 64 else 0) ∧
    OnlyResult s (raiseFault f blk fld s) ∧ (raiseFault f blk fld s).tag = s.tag

/-- 60_exceptions.md R253, R270: an EncodingFault is raised before any exchange, and leaves the tag as it was. -/
def Obligations.EncodingFaultMeansNoExchange : Prop :=
  ∀ (i : Instr) (s t : State), Instr.isHostCommand i = true → exec i s = .next t → t.faultcode = 2 →
    t.trace = s.trace ∧ t.tag = s.tag ∧ t.link = s.link

/-- 10_state.md R22, R23, R30: no operation writes CMD, OPV, OPLEN or OP. -/
def Obligations.OperandsNeverWritten : Prop :=
  ∀ (i : Instr) (s t : State), NoReset s → exec i s = .next t → OperandsKept s t

/-- 60_exceptions.md R270, 41_crc.md R150, 44_aggregate.md R237: the commands that only read, or make no exchange, leave
every byte of the tag as it was, whatever the environment does. -/
def Obligations.ReadingCommandsKeepTheTag : Prop :=
  ∀ (i : Instr) (s t : State),
    (match i with
      | .wrblk _ | .crcRecompute | .cfgMutate _ | .cfgErase | .apduWrite _ _ => false
      | _ => true) = true →
    exec i s = .next t → TagKept s t

/-- 10_state.md R28, R29: CRCEXP and CRCACT change only in operations that compare CRCs, CRCREG only in those that compute
one (or by reset). -/
def Obligations.CrcRegistersChangeOnlyWhereSaid : Prop :=
  ∀ (i : Instr) (s t : State), NoReset s → exec i s = .next t →
    (i ≠ .crcValidate → i ≠ .cfgErase → CrcPairKept s t) ∧
    (i ≠ .crcCompute → i ≠ .crcValidate → i ≠ .crcRecompute → (∀ f, i ≠ .cfgMutate f) → i ≠ .cfgErase →
      t.crcreg = s.crcreg)

/-- 10_state.md R39, R40: no step changes the UID or the configuration. -/
def Obligations.ParametersAndUidNeverChange : Prop :=
  ∀ s t : State, step s = .next t → t.params = s.params ∧ t.uid = s.uid

/-- 43_field_ops.md R204: UnknownBeaconType cannot occur in FLD.DEC, in a state that meets the invariant. -/
def Obligations.FldDecNeverMisses : Prop :=
  ∀ (s : State) (f : Nat), Inv s → Completes (.fldDec f) s fun t => t.faultcode = 0 ∨ t.faultcode = 2

/-- The state after reset meets the invariant. -/
def Obligations.InvHoldsAtReset : Prop := Inv State.reset

/-- 10_state.md R24, R26, R27, R31, R33, R39, 43_field_ops.md R204, 60_exceptions.md R251: every step keeps the invariant. -/
def Obligations.StepKeepsInv : Prop := ∀ s t : State, Inv s → step s = .next t → Inv t
end

