-- ==== Sys2Proof/Laws/Table.lean ====
section
/-! SUPPORT. What a defined field is: a well-formed descriptor (10_state.md R45), with the bounds that follow. -/

namespace Sys2Proof.Machine

/-- A defined field id has a well-formed descriptor (R36, R45). -/
theorem desc_wf {p : Params} {f : Nat} {d : Descriptor} (h : desc p f = some d) : descWf d = true := by
  unfold desc at h
  split at h
  · have hs := p.sleepNib.isLt
    unfold fixedDesc at h
    split at h <;> simp only [Option.some.injEq, reduceCtorEq] at h <;> subst h <;>
      simp [descWf, bytesFit, digitFit]
  · split at h
    · unfold extDesc at h
      split at h
      · split at h
        · simp only [Option.some.injEq] at h
          subst h
          assumption
        · cases h
      · cases h
    · cases h

theorem descWf_blocks {d : Descriptor} (h : descWf d = true) : 1 ≤ d.nblk ∧ d.nblk ≤ 24 ∧ d.blk0 + d.nblk ≤ 48 := by
  simp only [descWf, Bool.and_eq_true, decide_eq_true_eq] at h
  omega

/-- The blocks of a defined field are blocks of the region. -/
theorem desc_blocks {p : Params} {f : Nat} {d : Descriptor} (h : desc p f = some d) :
    1 ≤ d.nblk ∧ d.nblk ≤ 24 ∧ d.blk0 + d.nblk ≤ 48 := descWf_blocks (desc_wf h)

theorem desc_lt {p : Params} {f : Nat} {d : Descriptor} (h : desc p f = some d) : f < 255 := by
  unfold desc at h
  split at h
  · omega
  · split at h
    · assumption
    · cases h

end Sys2Proof.Machine
end

