-- ==== Sys2Proof/Laws/Codec.lean ====
section
/-! SUPPORT. The encode rules: the checks a value has passed, and the lengths of data and mask
(42_codec_transforms.md R163, R192). -/

namespace Sys2Proof.Machine

theorem spread_length {n off : Nat} {bs : List Byte} (h : off + bs.length ≤ n) : (spread n off bs).length = n := by
  simp only [spread, List.length_append, List.length_replicate]
  omega

theorem digitBytes_length {op : List Byte} {n : Nat} (h : n ≤ 2 * op.length) : (digitBytes op n).length = (n + 1) / 2 := by
  unfold digitBytes
  split
  · simp; omega
  · simp; omega

theorem zeroFill_length {len : Nat} {bs : List Byte} (h : bs.length ≤ len) : (zeroFill len bs).length = len := by
  simp only [zeroFill, List.length_append, List.length_replicate]
  omega

theorem bigEndianBytes_length (len v : Nat) : (bigEndianBytes len v).length = len := by
  induction len generalizing v with
  | zero => rfl
  | succ n ih => simp [bigEndianBytes, ih]

theorem wholeBytes_length {d : Descriptor} {bs : List Byte} (h : d.off + bs.length ≤ 4 * d.nblk) :
    (wholeBytes d bs).1.length = 4 * d.nblk ∧ (wholeBytes d bs).2.length = 4 * d.nblk :=
  ⟨spread_length h, spread_length (by simpa using h)⟩

theorem partByte_length {d : Descriptor} {idx : Nat} {dm : Byte × Byte} (h : idx + 1 ≤ 4 * d.nblk) :
    (partByte d idx dm).1.length = 4 * d.nblk ∧ (partByte d idx dm).2.length = 4 * d.nblk :=
  ⟨spread_length (by simpa using h), spread_length (by simpa using h)⟩

/-- What encode accepts is a writable field's value, of at most 384 digits, and its kind's rule gave data and mask (R192). -/
theorem encodeField_some {p : Params} {d : Descriptor} {o : Operand} {x : List Byte × List Byte}
    (h : encodeField p d o = some x) :
    d.writable = true ∧ (Kind.takesOp d.kind = true → o.oplen ≤ 384) ∧ encodeKind p d o = some x := by
  unfold encodeField at h
  split at h
  · cases h
  · split at h
    · cases h
    · rename_i h1 h2
      refine ⟨by simpa using h1, fun hk => ?_, h⟩
      simp only [hk, Bool.true_and, decide_eq_true_eq] at h2
      omega

/-- Data and mask have the length of the field's blocks (R163). -/
theorem encodeField_length {p : Params} {d : Descriptor} {o : Operand} {data mask : List Byte} (hd : descWf d = true)
    (ho : o.op.length = 192) (h : encodeField p d o = some (data, mask)) :
    data.length = 4 * d.nblk ∧ mask.length = 4 * d.nblk := by
  obtain ⟨-, h384, hk⟩ := encodeField_some h
  simp only [descWf, Bool.and_eq_true, decide_eq_true_eq] at hd
  obtain ⟨⟨⟨⟨-, hn1⟩, -⟩, -⟩, hkind⟩ := hd
  have whole : ∀ bs, d.off + bs.length ≤ 4 * d.nblk → wholeBytes d bs = (data, mask) →
      data.length = 4 * d.nblk ∧ mask.length = 4 * d.nblk := by
    intro bs hb he
    have := wholeBytes_length hb
    rwa [he] at this
  have part : ∀ idx dm, idx + 1 ≤ 4 * d.nblk → partByte d idx dm = (data, mask) →
      data.length = 4 * d.nblk ∧ mask.length = 4 * d.nblk := by
    intro idx dm hb he
    have := partByte_length (d := d) (dm := dm) hb
    rwa [he] at this
  have raw : (bytesFit d d.len && decide (d.maxdig ≤ 2 * d.len)) = true → o.oplen ≤ 384 →
      (if rawOk d o then some (wholeBytes d (zeroFill d.len (digitBytes o.op o.oplen))) else none) = some (data, mask) →
      data.length = 4 * d.nblk ∧ mask.length = 4 * d.nblk := by
    intro hf hl he
    simp only [bytesFit, rawOk, Bool.and_eq_true, decide_eq_true_eq] at hf he
    split at he
    · rename_i hr
      refine whole _ ?_ (Option.some.inj he)
      rw [zeroFill_length]
      · omega
      · rw [digitBytes_length (by omega)]; omega
    · cases he
  unfold encodeKind at hk
  split at hk <;> rename_i hkd <;> simp only [hkd, bytesFit, digitFit, Bool.and_eq_true, decide_eq_true_eq] at hkind
  · exact raw (by simpa [bytesFit] using hkind) (h384 (by rw [hkd]; rfl)) hk
  · exact raw (by simpa [bytesFit] using hkind) (h384 (by rw [hkd]; rfl)) hk
  · split at hk
    · rename_i ha
      simp only [asciiOk, Bool.and_eq_true, decide_eq_true_eq] at ha
      refine whole _ ?_ (Option.some.inj hk)
      rw [zeroFill_length]
      · omega
      · simp; omega
    · cases hk
  · cases hk
  all_goals
    split at hk <;> [skip; cases hk]
    have hk := Option.some.inj hk
  case h_5 => exact whole _ (by rw [bigEndianBytes_length]; omega) hk
  case h_9 | h_10 | h_11 | h_13 => exact part _ _ (by omega) hk
  all_goals exact whole _ (by simp; omega) hk

theorem operandOf_op_length (s : State) : (operandOf s).op.length = 192 := by simp [operandOf]

/-- A byte string of `4 n` bytes is cut into `n` blocks. -/
theorem cutBlocks_length {l : List Byte} {n : Nat} (h : l.length = 4 * n) : (cutBlocks l).length = n := by
  induction n generalizing l with
  | zero =>
    obtain rfl := List.eq_nil_of_length_eq_zero (by omega : l.length = 0)
    rfl
  | succ n ih =>
    match l, h with
    | a :: b :: c :: e :: rest, h =>
      simp only [cutBlocks, List.length_cons]
      rw [ih (by simpa [Nat.mul_succ] using h)]

end Sys2Proof.Machine
end

