-- ==== Sys2Proof/Laws/Memory.lean ====
section
/-! SUPPORT. Tag memory: a byte or block read after a write, and every operation keeps the canonical form and the range. -/

namespace Sys2Proof.Machine

theorem byteAt_of_all_gt {m : Memory} {a : Nat} (h : m.all (fun c => decide (a < c.1)) = true) :
    m.byteAt a = Memory.unlisted := by
  induction m with
  | nil => rfl
  | cons c m ih =>
    obtain ⟨k, b⟩ := c
    simp only [List.all_cons, Bool.and_eq_true, decide_eq_true_eq] at h
    simp only [Memory.byteAt]
    rw [if_neg (by omega), ih h.2]

theorem Memory.wf_cons {k : Nat} {b : Byte} {m : Memory} :
    Memory.wf ((k, b) :: m) = true ↔
      b ≠ Memory.unlisted ∧ (m.all (fun c => decide (k < c.1))) = true ∧ Memory.wf m = true := by
  simp only [Memory.wf, Bool.and_eq_true, decide_eq_true_eq]
  tauto

theorem all_gt_mono {m : Memory} {a k : Nat} (h : m.all (fun c => decide (k < c.1)) = true) (ha : a ≤ k) :
    m.all (fun c => decide (a < c.1)) = true := by
  simp only [List.all_eq_true, decide_eq_true_eq] at h ⊢
  exact fun c hc => lt_of_le_of_lt ha (h c hc)

theorem byteAt_setByte_same {m : Memory} (h : Memory.wf m = true) (a : Nat) (b : Byte) :
    (m.setByte a b).byteAt a = b := by
  induction m with
  | nil =>
    simp only [Memory.setByte]
    split <;> rename_i hb
    · simp [Memory.byteAt, hb]
    · simp [Memory.byteAt]
  | cons c m ih =>
    obtain ⟨k, c⟩ := c
    rw [Memory.wf_cons] at h
    simp only [Memory.setByte]
    split
    · rename_i hak
      split <;> rename_i hb
      · simp only [Memory.byteAt]
        rw [if_neg (by omega), byteAt_of_all_gt (all_gt_mono h.2.1 hak.le), hb]
      · simp [Memory.byteAt]
    · split
      · rename_i hak
        subst hak
        split <;> rename_i hb
        · rw [byteAt_of_all_gt h.2.1, hb]
        · simp [Memory.byteAt]
      · rename_i h1 h2
        simp only [Memory.byteAt]
        rw [if_neg (Ne.symm h2), ih h.2.2]

theorem byteAt_setByte_other (m : Memory) {a x : Nat} (b : Byte) (hx : x ≠ a) :
    (m.setByte a b).byteAt x = m.byteAt x := by
  induction m with
  | nil =>
    simp only [Memory.setByte]
    split
    · rfl
    · simp [Memory.byteAt, Ne.symm hx]
  | cons c m ih =>
    obtain ⟨k, c⟩ := c
    simp only [Memory.setByte]
    split
    · split
      · rfl
      · simp [Memory.byteAt, Ne.symm hx]
    · split
      · rename_i hak
        subst hak
        split <;> simp [Memory.byteAt, Ne.symm hx]
      · simp [Memory.byteAt, ih]

theorem all_setByte {m : Memory} {p : Nat → Bool} {a : Nat} {b : Byte} (ha : p a = true)
    (h : m.all (fun c => p c.1) = true) : (m.setByte a b).all (fun c => p c.1) = true := by
  induction m with
  | nil =>
    simp only [Memory.setByte]
    split <;> simp [ha]
  | cons c m ih =>
    obtain ⟨k, c⟩ := c
    simp only [List.all_cons, Bool.and_eq_true] at h
    simp only [Memory.setByte]
    split
    · split <;> simp only [List.all_cons, ha, h.1, h.2, Bool.and_self]
    · split
      · split <;> simp only [List.all_cons, ha, h.2, Bool.and_self]
      · simp only [List.all_cons, h.1, ih h.2, Bool.and_self]

theorem wf_setByte {m : Memory} (h : Memory.wf m = true) (a : Nat) (b : Byte) :
    Memory.wf (m.setByte a b) = true := by
  induction m with
  | nil =>
    simp only [Memory.setByte]
    split <;> simp_all [Memory.wf]
  | cons c m ih =>
    obtain ⟨k, c⟩ := c
    have h' := Memory.wf_cons.mp h
    simp only [Memory.setByte]
    split
    · rename_i hak
      split
      · exact h
      · rename_i hb
        rw [Memory.wf_cons]
        refine ⟨hb, ?_, h⟩
        simp [hak, all_gt_mono h'.2.1 hak.le]
    · split
      · rename_i hak
        subst hak
        split
        · exact h'.2.2
        · rename_i hb
          exact Memory.wf_cons.mpr ⟨hb, h'.2.1, h'.2.2⟩
      · exact Memory.wf_cons.mpr ⟨h'.1, all_setByte (p := fun x => decide (k < x)) (by simp; omega) h'.2.1, ih h'.2.2⟩

theorem wf_setBlock {m : Memory} (h : Memory.wf m = true) (n : Nat) (d : Block) :
    Memory.wf (m.setBlock n d) = true :=
  wf_setByte (wf_setByte (wf_setByte (wf_setByte h _ _) _ _) _ _) _ _

theorem inTag_setBlock {m : Memory} (h : Memory.inTag m = true) {n : Nat} (hn : n ≤ 48) (d : Block) :
    Memory.inTag (m.setBlock n d) = true := by
  have step : ∀ {m' : Memory} {a : Nat} {b : Byte}, a < 196 → Memory.inTag m' = true →
      Memory.inTag (m'.setByte a b) = true :=
    fun ha hm => all_setByte (p := fun x => decide (x < 196)) (by simp [ha]) hm
  exact step (by omega) (step (by omega) (step (by omega) (step (by omega) h)))

/-- A block write leaves every byte of the other blocks alone. -/
theorem byteAt_setBlock_other (m : Memory) {n a : Nat} (d : Block) (ha : a / 4 ≠ n) :
    (m.setBlock n d).byteAt a = m.byteAt a := by
  unfold Memory.setBlock
  rw [byteAt_setByte_other _ _ (by omega), byteAt_setByte_other _ _ (by omega),
    byteAt_setByte_other _ _ (by omega), byteAt_setByte_other _ _ (by omega)]

/-- A block read after a write of the same block gives the value written. -/
theorem blockAt_setBlock_same {m : Memory} (h : Memory.wf m = true) (n : Nat) (d : Block) :
    (m.setBlock n d).blockAt n = d := by
  have h1 := wf_setByte h (4 * n) d.b0
  have h2 := wf_setByte h1 (4 * n + 1) d.b1
  have h3 := wf_setByte h2 (4 * n + 2) d.b2
  simp only [Memory.blockAt, Memory.setBlock]
  rw [byteAt_setByte_same h3, byteAt_setByte_other _ _ (show 4 * n ≠ _ by omega),
    byteAt_setByte_other _ _ (show 4 * n ≠ _ by omega), byteAt_setByte_other _ _ (show 4 * n ≠ _ by omega),
    byteAt_setByte_same h, byteAt_setByte_other _ _ (show 4 * n + 1 ≠ _ by omega),
    byteAt_setByte_other _ _ (show 4 * n + 1 ≠ _ by omega), byteAt_setByte_same h1,
    byteAt_setByte_other _ _ (show 4 * n + 2 ≠ _ by omega), byteAt_setByte_same h2]

/-- A block reads the same where its 4 bytes do. -/
theorem blockAt_congr {m m' : Memory} {n : Nat} (h : ∀ a, a / 4 = n → m'.byteAt a = m.byteAt a) :
    m'.blockAt n = m.blockAt n := by
  simp only [Memory.blockAt]
  rw [h _ (by omega), h _ (by omega), h _ (by omega), h _ (by omega)]

/-- A block read after a write of another block gives what it gave before. -/
theorem blockAt_setBlock_other (m : Memory) {n k : Nat} (d : Block) (hk : k ≠ n) :
    (m.setBlock n d).blockAt k = m.blockAt k :=
  blockAt_congr fun _ ha => byteAt_setBlock_other m d (by omega)

theorem tagStore_of_le {n : Nat} (hn : n ≤ 48) (m : Memory) (d : Block) : tagStore m n d = m.setBlock n d := by
  simp [tagStore, Config.maxBlock, hn]

theorem wf_tagStore {m : Memory} (h : Memory.wf m = true) (n : Nat) (d : Block) :
    Memory.wf (tagStore m n d) = true := by
  unfold tagStore
  split
  · exact wf_setBlock h n d
  · exact h

theorem inTag_tagStore {m : Memory} (h : Memory.inTag m = true) (n : Nat) (d : Block) :
    Memory.inTag (tagStore m n d) = true := by
  unfold tagStore
  split <;> rename_i hn
  · exact inTag_setBlock h hn d
  · exact h

theorem byteAt_tagStore_other (m : Memory) {n a : Nat} (d : Block) (ha : a / 4 ≠ n) :
    (tagStore m n d).byteAt a = m.byteAt a := by
  unfold tagStore
  split
  · exact byteAt_setBlock_other m d ha
  · rfl

end Sys2Proof.Machine
end

