-- ==== Sys2Proof/Laws/Run.lean ====
section
/-! SUPPORT. Running one part of an operation after another. -/

namespace Sys2Proof.Machine

variable {α β γ : Type}

@[simp] theorem andThen_ok (a : α) (s : State) (k : α → State → Run β) : (Run.ok a s).andThen k = k a s := rfl

@[simp] theorem andThen_raised (f : FaultKind) (blk : BitVec 16) (fld : BitVec 8) (s : State) (k : α → State → Run β) :
    (Run.raised f blk fld s).andThen k = .raised f blk fld s := rfl

@[simp] theorem andThen_cut (s : State) (k : α → State → Run β) : (Run.cut s).andThen k = .cut s := rfl

@[simp] theorem after_ok (a : α) (s : State) : (Run.ok a s).after = s := rfl

@[simp] theorem after_raised (f : FaultKind) (blk : BitVec 16) (fld : BitVec 8) (s : State) :
    (Run.raised f blk fld s : Run α).after = s := rfl

@[simp] theorem after_cut (s : State) : (Run.cut s : Run α).after = s := rfl

@[simp] theorem toOutcome_ok (a : Result) (s : State) : (Run.ok a s).toOutcome = .next (finish a s) := rfl

@[simp] theorem toOutcome_raised (f : FaultKind) (blk : BitVec 16) (fld : BitVec 8) (s : State) :
    (Run.raised f blk fld s).toOutcome = .next (raiseFault f blk fld s) := rfl

@[simp] theorem toOutcome_cut (s : State) : (Run.cut s).toOutcome = .next s := rfl

theorem andThen_assoc (r : Run α) (k : α → State → Run β) (l : β → State → Run γ) :
    (r.andThen k).andThen l = r.andThen fun a s => (k a s).andThen l := by
  cases r <;> rfl

/-- How a part of an operation ends meets one of three conditions. -/
def Run.Ends (r : Run α) (ok : α → State → Prop) (raised : FaultKind → BitVec 16 → BitVec 8 → State → Prop)
    (cut : State → Prop) : Prop :=
  match r with
  | .ok a s => ok a s
  | .raised f b d s => raised f b d s
  | .cut s => cut s

variable {ok ok₂ : α → State → Prop} {ok' : β → State → Prop}
  {raised raised₂ : FaultKind → BitVec 16 → BitVec 8 → State → Prop} {cut cut₂ : State → Prop}

@[simp] theorem ends_ok {a : α} {s : State} : (Run.ok a s).Ends ok raised cut ↔ ok a s := Iff.rfl

@[simp] theorem ends_raised {f : FaultKind} {b : BitVec 16} {d : BitVec 8} {s : State} :
    (Run.raised f b d s : Run α).Ends ok raised cut ↔ raised f b d s := Iff.rfl

@[simp] theorem ends_cut {s : State} : (Run.cut s : Run α).Ends ok raised cut ↔ cut s := Iff.rfl

/-- Two parts one after the other: the second starts where the first ended well. -/
theorem Run.Ends.andThen {r : Run α} {k : α → State → Run β} (h : r.Ends ok raised cut)
    (hk : ∀ a s, ok a s → (k a s).Ends ok' raised cut) : (r.andThen k).Ends ok' raised cut := by
  cases r with
  | ok a s => exact hk a s h
  | raised f b d s => exact h
  | cut s => exact h

/-- Weaker conditions hold too. -/
theorem Run.Ends.mono {r : Run α} (h : r.Ends ok raised cut) (h1 : ∀ a s, ok a s → ok₂ a s)
    (h2 : ∀ f b d s, raised f b d s → raised₂ f b d s) (h3 : ∀ s, cut s → cut₂ s) : r.Ends ok₂ raised₂ cut₂ := by
  cases r with
  | ok a s => exact h1 a s h
  | raised f b d s => exact h2 f b d s h
  | cut s => exact h3 s h

/-- How a whole operation ends, seen in its next state. -/
theorem Run.Ends.next {r : Run Result} {t : State} {ok : Result → State → Prop} (h : r.Ends ok raised cut)
    (ht : r.toOutcome = .next t) :
    (∃ a s, ok a s ∧ t = finish a s) ∨ (∃ f b d s, raised f b d s ∧ t = raiseFault f b d s) ∨ cut t := by
  cases r with
  | ok a s => exact .inl ⟨a, s, h, by simpa using ht.symm⟩
  | raised f b d s => exact .inr (.inl ⟨f, b, d, s, h, by simpa using ht.symm⟩)
  | cut s =>
    obtain rfl : s = t := by simpa using ht
    exact .inr (.inr h)

/-- Every host command answers a next state (R295). -/
theorem toOutcome_next (r : Run Result) : ∃ t, r.toOutcome = .next t := by
  cases r <;> exact ⟨_, rfl⟩

end Sys2Proof.Machine
end

