-- ==== Sys2Proof/Laws/State.lean ====
section
/-! SUPPORT. One lemma per field for each operation that updates the registers at once: `finish`, `raiseFault`, `acceptCmd`,
`resetPulse`. All hold by definition; provers cite them instead of unfolding the updates. -/

namespace Sys2Proof.Machine

section
variable (r : Result) (s : State)
@[simp] theorem finish_cmd : (finish r s).cmd = s.cmd := rfl
@[simp] theorem finish_status : (finish r s).status = statusNormal r.crcok r.unk := rfl
@[simp] theorem finish_faultcode : (finish r s).faultcode = 0 := rfl
@[simp] theorem finish_faultblk : (finish r s).faultblk = 0xFFFF := rfl
@[simp] theorem finish_faultfld : (finish r s).faultfld = 0xFF := rfl
@[simp] theorem finish_crcexp : (finish r s).crcexp = s.crcexp := rfl
@[simp] theorem finish_crcact : (finish r s).crcact = s.crcact := rfl
@[simp] theorem finish_crcreg : (finish r s).crcreg = s.crcreg := rfl
@[simp] theorem finish_opv : (finish r s).opv = s.opv := rfl
@[simp] theorem finish_oplen : (finish r s).oplen = s.oplen := rfl
@[simp] theorem finish_resv : (finish r s).resv = r.resv := rfl
@[simp] theorem finish_reslen : (finish r s).reslen = BitVec.ofNat 16 (2 * r.bytes.length) := rfl
@[simp] theorem finish_snapv : (finish r s).snapv = s.snapv := rfl
@[simp] theorem finish_op : (finish r s).op = s.op := rfl
@[simp] theorem finish_res : (finish r s).res = resFill s.fresh r.bytes := rfl
@[simp] theorem finish_snap : (finish r s).snap = s.snap := rfl
@[simp] theorem finish_seq : (finish r s).seq = .idle := rfl
@[simp] theorem finish_buf : (finish r s).buf = bufFree s.fresh := rfl
@[simp] theorem finish_tag : (finish r s).tag = s.tag := rfl
@[simp] theorem finish_uid : (finish r s).uid = s.uid := rfl
@[simp] theorem finish_params : (finish r s).params = s.params := rfl
@[simp] theorem finish_inbox : (finish r s).inbox = s.inbox := rfl
@[simp] theorem finish_link : (finish r s).link = s.link := rfl
@[simp] theorem finish_trace : (finish r s).trace = s.trace := rfl
@[simp] theorem finish_hostRd : (finish r s).hostRd = s.hostRd := rfl
@[simp] theorem finish_fresh : (finish r s).fresh = s.fresh + 1 := rfl
end

section
variable (f : FaultKind) (blk : BitVec 16) (fld : BitVec 8) (s : State)
@[simp] theorem raiseFault_cmd : (raiseFault f blk fld s).cmd = s.cmd := rfl
@[simp] theorem raiseFault_status : (raiseFault f blk fld s).status = statusRaised := rfl
@[simp] theorem raiseFault_faultcode : (raiseFault f blk fld s).faultcode = f.code := rfl
@[simp] theorem raiseFault_faultblk : (raiseFault f blk fld s).faultblk = blk := rfl
@[simp] theorem raiseFault_faultfld : (raiseFault f blk fld s).faultfld = fld := rfl
@[simp] theorem raiseFault_crcexp : (raiseFault f blk fld s).crcexp = s.crcexp := rfl
@[simp] theorem raiseFault_crcact : (raiseFault f blk fld s).crcact = s.crcact := rfl
@[simp] theorem raiseFault_crcreg : (raiseFault f blk fld s).crcreg = s.crcreg := rfl
@[simp] theorem raiseFault_opv : (raiseFault f blk fld s).opv = s.opv := rfl
@[simp] theorem raiseFault_oplen : (raiseFault f blk fld s).oplen = s.oplen := rfl
@[simp] theorem raiseFault_resv : (raiseFault f blk fld s).resv = (if f = .crcMismatch then s.crcexp.setWidth 64 else 0) := rfl
@[simp] theorem raiseFault_reslen : (raiseFault f blk fld s).reslen = 0 := rfl
@[simp] theorem raiseFault_snapv : (raiseFault f blk fld s).snapv = s.snapv := rfl
@[simp] theorem raiseFault_op : (raiseFault f blk fld s).op = s.op := rfl
@[simp] theorem raiseFault_res : (raiseFault f blk fld s).res = resFill s.fresh [] := rfl
@[simp] theorem raiseFault_snap : (raiseFault f blk fld s).snap = s.snap := rfl
@[simp] theorem raiseFault_seq : (raiseFault f blk fld s).seq = .idle := rfl
@[simp] theorem raiseFault_buf : (raiseFault f blk fld s).buf = bufFree s.fresh := rfl
@[simp] theorem raiseFault_tag : (raiseFault f blk fld s).tag = s.tag := rfl
@[simp] theorem raiseFault_uid : (raiseFault f blk fld s).uid = s.uid := rfl
@[simp] theorem raiseFault_params : (raiseFault f blk fld s).params = s.params := rfl
@[simp] theorem raiseFault_inbox : (raiseFault f blk fld s).inbox = s.inbox := rfl
@[simp] theorem raiseFault_link : (raiseFault f blk fld s).link = s.link := rfl
@[simp] theorem raiseFault_trace : (raiseFault f blk fld s).trace = s.trace := rfl
@[simp] theorem raiseFault_hostRd : (raiseFault f blk fld s).hostRd = s.hostRd := rfl
@[simp] theorem raiseFault_fresh : (raiseFault f blk fld s).fresh = s.fresh + 1 := rfl
end

section
variable (w : BitVec 32) (s : State)
@[simp] theorem acceptCmd_cmd : (acceptCmd w s).cmd = w := rfl
@[simp] theorem acceptCmd_status : (acceptCmd w s).status = statusAccepted := rfl
@[simp] theorem acceptCmd_faultcode : (acceptCmd w s).faultcode = s.faultcode := rfl
@[simp] theorem acceptCmd_faultblk : (acceptCmd w s).faultblk = s.faultblk := rfl
@[simp] theorem acceptCmd_faultfld : (acceptCmd w s).faultfld = s.faultfld := rfl
@[simp] theorem acceptCmd_crcexp : (acceptCmd w s).crcexp = s.crcexp := rfl
@[simp] theorem acceptCmd_crcact : (acceptCmd w s).crcact = s.crcact := rfl
@[simp] theorem acceptCmd_crcreg : (acceptCmd w s).crcreg = s.crcreg := rfl
@[simp] theorem acceptCmd_opv : (acceptCmd w s).opv = s.opv := rfl
@[simp] theorem acceptCmd_oplen : (acceptCmd w s).oplen = s.oplen := rfl
@[simp] theorem acceptCmd_resv : (acceptCmd w s).resv = s.resv := rfl
@[simp] theorem acceptCmd_reslen : (acceptCmd w s).reslen = s.reslen := rfl
@[simp] theorem acceptCmd_snapv : (acceptCmd w s).snapv = s.snapv := rfl
@[simp] theorem acceptCmd_op : (acceptCmd w s).op = s.op := rfl
@[simp] theorem acceptCmd_res : (acceptCmd w s).res = s.res := rfl
@[simp] theorem acceptCmd_snap : (acceptCmd w s).snap = s.snap := rfl
@[simp] theorem acceptCmd_seq : (acceptCmd w s).seq = .pos .check 0 := rfl
@[simp] theorem acceptCmd_buf : (acceptCmd w s).buf = s.buf := rfl
@[simp] theorem acceptCmd_tag : (acceptCmd w s).tag = s.tag := rfl
@[simp] theorem acceptCmd_uid : (acceptCmd w s).uid = s.uid := rfl
@[simp] theorem acceptCmd_params : (acceptCmd w s).params = s.params := rfl
@[simp] theorem acceptCmd_inbox : (acceptCmd w s).inbox = s.inbox := rfl
@[simp] theorem acceptCmd_link : (acceptCmd w s).link = s.link := rfl
@[simp] theorem acceptCmd_trace : (acceptCmd w s).trace = s.trace := rfl
@[simp] theorem acceptCmd_hostRd : (acceptCmd w s).hostRd = s.hostRd := rfl
@[simp] theorem acceptCmd_fresh : (acceptCmd w s).fresh = s.fresh := rfl
end

section
variable (s : State)
@[simp] theorem resetPulse_cmd : (resetPulse s).cmd = 0 := rfl
@[simp] theorem resetPulse_status : (resetPulse s).status = 0 := rfl
@[simp] theorem resetPulse_faultcode : (resetPulse s).faultcode = 0 := rfl
@[simp] theorem resetPulse_faultblk : (resetPulse s).faultblk = 0xFFFF := rfl
@[simp] theorem resetPulse_faultfld : (resetPulse s).faultfld = 0xFF := rfl
@[simp] theorem resetPulse_crcexp : (resetPulse s).crcexp = 0 := rfl
@[simp] theorem resetPulse_crcact : (resetPulse s).crcact = 0 := rfl
@[simp] theorem resetPulse_crcreg : (resetPulse s).crcreg = 0xFFFF := rfl
@[simp] theorem resetPulse_opv : (resetPulse s).opv = 0 := rfl
@[simp] theorem resetPulse_oplen : (resetPulse s).oplen = 0 := rfl
@[simp] theorem resetPulse_resv : (resetPulse s).resv = 0 := rfl
@[simp] theorem resetPulse_reslen : (resetPulse s).reslen = 0 := rfl
@[simp] theorem resetPulse_snapv : (resetPulse s).snapv = 0 := rfl
@[simp] theorem resetPulse_op : (resetPulse s).op = Vector.ofFn (fun k => Config.freeOp s.fresh k.val) := rfl
@[simp] theorem resetPulse_res : (resetPulse s).res = resFill s.fresh [] := rfl
@[simp] theorem resetPulse_snap : (resetPulse s).snap = snapFree s.fresh := rfl
@[simp] theorem resetPulse_seq : (resetPulse s).seq = .idle := rfl
@[simp] theorem resetPulse_buf : (resetPulse s).buf = bufFree s.fresh := rfl
@[simp] theorem resetPulse_tag : (resetPulse s).tag = s.tag := rfl
@[simp] theorem resetPulse_uid : (resetPulse s).uid = s.uid := rfl
@[simp] theorem resetPulse_params : (resetPulse s).params = s.params := rfl
@[simp] theorem resetPulse_inbox : (resetPulse s).inbox = s.inbox := rfl
@[simp] theorem resetPulse_link : (resetPulse s).link = s.link := rfl
@[simp] theorem resetPulse_trace : (resetPulse s).trace = s.trace := rfl
@[simp] theorem resetPulse_hostRd : (resetPulse s).hostRd = s.hostRd := rfl
@[simp] theorem resetPulse_fresh : (resetPulse s).fresh = s.fresh + 1 := rfl
end

end Sys2Proof.Machine
end

