-- ==== Sys2Proof/Laws/Exchange.lean ====
section
/-! SUPPORT. What exchanges, block reads and block writes can do, for every environment: one lemma per shared operation says
how it ends; what they give with the well-behaved tag is in `Laws/Behaved.lean`. -/

namespace Sys2Proof.Machine

/-- What exchanges may have moved: blocks `W` of the tag, `CRCREG` only if `C`, the two hidden registers, and the model's
own fields; every other register is as before. -/
structure Moves (W : Nat → Prop) (C : Prop) (s t : State) : Prop where
  operands : OperandsKept s t
  outside  : OutsideKept s t
  snapshot : SnapshotKept s t
  pair     : CrcPairKept s t
  crcreg   : ¬C → t.crcreg = s.crcreg
  status   : t.status = s.status
  bytes    : ∀ a, ¬W (a / 4) → t.tag.byteAt a = s.tag.byteAt a
  tagInv   : TagInv s → TagInv t
  noReset  : NoReset s → NoReset t

/-- What a reset that fell in an operation leaves: the registers at reset, blocks `W` of the tag perhaps moved. -/
structure CutBy (W : Nat → Prop) (s t : State) : Prop where
  atReset : AtReset t
  outside : OutsideKept s t
  bytes   : ∀ a, ¬W (a / 4) → t.tag.byteAt a = s.tag.byteAt a
  tagInv  : TagInv s → TagInv t
  reset   : ¬NoReset s

theorem Moves.refl (W : Nat → Prop) (C : Prop) (s : State) : Moves W C s s :=
  ⟨⟨rfl, rfl, rfl, rfl⟩, ⟨rfl, rfl, rfl⟩, ⟨rfl, rfl⟩, ⟨rfl, rfl⟩, fun _ => rfl, rfl, fun _ _ => rfl, id, id⟩

theorem OperandsKept.trans {s t u : State} (h : OperandsKept s t) (k : OperandsKept t u) : OperandsKept s u :=
  ⟨k.1.trans h.1, k.2.1.trans h.2.1, k.2.2.1.trans h.2.2.1, k.2.2.2.trans h.2.2.2⟩

theorem OutsideKept.trans {s t u : State} (h : OutsideKept s t) (k : OutsideKept t u) : OutsideKept s u :=
  ⟨k.1.trans h.1, k.2.1.trans h.2.1, k.2.2.trans h.2.2⟩

theorem Moves.trans {W : Nat → Prop} {C : Prop} {s t u : State} (h : Moves W C s t) (k : Moves W C t u) :
    Moves W C s u where
  operands := h.operands.trans k.operands
  outside := h.outside.trans k.outside
  snapshot := ⟨k.snapshot.1.trans h.snapshot.1, k.snapshot.2.trans h.snapshot.2⟩
  pair := ⟨k.pair.1.trans h.pair.1, k.pair.2.trans h.pair.2⟩
  crcreg hc := (k.crcreg hc).trans (h.crcreg hc)
  status := k.status.trans h.status
  bytes a ha := (k.bytes a ha).trans (h.bytes a ha)
  tagInv hi := k.tagInv (h.tagInv hi)
  noReset hn := k.noReset (h.noReset hn)

theorem Moves.mono {W W' : Nat → Prop} {C C' : Prop} {s t : State} (h : Moves W C s t) (hW : ∀ n, W n → W' n)
    (hC : C → C') : Moves W' C' s t :=
  { h with crcreg := fun hc => h.crcreg fun c => hc (hC c), bytes := fun a ha => h.bytes a fun w => ha (hW _ w) }

theorem CutBy.mono {W W' : Nat → Prop} {s t : State} (h : CutBy W s t) (hW : ∀ n, W n → W' n) : CutBy W' s t :=
  { h with bytes := fun a ha => h.bytes a fun w => ha (hW _ w) }

/-- A reset that falls in a later part falls in the operation. -/
theorem CutBy.after {W : Nat → Prop} {C : Prop} {s t u : State} (h : Moves W C s t) (k : CutBy W t u) : CutBy W s u where
  atReset := k.atReset
  outside := h.outside.trans k.outside
  bytes a ha := (k.bytes a ha).trans (h.bytes a ha)
  tagInv hi := k.tagInv (h.tagInv hi)
  reset hn := k.reset (h.noReset hn)

/-- No block is written. -/
abbrev noBlock : Nat → Prop := fun _ => False

/-- The block a tag command writes. -/
def writesOf : TagCmd → Nat → Prop
  | .write n _, k => k = n
  | _, _ => False

/-! ### Host accesses beside an exchange -/

/-- A host access while an operation runs changes what the host last read, and the counter, nothing else (R44). -/
theorem hostBusy_eq (a : HostAct) (s : State) :
    ∃ v c, hostBusy a s = { s with hostRd := v, fresh := c } := by
  cases a with
  | write w => exact ⟨s.hostRd, s.fresh, rfl⟩
  | read r =>
    simp only [hostBusy]
    split
    · exact ⟨_, s.fresh, rfl⟩
    · exact ⟨_, _, rfl⟩

theorem hostBusyAll_eq (as : List HostAct) (s : State) :
    ∃ v c, hostBusyAll as s = { s with hostRd := v, fresh := c } := by
  induction as generalizing s with
  | nil => exact ⟨s.hostRd, s.fresh, rfl⟩
  | cons a as ih =>
    obtain ⟨v, c, h⟩ := hostBusy_eq a s
    obtain ⟨v', c', h'⟩ := ih (hostBusy a s)
    refine ⟨v', c', ?_⟩
    rw [hostBusyAll, h', h]

/-! ### One exchange -/

theorem tagAfter_bytes (c : TagCmd) (s : State) (a : Nat) (ha : ¬writesOf c (a / 4)) :
    (tagAfter c s).byteAt a = s.tag.byteAt a := by
  cases c with
  | write n d => exact byteAt_tagStore_other _ _ (fun h => ha (by simp [writesOf, h]))
  | read n => rfl
  | getUid => rfl

theorem tagAfterFailure_bytes (c : TagCmd) (fate : WriteFate) (s : State) (a : Nat) (ha : ¬writesOf c (a / 4)) :
    (tagAfterFailure c fate s).byteAt a = s.tag.byteAt a := by
  cases c with
  | write n d => exact byteAt_tagStore_other _ _ (fun h => ha (by simp [writesOf, h]))
  | read n => rfl
  | getUid => rfl

theorem tagAfter_inv (c : TagCmd) (s : State) (h : TagInv s) :
    Memory.wf (tagAfter c s) = true ∧ Memory.inTag (tagAfter c s) = true := by
  cases c with
  | write n d => exact ⟨wf_tagStore h.1 _ _, inTag_tagStore h.2 _ _⟩
  | read n => exact h
  | getUid => exact h

theorem tagAfterFailure_inv (c : TagCmd) (fate : WriteFate) (s : State) (h : TagInv s) :
    Memory.wf (tagAfterFailure c fate s) = true ∧ Memory.inTag (tagAfterFailure c fate s) = true := by
  cases c with
  | write n d => exact ⟨wf_tagStore h.1 _ _, inTag_tagStore h.2 _ _⟩
  | read n => exact h
  | getUid => exact h

theorem atReset_resetPulse (s : State) : AtReset (resetPulse s) :=
  ⟨rfl, rfl, rfl, rfl, rfl, rfl, rfl, rfl, rfl, rfl, rfl, rfl, rfl, rfl⟩

/-- An exchange as the environment settles it: an answer, with the exchange recorded, or a cut by reset (R63, R77, R283). -/
theorem settle_ends (c : TagCmd) (o : LinkOutcome) (s : State)
    (hr : ¬(o = .resetBefore ∨ ∃ fate, o = .resetDuring fate) ∨ ¬NoReset s) :
    (settle c o s).Ends
      (fun y t => Moves (writesOf c) False s t ∧ t.buf = s.buf ∧ t.trace = ⟨s.seq, c.bytes, some y⟩ :: s.trace)
      (fun _ _ _ _ => False) (CutBy (writesOf c) s) := by
  cases o with
  | behaved =>
    exact ⟨⟨⟨rfl, rfl, rfl, rfl⟩, ⟨rfl, rfl, rfl⟩, ⟨rfl, rfl⟩, ⟨rfl, rfl⟩, fun _ => rfl, rfl, tagAfter_bytes c s,
      tagAfter_inv c s, id⟩, rfl, rfl⟩
  | answers y fate =>
    refine ⟨⟨⟨rfl, rfl, rfl, rfl⟩, ⟨rfl, rfl, rfl⟩, ⟨rfl, rfl⟩, ⟨rfl, rfl⟩, fun _ => rfl, rfl, ?_, ?_, id⟩, rfl, rfl⟩
    · intro a ha
      simp only
      split
      · exact tagAfter_bytes c s a ha
      · exact tagAfterFailure_bytes c fate s a ha
    · intro hi
      simp only [TagInv]
      split
      · exact tagAfter_inv c s hi
      · exact tagAfterFailure_inv c fate s hi
  | resetBefore =>
    exact ⟨atReset_resetPulse s, ⟨rfl, rfl, rfl⟩, fun _ _ => rfl, id, hr.resolve_left (by simp)⟩
  | resetDuring fate =>
    exact ⟨atReset_resetPulse _, ⟨rfl, rfl, rfl⟩, tagAfterFailure_bytes c fate s, tagAfterFailure_inv c fate s,
      hr.resolve_left (by simp)⟩

/-- `Transmit`: an answer, with the exchange recorded, or a cut by reset (R63, R283). -/
theorem transmit_ends (q : Seq) (c : TagCmd) (s : State) :
    (transmit q c s).Ends
      (fun y t => Moves (writesOf c) False s t ∧ t.buf = s.buf ∧ t.trace = ⟨q, c.bytes, some y⟩ :: s.trace)
      (fun _ _ _ _ => False) (CutBy (writesOf c) s) := by
  unfold transmit
  split
  · rename_i hl
    refine (settle_ends c .behaved { s with seq := q } (.inl (by simp))).mono ?_ (fun _ _ _ _ h => h) ?_
    · rintro y t ⟨h, hb, ht⟩
      exact ⟨{ h with }, hb, ht⟩
    · intro t h
      exact { h with }
  · rename_i e es hl
    obtain ⟨v, n, hh⟩ := hostBusyAll_eq e.host { s with seq := q, link := es }
    rw [hh]
    have hsub : NoReset s → NoReset { s with seq := q, link := es, hostRd := v, fresh := n } :=
      fun hn e' he' => hn e' (by rw [hl]; exact List.mem_cons_of_mem _ he')
    have hor : ¬(e.outcome = .resetBefore ∨ ∃ fate, e.outcome = .resetDuring fate) ∨ ¬NoReset s := by
      by_cases hx : e.outcome = .resetBefore ∨ ∃ fate, e.outcome = .resetDuring fate
      · refine .inr fun hn => ?_
        have := hn e (by rw [hl]; exact List.mem_cons_self)
        rcases hx with hx | ⟨fate, hx⟩
        · exact this.1 hx
        · exact this.2 fate hx
      · exact .inl hx
    cases ho : e.outcome with
    | behaved =>
      refine (settle_ends c .behaved _ (.inl (by simp))).mono ?_ (fun _ _ _ _ h => h) ?_
      · rintro y t ⟨h, hb, ht⟩
        exact ⟨{ h with noReset := fun hn => h.noReset (hsub hn) }, hb, ht⟩
      · intro t h
        exact { h with reset := fun hn => h.reset (hsub hn) }
    | answers y fate =>
      refine (settle_ends c (.answers y fate) _ (.inl (by simp))).mono ?_ (fun _ _ _ _ h => h) ?_
      · rintro y t ⟨h, hb, ht⟩
        exact ⟨{ h with noReset := fun hn => h.noReset (hsub hn) }, hb, ht⟩
      · intro t h
        exact { h with reset := fun hn => h.reset (hsub hn) }
    | resetBefore =>
      rw [ho] at hor
      exact ⟨atReset_resetPulse _, ⟨rfl, rfl, rfl⟩, fun _ _ => rfl, id, hor.resolve_left (by simp)⟩
    | resetDuring fate =>
      rw [ho] at hor
      exact ⟨atReset_resetPulse _, ⟨rfl, rfl, rfl⟩, fun a ha => tagAfterFailure_bytes c fate _ a ha,
        fun hi => tagAfterFailure_inv c fate _ hi, hor.resolve_left (by simp)⟩

/-! ### Block transport -/

/-- `check_status`: the answer carries 90 00 and the data is what stands before it, or `TransportFault` (R122). -/
theorem checkStatus_ends (y : Answer) (b : BitVec 16) (d : BitVec 8) (s : State) :
    (checkStatus y b d s).Ends (fun _ t => t = s) (fun f b' d' t => f = .transportFault ∧ b' = b ∧ d' = d ∧ t = s)
      (fun _ => False) := by
  unfold checkStatus
  split
  · exact ⟨rfl, rfl, rfl, rfl⟩
  · split
    · rfl
    · exact ⟨rfl, rfl, rfl, rfl⟩

/-- How a block read of a block the tag has can end (R123): its data in `BUF`, or a fault about it. -/
theorem readBlock_ends (q : Seq) {n : Nat} (hn : n ≤ 48) (fld : BitVec 8) (s : State) :
    (readBlock q n fld s).Ends
      (fun b t => Moves noBlock False s t ∧ t.buf = s.buf.setIfInBounds n b ∧
        t.trace = ⟨q, TagCmd.bytes (.read n), some (.resp (b.toList ++ [0x90#8, 0x00#8]))⟩ :: s.trace)
      (fun f b d t => Moves noBlock False s t ∧ (f = .transportFault ∨ f = .decodeFault) ∧ b = BitVec.ofNat 16 n ∧ d = fld ∧
        t.trace.length = s.trace.length + 1)
      (CutBy noBlock s) := by
  unfold readBlock
  rw [if_neg (by simp [Config.maxBlock]; omega)]
  have h1 := transmit_ends q (.read n) s
  cases ht : transmit q (.read n) s with
  | raised f b d t => rw [ht] at h1; exact h1.elim
  | cut t =>
    rw [ht] at h1
    exact h1
  | ok y t =>
    rw [ht] at h1
    obtain ⟨hm, hb, htr⟩ := h1
    replace hm : Moves noBlock False s t := hm
    have hlen : t.trace.length = s.trace.length + 1 := by rw [htr]; rfl
    simp only [andThen_ok]
    cases y with
    | err => exact ⟨hm, .inl rfl, rfl, rfl, hlen⟩
    | resp r =>
      simp only [checkStatus]
      split
      · rename_i hok
        simp only [andThen_ok]
        cases ho : Block.ofBytes (r.take (r.length - 2)) with
        | none => exact ⟨hm, .inr rfl, rfl, rfl, hlen⟩
        | some b =>
          refine ⟨{ hm with }, by simp [hb], ?_⟩
          simp only [htr]
          have hr : r = b.toList ++ [0x90#8, 0x00#8] := by
            simp only [statusOk, Bool.and_eq_true, decide_eq_true_eq, beq_iff_eq] at hok
            have h2 : r.take (r.length - 2) = b.toList := by
              revert ho
              generalize r.take (r.length - 2) = l
              intro ho
              match l, ho with
              | [a, b', c, d], ho => cases ho; rfl
            rw [← h2, ← hok.2]
            exact (List.take_append_drop _ r).symm
          rw [hr]
      · exact ⟨hm, .inl rfl, rfl, rfl, hlen⟩

/-- How a block write of a block the tag has can end (R125). -/
theorem writeBlock_ends (q : Seq) {n : Nat} (hn : n ≤ 48) (d : Block) (fld : BitVec 8) (s : State) :
    (writeBlock q n d fld s).Ends
      (fun _ t => Moves (· = n) False s t ∧ t.buf = s.buf)
      (fun f b d t => Moves (· = n) False s t ∧ f = .transportFault ∧ b = BitVec.ofNat 16 n ∧ d = fld)
      (CutBy (· = n) s) := by
  unfold writeBlock
  rw [if_neg (by simp [Config.maxBlock]; omega)]
  have h1 := transmit_ends q (.write n d) s
  cases ht : transmit q (.write n d) s with
  | raised f b d t => rw [ht] at h1; exact h1.elim
  | cut t => rw [ht] at h1; exact h1
  | ok y t =>
    rw [ht] at h1
    obtain ⟨hm, hb, -⟩ := h1
    replace hm : Moves (· = n) False s t := hm
    simp only [andThen_ok]
    have h2 := checkStatus_ends y (BitVec.ofNat 16 n) fld t
    cases hc : checkStatus y (BitVec.ofNat 16 n) fld t with
    | ok data u =>
      rw [hc] at h2
      obtain rfl : u = t := h2
      exact ⟨hm, hb⟩
    | raised f b e u =>
      rw [hc] at h2
      obtain ⟨rfl, rfl, rfl, rfl⟩ := h2
      exact ⟨hm, rfl, rfl, rfl⟩
    | cut u => rw [hc] at h2; exact h2.elim

/-- How a list of block reads can end (R149, R202). -/
theorem readBlocks_ends (ph : Phase) (fld : BitVec 8) {ns : List Nat} (hn : ∀ n ∈ ns, n ≤ 48) (i : Nat) (s : State) :
    (readBlocks ph fld ns i s).Ends
      (fun _ t => Moves noBlock False s t)
      (fun f b d t => Moves noBlock False s t ∧ (f = .transportFault ∨ f = .decodeFault) ∧
        (∃ n ∈ ns, b = BitVec.ofNat 16 n) ∧ d = fld)
      (CutBy noBlock s) := by
  induction ns generalizing i s with
  | nil => exact Moves.refl _ _ s
  | cons n ns ih =>
    simp only [readBlocks]
    refine (Run.Ends.mono (readBlock_ends (.pos ph i) (hn n List.mem_cons_self) fld s) (fun b t h => h.1) ?_
      (fun t h => h)).andThen ?_
    · rintro f b d t ⟨hm, hf, rfl, rfl, -⟩
      exact ⟨hm, hf, ⟨n, List.mem_cons_self, rfl⟩, rfl⟩
    · intro b t hm
      refine (ih (fun k hk => hn k (List.mem_cons_of_mem _ hk)) (i + 1) t).mono (fun _ u hu => hm.trans hu) ?_
        (fun u hu => hu.after hm)
      rintro f b d u ⟨hu, hf, ⟨k, hk, rfl⟩, rfl⟩
      exact ⟨hm.trans hu, hf, ⟨k, List.mem_cons_of_mem _ hk, rfl⟩, rfl⟩

/-- How a list of block writes can end (R233, R235). -/
theorem writeBlocks_ends (ph : Phase) (fld : BitVec 8) {ws : List (Nat × Block)} (hn : ∀ w ∈ ws, w.1 ≤ 48) (i : Nat)
    (s : State) :
    (writeBlocks ph fld ws i s).Ends
      (fun _ t => Moves (fun n => ∃ w ∈ ws, n = w.1) False s t ∧ t.buf = s.buf)
      (fun f b d t => Moves (fun n => ∃ w ∈ ws, n = w.1) False s t ∧ f = .transportFault ∧
        (∃ w ∈ ws, b = BitVec.ofNat 16 w.1) ∧ d = fld)
      (CutBy (fun n => ∃ w ∈ ws, n = w.1) s) := by
  induction ws generalizing i s with
  | nil => exact ⟨Moves.refl _ _ s, rfl⟩
  | cons w ws ih =>
    obtain ⟨n, d⟩ := w
    have hhd : ∀ k, k = n → ∃ w ∈ (n, d) :: ws, k = w.1 := fun k hk => ⟨(n, d), List.mem_cons_self, hk⟩
    have htl : ∀ k, (∃ w ∈ ws, k = w.1) → ∃ w ∈ (n, d) :: ws, k = w.1 :=
      fun k ⟨w, hw, h⟩ => ⟨w, List.mem_cons_of_mem _ hw, h⟩
    simp only [writeBlocks]
    refine (Run.Ends.mono (writeBlock_ends (.pos ph i) (hn (n, d) List.mem_cons_self) d fld s)
      (ok₂ := fun _ t => Moves (fun k => ∃ w ∈ (n, d) :: ws, k = w.1) False s t ∧ t.buf = s.buf)
      (fun _ t h => ⟨h.1.mono hhd id, h.2⟩) ?_ (fun t h => h.mono hhd)).andThen ?_
    · rintro f b e t ⟨hm, rfl, rfl, rfl⟩
      exact ⟨hm.mono hhd id, rfl, ⟨(n, d), List.mem_cons_self, rfl⟩, rfl⟩
    · rintro _ t ⟨hm, hb⟩
      refine (ih (fun k hk => hn k (List.mem_cons_of_mem _ hk)) (i + 1) t).mono
        (fun _ u hu => ⟨hm.trans (hu.1.mono htl id), hu.2.trans hb⟩) ?_ (fun u hu => (hu.mono htl).after hm)
      rintro f b d u ⟨hu, rfl, ⟨w, hw, rfl⟩, rfl⟩
      exact ⟨hm.trans (hu.mono htl id), rfl, ⟨w, List.mem_cons_of_mem _ hw, rfl⟩, rfl⟩

end Sys2Proof.Machine
end

