-- ==== Sys2Proof/Laws/Results.lean ====
section
/-! SUPPORT. The two ends of an operation, `finish` and `raiseFault`, in the words of `Safety.lean`. -/

namespace Sys2Proof.Machine

variable {s t : State}

/-- The valid bytes of `RES` after a normal end are the result's bytes, if they fit. -/
theorem resBytes_finish (r : Result) (t : State) (h : r.bytes.length ≤ 192) : resBytes (finish r t) = r.bytes := by
  have hl : (BitVec.ofNat 16 (2 * r.bytes.length)).toNat = 2 * r.bytes.length := by
    rw [BitVec.toNat_ofNat]; omega
  simp only [resBytes, finish_res, finish_reslen, hl, resFill]
  rw [show (2 * r.bytes.length + 1) / 2 = r.bytes.length by omega]
  apply List.ext_getElem
  · simp; omega
  · intro k h1 h2
    simp [h2]

theorem reslen_finish (r : Result) (t : State) (h : r.bytes.length ≤ 192) :
    (finish r t).reslen.toNat = 2 * r.bytes.length := by
  rw [finish_reslen, BitVec.toNat_ofNat]; omega

/-- A normal end (R43). -/
theorem normalEnd_finish (r : Result) (t : State) : NormalEnd (finish r t) r.crcok r.unk :=
  ⟨rfl, rfl, rfl, rfl, rfl⟩

/-- A faulted end other than `CrcMismatch` (R256). -/
theorem faultedEnd_raise {f : FaultKind} (hf : f ≠ .crcMismatch) (blk : BitVec 16) (fld : BitVec 8) (t : State) :
    FaultedEnd (raiseFault f blk fld t) f.code blk fld 0 :=
  ⟨rfl, rfl, rfl, rfl, if_neg hf, rfl, rfl⟩

/-- The faulted end of `CrcMismatch` (R255, R256). -/
theorem faultedEnd_crcMismatch (blk : BitVec 16) (fld : BitVec 8) (t : State) :
    FaultedEnd (raiseFault .crcMismatch blk fld t) 4 blk fld (t.crcexp.setWidth 64) :=
  ⟨rfl, rfl, rfl, rfl, rfl, rfl, rfl⟩

theorem OnlyResult.finish {r : Result} (h : OnlyResult s t) : OnlyResult s (finish r t) := h

theorem OnlyResult.raise {f : FaultKind} {blk : BitVec 16} {fld : BitVec 8} (h : OnlyResult s t) :
    OnlyResult s (raiseFault f blk fld t) := h

theorem OnlyResult.refl (s : State) : OnlyResult s s :=
  ⟨⟨rfl, rfl, rfl, rfl⟩, ⟨rfl, rfl, rfl⟩, ⟨rfl, rfl⟩, ⟨rfl, rfl⟩, rfl⟩

/-- Exchanges that compute no CRC keep all but result, status and fault record. -/
theorem Moves.onlyResult {W : Nat → Prop} (h : Moves W False s t) : OnlyResult s t :=
  ⟨h.operands, h.outside, h.snapshot, h.pair, h.crcreg id⟩

/-- Exchanges that write no block keep the tag. -/
theorem Moves.tagKept {C : Prop} (h : Moves noBlock C s t) : TagKept s t := fun a => h.bytes a id

theorem CutBy.tagKept (h : CutBy noBlock s t) : TagKept s t := fun a => h.bytes a id

end Sys2Proof.Machine
end

