-- ==== Sys2Proof/Laws/Commands.lean ====
section
/-! SUPPORT. How each host command can end, whatever the environment does: one lemma per shared operation and per command. -/

namespace Sys2Proof.Machine

/-- The shape of every command but `CRC.VALIDATE`, `CFG.READALL` and `CFG.ERASE`: exchanges that may write blocks `W` and,
only if `C`, `CRCREG`; no comparison; an `EncodingFault` is raised before anything else happens. -/
def Ordinary (W : Nat → Prop) (C : Prop) (s : State) (r : Run Result) : Prop :=
  r.Ends (fun a t => Moves W C s t ∧ a.crcok = false ∧ a.bytes.length ≤ 192)
    (fun f _ _ t => Moves W C s t ∧ f ≠ .crcMismatch ∧ (f = .encodingFault → t = s))
    (CutBy W s)

/-- A fault that only an exchange raises. -/
def FaultKind.ofExchange (f : FaultKind) : Prop := f = .transportFault ∨ f = .decodeFault

theorem FaultKind.ofExchange.ne {f : FaultKind} (h : f.ofExchange) :
    f ≠ .crcMismatch ∧ f ≠ .encodingFault ∧ f ≠ .unknownBeaconType := by
  rcases h with rfl | rfl <;> decide

/-- Exchanges that end well, or in a fault of their own. -/
def Exchanging {α : Type} (W : Nat → Prop) (C : Prop) (s : State) (r : Run α) : Prop :=
  r.Ends (fun _ t => Moves W C s t) (fun f _ _ t => Moves W C s t ∧ f.ofExchange) (CutBy W s)

/-- After exchanges, the rest of an ordinary command that raises no `EncodingFault` of its own. -/
theorem Exchanging.andThen {α : Type} {W : Nat → Prop} {C : Prop} {s : State} {r : Run α} {k : α → State → Run Result}
    (h : Exchanging W C s r)
    (hk : ∀ a t, r = .ok a t → Moves W C s t →
      (k a t).Ends (fun b u => Moves W C t u ∧ b.crcok = false ∧ b.bytes.length ≤ 192)
        (fun f _ _ u => Moves W C t u ∧ f ≠ .crcMismatch ∧ f ≠ .encodingFault) (CutBy W t)) :
    Ordinary W C s (r.andThen k) := by
  cases r with
  | raised f b d t => exact ⟨h.1, h.2.ne.1, fun hf => absurd hf h.2.ne.2.1⟩
  | cut t => exact h
  | ok a t =>
    have hm : Moves W C s t := h
    exact (hk a t rfl hm).mono (fun b u hu => ⟨hm.trans hu.1, hu.2⟩)
      (fun f _ _ u hu => ⟨hm.trans hu.1, hu.2.1, fun hf => absurd hf hu.2.2⟩) (fun u hu => hu.after hm)

theorem Exchanging.mono {α : Type} {W W' : Nat → Prop} {C C' : Prop} {s : State} {r : Run α} (h : Exchanging W C s r)
    (hW : ∀ n, W n → W' n) (hC : C → C') : Exchanging W' C' s r :=
  Run.Ends.mono h (fun _ _ hm => hm.mono hW hC) (fun _ _ _ _ hm => ⟨hm.1.mono hW hC, hm.2⟩) (fun _ hc => hc.mono hW)

/-- Exchanges that follow exchanges. -/
theorem Exchanging.after {α : Type} {W : Nat → Prop} {C : Prop} {s t : State} {r : Run α} (h : Exchanging W C t r)
    (hm : Moves W C s t) : Exchanging W C s r :=
  Run.Ends.mono h (fun _ _ hu => hm.trans hu) (fun _ _ _ _ hu => ⟨hm.trans hu.1, hu.2⟩) (fun _ hu => hu.after hm)

theorem Exchanging.bind {α β : Type} {W : Nat → Prop} {C : Prop} {s : State} {r : Run α} {k : α → State → Run β}
    (h : Exchanging W C s r) (hk : ∀ a t, r = .ok a t → Moves W C s t → Exchanging W C t (k a t)) :
    Exchanging W C s (r.andThen k) := by
  cases r with
  | raised f b d t => exact h
  | cut t => exact h
  | ok a t =>
    exact (hk a t rfl h).after h

theorem Exchanging.readBlock (q : Seq) {n : Nat} (hn : n ≤ 48) (fld : BitVec 8) (s : State) :
    Exchanging noBlock False s (readBlock q n fld s) :=
  (readBlock_ends q hn fld s).mono (fun _ _ h => h.1) (fun _ _ _ _ h => ⟨h.1, h.2.1⟩) (fun _ h => h)

theorem Exchanging.writeBlock (q : Seq) {n : Nat} (hn : n ≤ 48) (d : Block) (fld : BitVec 8) (s : State) :
    Exchanging (· = n) False s (writeBlock q n d fld s) :=
  (writeBlock_ends q hn d fld s).mono (fun _ _ h => h.1) (fun _ _ _ _ h => ⟨h.1, .inl h.2.1⟩) (fun _ h => h)

theorem Exchanging.readBlocks (ph : Phase) (fld : BitVec 8) {ns : List Nat} (hn : ∀ n ∈ ns, n ≤ 48) (i : Nat) (s : State) :
    Exchanging noBlock False s (readBlocks ph fld ns i s) :=
  (readBlocks_ends ph fld hn i s).mono (fun _ _ h => h) (fun _ _ _ _ h => ⟨h.1, h.2.1⟩) (fun _ h => h)

theorem Exchanging.writeBlocks (ph : Phase) (fld : BitVec 8) {ws : List (Nat × Block)} (hn : ∀ w ∈ ws, w.1 ≤ 48) (i : Nat)
    (s : State) : Exchanging (fun n => ∃ w ∈ ws, n = w.1) False s (writeBlocks ph fld ws i s) :=
  (writeBlocks_ends ph fld hn i s).mono (fun _ _ h => h.1) (fun _ _ _ _ h => ⟨h.1, .inl h.2.1⟩) (fun _ h => h)

theorem noBlock_imp (W : Nat → Prop) : ∀ n, noBlock n → W n := fun _ h => h.elim

theorem mem_range48 {n : Nat} (hn : n ∈ List.range Config.cfgBlocks) : n ≤ 48 := by
  have := List.mem_range.mp hn
  simp only [Config.cfgBlocks] at this
  omega

/-- `read_region` (R149). -/
theorem readRegion_ends (fld : BitVec 8) (s : State) : Exchanging noBlock False s (readRegion fld s) := by
  unfold readRegion
  exact (Exchanging.readBlocks .regionRead fld (fun n hn => mem_range48 hn) 0 s).bind fun _ t _ _ => Moves.refl _ _ t

/-- A change of `CRCREG` alone. -/
theorem Moves.crcreg_set (W : Nat → Prop) (c : BitVec 16) (s : State) : Moves W True s { s with crcreg := c } :=
  ⟨⟨rfl, rfl, rfl, rfl⟩, ⟨rfl, rfl, rfl⟩, ⟨rfl, rfl⟩, ⟨rfl, rfl⟩, fun h => absurd trivial h, rfl, fun _ _ => rfl, id, id⟩

/-- `recompute` (R151): only block 48 may be written, and a fault that is not about block 48 leaves it. -/
theorem recompute_ends (fld : BitVec 8) (s : State) : Exchanging (· = 48) True s (recompute fld s) := by
  unfold recompute
  refine ((readRegion_ends fld s).mono (noBlock_imp _) False.elim).bind fun region t _ _ => ?_
  have h48 : Config.crcBlock ≤ 48 := le_refl 48
  have hw := (Exchanging.writeBlock (.pos .crcWrite 0) h48 (encStore (crc16 region)) fld
    { t with crcreg := crc16 region }).mono (W' := (· = 48)) (C' := True) (fun _ h => h) False.elim
  have hb : Exchanging (· = 48) True { t with crcreg := crc16 region }
      ((Machine.writeBlock (.pos .crcWrite 0) Config.crcBlock (encStore (crc16 region)) fld
        { t with crcreg := crc16 region }).andThen fun _ s => .ok (crc16 region) s) :=
    hw.bind fun _ u _ _ => Moves.refl _ _ u
  exact hb.after (Moves.crcreg_set (· = 48) (crc16 region) t)

/-- A fault of `recompute` that is not about block 48 leaves every byte of the tag (R151). -/
theorem recompute_raised (fld : BitVec 8) (s : State) :
    (recompute fld s).Ends (fun _ _ => True) (fun _ b _ t => b ≠ 48 → TagKept s t) (fun _ => True) := by
  unfold recompute
  cases hr : readRegion fld s with
  | cut t => trivial
  | raised f b d t =>
    have h := readRegion_ends fld s
    rw [hr] at h
    exact fun _ => h.1.tagKept
  | ok region t =>
    simp only [andThen_ok]
    have h := writeBlock_ends (.pos .crcWrite 0) (le_refl 48) (encStore (crc16 region)) fld { t with crcreg := crc16 region }
    simp only [Config.crcBlock]
    cases hw : writeBlock (.pos .crcWrite 0) 48 (encStore (crc16 region)) fld { t with crcreg := crc16 region } with
    | ok a u => trivial
    | cut u => trivial
    | raised f b d u =>
      rw [hw] at h
      intro hb
      exact absurd h.2.2.1 hb

/-- The state of the CRC registers after a comparison. -/
def compared (c d : BitVec 16) (u : State) : State := { u with crcreg := c, crcexp := c, crcact := d }

theorem crcCompare_eq (c d : BitVec 16) (s : State) :
    crcCompare c d s = if c = d then .ok { resv := c.setWidth 64, crcok := true } (compared c d s)
      else .raised .crcMismatch 48 0xFF (compared c d s) := rfl

/-- `CRC.VALIDATE` (R150): success with equal CRCs; a fault of a read; a mismatch with the values compared. -/
theorem validate_ends (s : State) :
    (validate s).Ends
      (fun r t => ∃ u c, Moves noBlock False s u ∧ t = compared c c u ∧ r = { resv := c.setWidth 64, crcok := true })
      (fun f b d t => Moves noBlock False s t ∧ f.ofExchange ∨
        ∃ u c e, c ≠ e ∧ Moves noBlock False s u ∧ t = compared c e u ∧ f = .crcMismatch ∧ b = 48 ∧ d = 0xFF)
      (CutBy noBlock s) := by
  unfold validate
  have hr := readRegion_ends 0xFF s
  cases he : readRegion 0xFF s with
  | cut t => rw [he] at hr; exact hr
  | raised f b d t => rw [he] at hr; exact .inl hr
  | ok region t =>
    rw [he] at hr
    have hm : Moves noBlock False s t := hr
    simp only [andThen_ok]
    have h48 : Config.crcBlock ≤ 48 := le_refl 48
    have hb := Exchanging.readBlock (.pos .crcRead 0) h48 0xFF t
    cases hc : readBlock (.pos .crcRead 0) Config.crcBlock 0xFF t with
    | cut u => rw [hc] at hb; exact CutBy.after hm hb
    | raised f b d u => rw [hc] at hb; exact .inl ⟨hm.trans hb.1, hb.2⟩
    | ok b48 u =>
      rw [hc] at hb
      have hu : Moves noBlock False t u := hb
      simp only [andThen_ok, crcCompare_eq]
      split
      · rename_i heq
        rw [← heq]
        exact ⟨u, _, hm.trans hu, rfl, rfl⟩
      · rename_i hne
        exact .inr ⟨u, _, _, hne, hm.trans hu, rfl, rfl, rfl, rfl⟩

/-! ### Block transport -/

theorem rdblkRun_ends (blk : Nat) (s : State) : Ordinary noBlock False s (rdblkRun blk s) := by
  unfold rdblkRun
  by_cases hn : blk ≤ 48
  · exact (Exchanging.readBlock _ hn _ s).andThen fun b t _ _ => ⟨Moves.refl _ _ t, rfl, by simp [Block.toList]⟩
  · unfold readBlock
    rw [if_pos (by simp [Config.maxBlock]; omega)]
    exact ⟨Moves.refl _ _ s, by simp, fun _ => rfl⟩

theorem wrblkRun_ends (blk : Nat) (s : State) : Ordinary (· = blk) False s (wrblkRun blk s) := by
  unfold wrblkRun
  split
  · exact ⟨Moves.refl _ _ s, by simp, fun _ => rfl⟩
  · by_cases hn : blk ≤ 48
    · exact (Exchanging.writeBlock _ hn _ _ s).andThen fun b t _ _ => ⟨Moves.refl _ _ t, rfl, by simp⟩
    · unfold writeBlock
      rw [if_pos (by simp [Config.maxBlock]; omega)]
      exact ⟨Moves.refl _ _ s, by simp, fun _ => rfl⟩

theorem getUid_ends (q : Seq) (s : State) : Exchanging noBlock False s (getUid q s) := by
  unfold getUid
  have h := transmit_ends q .getUid s
  cases ht : transmit q .getUid s with
  | raised f b d t => rw [ht] at h; exact h.elim
  | cut t => rw [ht] at h; exact h
  | ok y t =>
    rw [ht] at h
    have hm : Moves noBlock False s t := h.1
    exact (checkStatus_ends y 0xFFFF 0xFF t).mono (fun _ _ h => h ▸ hm)
      (fun _ _ _ _ h => ⟨h.2.2.2 ▸ hm, .inl h.1⟩) (fun _ h => h.elim)

theorem getuidRun_ends (s : State) : Ordinary noBlock False s (getuidRun s) := by
  unfold getuidRun
  refine (getUid_ends _ s).andThen fun u t _ _ => ?_
  split
  · rename_i h
    simp only [uidLengthOk, Bool.and_eq_true, decide_eq_true_eq] at h
    exact ⟨Moves.refl _ _ t, rfl, h.1⟩
  · exact ⟨Moves.refl _ _ t, by simp, by simp⟩

/-! ### The CRC engine -/

theorem crcComputeRun_ends (s : State) : Ordinary noBlock True s (crcComputeRun s) := by
  unfold crcComputeRun
  split
  · exact ⟨Moves.refl _ _ s, by simp, fun _ => rfl⟩
  · exact ⟨Moves.crcreg_set _ _ s, rfl, by simp⟩

theorem crcEncRun_ends (s : State) : Ordinary noBlock False s (crcEncRun s) := by
  unfold crcEncRun
  split
  · exact ⟨Moves.refl _ _ s, by simp, fun _ => rfl⟩
  · exact ⟨Moves.refl _ _ s, rfl, by simp [Block.toList]⟩

theorem crcDecRun_ends (s : State) : Ordinary noBlock False s (crcDecRun s) := by
  unfold crcDecRun
  split
  · exact ⟨Moves.refl _ _ s, by simp, fun _ => rfl⟩
  · exact ⟨Moves.refl _ _ s, rfl, by simp⟩

theorem crcRecomputeRun_ends (s : State) :
    Ordinary (· = 48) True s ((recompute 0xFF s).andThen fun c s => .ok { resv := c.setWidth 64 } s) :=
  (recompute_ends 0xFF s).andThen fun _ t _ _ => ⟨Moves.refl _ _ t, rfl, by simp⟩

/-! ### Fields -/

theorem fieldBytes_length (d : Descriptor) (c : List Byte) : (fieldBytes d c).length ≤ c.length := by
  simp [fieldBytes]

theorem trimTail_length {α : Type} (p : α → Bool) (l : List α) : (trimTail p l).length ≤ l.length := by
  induction l with
  | nil => simp [trimTail]
  | cons x xs ih =>
    simp only [trimTail]
    split
    · split <;> simp
    · rename_i h
      rw [h] at ih
      simpa using ih

theorem codeUnits_length (l : List Byte) : 2 * (codeUnits l).length ≤ l.length := by
  induction l using codeUnits.induct with
  | case1 h l rest ih => simp only [codeUnits, List.length_cons]; omega
  | case2 l h => rw [codeUnits]; · simp
                 · exact h

theorem flatMap_pair_length (l : List (Byte × Byte)) : (l.flatMap fun u => [u.1, u.2]).length = 2 * l.length := by
  induction l with
  | nil => rfl
  | cons u us ih => simp only [List.flatMap_cons, List.length_append, ih, List.length_cons, List.length_nil]; omega

theorem decodeEnum_ne_bytes (p : Params) (d : Descriptor) (code : Byte) (bs : List Byte) :
    decodeEnum p d code ≠ .bytes bs := by
  unfold decodeEnum
  split
  · simp
  · split <;> simp

/-- The bytes a decode rule delivers are at most the bytes it reads. -/
theorem decodeBytes_length {p : Params} {d : Descriptor} {c bs : List Byte} (h : decodeBytes p d c = .bytes bs) :
    bs.length ≤ c.length := by
  have hf := fieldBytes_length d c
  unfold decodeBytes at h
  split at h <;> first | exact absurd h (decodeEnum_ne_bytes _ _ _ _) | simp only [DecVal.bytes.injEq, reduceCtorEq] at h
  · exact h ▸ hf
  · exact h ▸ hf
  · subst h
    exact (trimTail_length _ _).trans hf
  · subst h
    unfold utf16Trim
    have h2 := codeUnits_length (fieldBytes d c)
    have h3 := trimTail_length (fun u : Byte × Byte => u.1 == 0#8 && u.2 == 0#8) (codeUnits (fieldBytes d c))
    rw [flatMap_pair_length]
    omega

theorem cat_length (img : Vector Block 49) (b n : Nat) : (cat img b n).length = 4 * n := by
  unfold cat
  induction n with
  | zero => rfl
  | succ n ih => rw [List.range_succ, List.flatMap_append, List.length_append, ih]; simp [Block.toList]; omega

theorem tagCat_length (m : Memory) (b n : Nat) : (tagCat m b n).length = 4 * n := by
  unfold tagCat
  induction n with
  | zero => rfl
  | succ n ih => rw [List.range_succ, List.flatMap_append, List.length_append, ih]; simp [Block.toList]; omega

theorem withDesc_some {α : Type} {f : Nat} {s : State} {d : Descriptor} (h : desc s.params f = some d)
    (k : Descriptor → Run α) : withDesc f s k = k d := by
  simp [withDesc, h]

theorem withDesc_none {α : Type} {f : Nat} {s : State} (h : desc s.params f = none) (k : Descriptor → Run α) :
    withDesc f s k = .raised .encodingFault 0xFFFF (fldId f) s := by
  simp [withDesc, h]

theorem withEncoded_some {α : Type} {f : Nat} {d : Descriptor} {s : State} {data mask : List Byte}
    (h : encodeField s.params d (operandOf s) = some (data, mask)) (k : List Byte → List Byte → Run α) :
    withEncoded f d s k = k data mask := by
  simp [withEncoded, h]

theorem withEncoded_none {α : Type} {f : Nat} {d : Descriptor} {s : State}
    (h : encodeField s.params d (operandOf s) = none) (k : List Byte → List Byte → Run α) :
    withEncoded f d s k = .raised .encodingFault 0xFFFF (fldId f) s := by
  simp [withEncoded, h]

theorem field_blocks {d : Descriptor} (h : d.blk0 + d.nblk ≤ 48) :
    ∀ n ∈ (List.range d.nblk).map (d.blk0 + ·), n ≤ 48 := by
  intro n hn
  obtain ⟨j, hj, rfl⟩ := List.mem_map.mp hn
  have := List.mem_range.mp hj
  omega

theorem deliver_ends {d : Descriptor} {f : Nat} {v : DecVal} {s : State}
    (hv : ∀ bs, v = .bytes bs → bs.length ≤ 192) :
    (deliver d f v s).Ends (fun b u => Moves noBlock False s u ∧ b.crcok = false ∧ b.bytes.length ≤ 192)
      (fun g _ _ u => Moves noBlock False s u ∧ g ≠ .crcMismatch ∧ g ≠ .encodingFault) (CutBy noBlock s) := by
  cases v with
  | num n u => exact ⟨Moves.refl _ _ s, rfl, by simp⟩
  | bytes bs => exact ⟨Moves.refl _ _ s, rfl, hv bs rfl⟩
  | unmapped => exact ⟨Moves.refl _ _ s, by simp, by simp⟩

theorem decodeField_length {p : Params} {d : Descriptor} {img : Vector Block 49} {bs : List Byte} (hd : d.nblk ≤ 24)
    (h : decodeField p d img = .bytes bs) : bs.length ≤ 192 := by
  have := decodeBytes_length h
  rw [cat_length] at this
  omega

theorem fldRdRun_ends (f : Nat) (s : State) : Ordinary noBlock False s (fldRdRun f s) := by
  unfold fldRdRun
  cases hd : desc s.params f with
  | none =>
    rw [withDesc_none hd]
    exact ⟨Moves.refl _ _ s, by simp, fun _ => rfl⟩
  | some d =>
    rw [withDesc_some hd]
    obtain ⟨-, h24, h48⟩ := desc_blocks hd
    exact (Exchanging.readBlocks _ _ (field_blocks h48) 0 s).andThen fun _ t _ _ =>
      deliver_ends fun bs hbs => decodeField_length h24 hbs

theorem fldDecRun_ends (f : Nat) (s : State) : Ordinary noBlock False s (fldDecRun f s) := by
  unfold fldDecRun
  cases hd : desc s.params f with
  | none =>
    rw [withDesc_none hd]
    exact ⟨Moves.refl _ _ s, by simp, fun _ => rfl⟩
  | some d =>
    rw [withDesc_some hd]
    obtain ⟨-, h24, -⟩ := desc_blocks hd
    split
    · exact ⟨Moves.refl _ _ s, by simp, fun _ => rfl⟩
    · exact (deliver_ends fun bs hbs => decodeField_length h24 hbs).mono (fun _ _ h => h)
        (fun g _ _ u h => ⟨h.1, h.2.1, fun hg => absurd hg h.2.2⟩) (fun _ h => h)

end Sys2Proof.Machine
end

