-- ==== Sys2Proof/Laws/Aggregate.lean ====
section
/-! SUPPORT. How `FLD.ENC` and the aggregate commands can end, whatever the environment does. -/

namespace Sys2Proof.Machine

theorem fldEncRun_ends (f : Nat) (s : State) : Ordinary noBlock False s (fldEncRun f s) := by
  unfold fldEncRun
  cases hd : desc s.params f with
  | none =>
    rw [withDesc_none hd]
    exact ⟨Moves.refl _ _ s, by simp, fun _ => rfl⟩
  | some d =>
    rw [withDesc_some hd]
    cases he : encodeField s.params d (operandOf s) with
    | none =>
      rw [withEncoded_none he]
      exact ⟨Moves.refl _ _ s, by simp, fun _ => rfl⟩
    | some x =>
      obtain ⟨data, mask⟩ := x
      rw [withEncoded_some he]
      have hl := encodeField_length (desc_wf hd) (operandOf_op_length s) he
      have := desc_blocks hd
      exact ⟨Moves.refl _ _ s, rfl, by simp only [List.length_append]; omega⟩

/-! ### Mutate -/

/-- The read phase of a mutation (R233). -/
theorem readOld_ends (blk0 : Nat) (fld : BitVec 8) (ms : List Block) (j i : Nat) (s : State)
    (h : blk0 + j + ms.length ≤ 49) : Exchanging noBlock False s (readOld blk0 fld ms j i s) := by
  induction ms generalizing j i s with
  | nil => exact Moves.refl _ _ s
  | cons m ms ih =>
    simp only [List.length_cons] at h
    simp only [readOld]
    split
    · exact (ih (j + 1) i s (by omega)).bind fun _ t _ _ => Moves.refl _ _ t
    · exact (Exchanging.readBlock _ (by omega) fld s).bind fun b t _ _ =>
        (ih (j + 1) (i + 1) t (by omega)).bind fun _ u _ _ => Moves.refl _ _ u

/-- The blocks a mutation writes are the field's. -/
theorem newBlocks_fst {blk0 : Nat} {os ds ms : List Block} :
    ∀ w ∈ newBlocks blk0 os ds ms, blk0 ≤ w.1 ∧ w.1 < blk0 + ms.length := by
  induction os generalizing blk0 ds ms with
  | nil => simp [newBlocks]
  | cons o os ih =>
    match ds, ms with
    | [], _ => simp [newBlocks]
    | _ :: _, [] => simp [newBlocks]
    | d :: ds, m :: ms =>
      intro w hw
      simp only [newBlocks, List.mem_cons, List.length_cons] at hw ⊢
      rcases hw with rfl | hw
      · simp
      · have := ih w hw
        omega

/-- The blocks of a field. -/
abbrev inField (d : Descriptor) : Nat → Prop := fun n => d.blk0 ≤ n ∧ n < d.blk0 + d.nblk

/-- The blocks a mutation may write: the field's and block 48. -/
abbrev fieldOrCrc (d : Descriptor) : Nat → Prop := fun n => inField d n ∨ n = 48

/-- The read and write phases of a mutation (R233). -/
theorem mutateWrites_ends {f : Nat} {d : Descriptor} {s : State} {data mask : List Byte} (hd : descWf d = true)
    (hm : mask.length = 4 * d.nblk) :
    Exchanging (inField d) False s
      ((readOld d.blk0 (fldId f) (cutBlocks mask) 0 0 s).andThen fun olds s =>
        writeBlocks .write (fldId f) (newBlocks d.blk0 olds (cutBlocks data) (cutBlocks mask)) 0 s) := by
  have hb := descWf_blocks hd
  have hc := cutBlocks_length hm
  refine ((readOld_ends d.blk0 (fldId f) (cutBlocks mask) 0 0 s (by omega)).mono (noBlock_imp _) id).bind fun olds t _ _ => ?_
  refine (Exchanging.writeBlocks .write (fldId f) (fun w hw => ?_) 0 t).mono ?_ id
  · have := newBlocks_fst w hw
    omega
  · rintro n ⟨w, hw, rfl⟩
    have := newBlocks_fst w hw
    constructor <;> omega

/-- `CFG.MUTATE` of a defined field with an encodable value is its two phases, then the recompute (R233). -/
theorem mutateRun_eq {f : Nat} {d : Descriptor} {s : State} {data mask : List Byte} (hd : desc s.params f = some d)
    (he : encodeField s.params d (operandOf s) = some (data, mask)) :
    mutateRun f s =
      ((readOld d.blk0 (fldId f) (cutBlocks mask) 0 0 s).andThen fun olds s =>
        writeBlocks .write (fldId f) (newBlocks d.blk0 olds (cutBlocks data) (cutBlocks mask)) 0 s).andThen fun _ s =>
      (recompute (fldId f) s).andThen fun c s => .ok { resv := c.setWidth 64 } s := by
  unfold mutateRun
  rw [withDesc_some hd, withEncoded_some he, andThen_assoc]

theorem mutateRun_ends {f : Nat} {d : Descriptor} {s : State} (hd : desc s.params f = some d) :
    Ordinary (fieldOrCrc d) True s (mutateRun f s) := by
  cases he : encodeField s.params d (operandOf s) with
  | none =>
    unfold mutateRun
    rw [withDesc_some hd, withEncoded_none he]
    exact ⟨Moves.refl _ _ s, by simp, fun _ => rfl⟩
  | some x =>
    obtain ⟨data, mask⟩ := x
    rw [mutateRun_eq hd he]
    have hl := encodeField_length (desc_wf hd) (operandOf_op_length s) he
    have h1 := (mutateWrites_ends (f := f) (data := data) (s := s) (desc_wf hd) hl.2).mono (W' := fieldOrCrc d) (C' := True)
      (fun _ h => .inl h) False.elim
    have h2 := h1.bind fun _ t _ _ => (recompute_ends (fldId f) t).mono (W' := fieldOrCrc d) (fun _ h => .inr h) id
    rw [← andThen_assoc _ (fun _ s => recompute (fldId f) s)]
    exact h2.andThen fun _ t _ _ => ⟨Moves.refl _ _ t, rfl, by simp⟩

/-! ### Read all -/

/-- The state once `CFG.READALL` has dropped the old snapshot (R231). -/
def noSnapshot (s : State) : State := { s with snapv := 0, snap := snapFree s.fresh }

theorem view_le {v : Nat} {bs : List Nat} (h : view v = some bs) : ∀ n ∈ bs, n ≤ 47 := by
  unfold view at h
  split at h <;> simp only [Option.some.injEq, reduceCtorEq] at h <;> subst h <;> decide

theorem view_length {v : Nat} {bs : List Nat} (h : view v = some bs) : bs.length ≤ 17 := by
  unfold view at h
  split at h <;> simp only [Option.some.injEq, reduceCtorEq] at h <;> subst h <;> decide

theorem blocks_length {α : Type} (g : α → Block) (l : List α) : (l.flatMap fun n => (g n).toList).length = 4 * l.length := by
  induction l with
  | nil => rfl
  | cons x xs ih => rw [List.flatMap_cons, List.length_append, ih]; simp [Block.toList]; omega

/-- `CFG.READALL` (R231): the snapshot all at once after the decode pass; on a fault there is none. -/
theorem readallRun_ends (v : Nat) (s : State) :
    (readallRun v s).Ends
      (fun r t => ∃ bs u, view v = some bs ∧ Moves noBlock False (noSnapshot s) u ∧
        firstUnmapped u.params bs u.buf (List.range 255) = none ∧
        t = { u with snap := snapTake bs u.buf u.snap, snapv := blockMask bs } ∧
        r = { bytes := bs.flatMap (fun n => (imageAt u.buf n).toList) })
      (fun f _ _ t => Moves noBlock False (noSnapshot s) t ∧ f ≠ .crcMismatch ∧ (f = .encodingFault → t = noSnapshot s))
      (CutBy noBlock s) := by
  unfold readallRun
  cases hv : view v with
  | none => exact ⟨Moves.refl _ _ _, by simp, fun _ => rfl⟩
  | some bs =>
    simp only
    have h := Exchanging.readBlocks .viewRead 0xFF (fun n hn => (view_le hv n hn).trans (by omega)) 0 (noSnapshot s)
    change ((readBlocks .viewRead 0xFF bs 0 (noSnapshot s)).andThen _).Ends _ _ _
    cases hr : readBlocks .viewRead 0xFF bs 0 (noSnapshot s) with
    | cut t =>
      rw [hr] at h
      have hc : CutBy noBlock (noSnapshot s) t := h
      exact { hc with }
    | raised f b d t =>
      rw [hr] at h
      exact ⟨h.1, h.2.ne.1, fun hf => absurd hf h.2.ne.2.1⟩
    | ok a t =>
      rw [hr] at h
      have hm : Moves noBlock False (noSnapshot s) t := h
      simp only [andThen_ok, takeSnapshot]
      split
      · exact ⟨hm, by simp, by simp⟩
      · rename_i hu
        exact ⟨bs, t, rfl, hm, hu, rfl, rfl⟩

/-! ### Erase -/

/-- `CFG.ERASE` (R235). -/
theorem eraseRun_ends (s : State) :
    (eraseRun s).Ends
      (fun r t => ∃ u c, Moves (· ≤ 48) True s u ∧ t = compared c c u ∧ r = { resv := c.setWidth 64, crcok := true })
      (fun f b d t => Moves (· ≤ 48) True s t ∧ f.ofExchange ∨
        ∃ u c e, c ≠ e ∧ Moves (· ≤ 48) True s u ∧ t = compared c e u ∧ f = .crcMismatch ∧ b = 48 ∧ d = 0xFF)
      (CutBy (· ≤ 48) s) := by
  unfold eraseRun
  have h1 := (Exchanging.writeBlocks .write 0xFF (ws := (List.range Config.cfgBlocks).map (fun n => (n, Block.fill 0xFF#8)))
    (fun w hw => by
      obtain ⟨n, hn, rfl⟩ := List.mem_map.mp hw
      exact mem_range48 hn) 0 s).mono (W' := (· ≤ 48)) (C' := True)
    (fun k ⟨w, hw, hk⟩ => by
      obtain ⟨n, hn, rfl⟩ := List.mem_map.mp hw
      exact hk ▸ mem_range48 hn) False.elim
  have h2 := h1.bind fun _ t _ _ => (recompute_ends 0xFF t).mono (W' := (· ≤ 48)) (fun _ h => h.le) id
  rw [← andThen_assoc _ (fun _ s => recompute 0xFF s)]
  cases hr : (writeBlocks .write 0xFF ((List.range Config.cfgBlocks).map (fun n => (n, Block.fill 0xFF#8))) 0 s).andThen
      (fun _ s => recompute 0xFF s) with
  | cut t => rw [hr] at h2; exact h2
  | raised f b d t => rw [hr] at h2; exact .inl h2
  | ok a t =>
    rw [hr] at h2
    have hm : Moves (· ≤ 48) True s t := h2
    simp only [andThen_ok]
    refine (validate_ends t).mono ?_ ?_ ?_
    · rintro r u ⟨w, c, hw, rfl, rfl⟩
      exact ⟨w, c, hm.trans (hw.mono (noBlock_imp _) False.elim), rfl, rfl⟩
    · rintro f b d u (⟨hu, hf⟩ | ⟨w, c, e, hne, hw, rfl, rfl, rfl, rfl⟩)
      · exact .inl ⟨hm.trans (hu.mono (noBlock_imp _) False.elim), hf⟩
      · exact .inr ⟨w, c, e, hne, hm.trans (hw.mono (noBlock_imp _) False.elim), rfl, rfl, rfl, rfl⟩
    · exact fun u hu => (hu.mono (noBlock_imp _)).after hm

end Sys2Proof.Machine
end

