-- ==== Sys2Proof/Laws/Behaved.lean ====
section
/-! SUPPORT. What block transport gives with the well-behaved tag of 20_memory.md R65, that is with no entry in `link`. -/

namespace Sys2Proof.Machine

/-- The state after one good exchange of the well-behaved tag: position, tag, record. -/
def exchanged (q : Seq) (c : TagCmd) (s : State) : State :=
  { s with seq := q, tag := tagAfter c s, trace := ⟨q, c.bytes, some (behavedAnswer c s)⟩ :: s.trace }

theorem transmit_behaved (q : Seq) (c : TagCmd) {s : State} (h : s.link = []) :
    transmit q c s = .ok (behavedAnswer c s) (exchanged q c s) := by
  unfold transmit
  split
  · cases c <;> rfl
  · rename_i hl
    rw [h] at hl
    cases hl

theorem statusOk_append (d : List Byte) : statusOk (d ++ [0x90#8, 0x00#8]) = true := by
  have h : (d ++ [0x90#8, 0x00#8]).length - 2 = d.length := by simp
  rw [statusOk, h, List.drop_left]
  simp

theorem take_append_status (d : List Byte) :
    (d ++ [0x90#8, 0x00#8]).take ((d ++ [0x90#8, 0x00#8]).length - 2) = d := by
  have h : (d ++ [0x90#8, 0x00#8]).length - 2 = d.length := by simp
  rw [h, List.take_left]

/-- The status check on an answer that carries 90 00 (R122). -/
theorem checkStatus_good (d : List Byte) (b : BitVec 16) (fld : BitVec 8) (s : State) :
    checkStatus (.resp (d ++ [0x90#8, 0x00#8])) b fld s = .ok d s := by
  simp only [checkStatus, statusOk_append, if_true, take_append_status]

theorem statusOk_iff (r : List Byte) : statusOk r = true ↔ ∃ d, r = d ++ [0x90#8, 0x00#8] := by
  constructor
  · intro h
    simp only [statusOk, Bool.and_eq_true, decide_eq_true_eq, beq_iff_eq] at h
    exact ⟨r.take (r.length - 2), by rw [← h.2]; exact (List.take_append_drop _ r).symm⟩
  · rintro ⟨d, rfl⟩
    exact statusOk_append d

/-- `Answered` is what the model tests. -/
theorem answered_iff (y : Answer) : Answered y ↔ y.success = true := by
  cases y with
  | err => simp [Answered, Answer.success]
  | resp r =>
    simp only [Answered, Answer.success, statusOk_iff, Answer.resp.injEq]

/-- The status check on an answer that does not (R122). -/
theorem checkStatus_bad {y : Answer} (h : ¬Answered y) (b : BitVec 16) (fld : BitVec 8) (s : State) :
    checkStatus y b fld s = .raised .transportFault b fld s := by
  cases y with
  | err => rfl
  | resp r =>
    have : ¬statusOk r = true := by rwa [answered_iff] at h
    simp [checkStatus, this]

@[simp] theorem ofBytes_toList (b : Block) : Block.ofBytes b.toList = some b := rfl

/-- The state after a good block read. -/
def readState (q : Seq) (n : Nat) (s : State) : State :=
  { exchanged q (.read n) s with buf := s.buf.setIfInBounds n (s.tag.blockAt n) }

theorem readBlock_behaved (q : Seq) {n : Nat} (hn : n ≤ 48) (fld : BitVec 8) {s : State} (h : s.link = []) :
    readBlock q n fld s = .ok (s.tag.blockAt n) (readState q n s) := by
  unfold readBlock
  rw [if_neg (by simp [Config.maxBlock]; omega), transmit_behaved q _ h]
  simp only [andThen_ok, behavedAnswer, checkStatus_good, ofBytes_toList]
  rfl

theorem writeBlock_behaved (q : Seq) {n : Nat} (hn : n ≤ 48) (d : Block) (fld : BitVec 8) {s : State}
    (h : s.link = []) : writeBlock q n d fld s = .ok () (exchanged q (.write n d) s) := by
  unfold writeBlock
  rw [if_neg (by simp [Config.maxBlock]; omega), transmit_behaved q _ h]
  have := checkStatus_good [] (BitVec.ofNat 16 n) fld (exchanged q (.write n d) s)
  simp only [List.nil_append] at this
  simp only [andThen_ok, behavedAnswer, this]

/-- The state after a list of good block reads. -/
def readsState (ph : Phase) : List Nat → Nat → State → State
  | [], _, s => s
  | n :: ns, i, s => readsState ph ns (i + 1) (readState (.pos ph i) n s)

@[simp] theorem readState_link (q : Seq) (n : Nat) (s : State) : (readState q n s).link = s.link := rfl
@[simp] theorem readState_tag (q : Seq) (n : Nat) (s : State) : (readState q n s).tag = s.tag := rfl
@[simp] theorem readState_params (q : Seq) (n : Nat) (s : State) : (readState q n s).params = s.params := rfl

theorem readBlocks_behaved (ph : Phase) (fld : BitVec 8) {ns : List Nat} (hn : ∀ n ∈ ns, n ≤ 48) (i : Nat) {s : State}
    (h : s.link = []) : readBlocks ph fld ns i s = .ok () (readsState ph ns i s) := by
  induction ns generalizing i s with
  | nil => rfl
  | cons n ns ih =>
    simp only [readBlocks, readsState]
    rw [readBlock_behaved _ (hn n List.mem_cons_self) fld h]
    simp only [andThen_ok]
    exact ih (fun k hk => hn k (List.mem_cons_of_mem _ hk)) (i + 1) (by simpa using h)

/-- Good reads change `SEQ`, `BUF` and the record of exchanges, nothing else. -/
theorem readsState_eq (ph : Phase) (ns : List Nat) (i : Nat) (s : State) :
    ∃ q b l, readsState ph ns i s = { s with seq := q, buf := b, trace := l ++ s.trace } ∧
      l.map (·.cmd) = readsOf ns ∧ l.length = ns.length := by
  induction ns generalizing i s with
  | nil => exact ⟨s.seq, s.buf, [], rfl, rfl, rfl⟩
  | cons n ns ih =>
    obtain ⟨q, b, l, h, hc, hl⟩ := ih (i + 1) (readState (.pos ph i) n s)
    refine ⟨q, b, l ++ [⟨.pos ph i, TagCmd.bytes (.read n), some (behavedAnswer (.read n) s)⟩], ?_, ?_, by simp [hl]⟩
    · simp only [readsState, h, List.append_assoc, List.singleton_append]
      rfl
    · simp [readsOf, hc, List.map_append]

theorem imageAt_set (img : Vector Block 49) {n : Nat} (hn : n < 49) (k : Nat) (b : Block) :
    imageAt (img.setIfInBounds n b) k = if k = n then b else imageAt img k := by
  simp only [imageAt]
  by_cases hk : k = n
  · subst hk
    simp [hn]
  · rw [if_neg hk, Vector.getElem?_setIfInBounds_ne (Ne.symm hk)]

/-- After good reads `BUF` holds the blocks read. -/
theorem imageAt_readsState (ph : Phase) {ns : List Nat} (hn : ∀ n ∈ ns, n ≤ 48) (i : Nat) (s : State) (k : Nat) :
    imageAt (readsState ph ns i s).buf k = if k ∈ ns then s.tag.blockAt k else imageAt s.buf k := by
  induction ns generalizing i s with
  | nil => simp [readsState]
  | cons n ns ih =>
    simp only [readsState]
    rw [ih (fun k hk => hn k (List.mem_cons_of_mem _ hk))]
    have hset : imageAt (readState (.pos ph i) n s).buf k = if k = n then s.tag.blockAt n else imageAt s.buf k :=
      imageAt_set s.buf (by have := hn n List.mem_cons_self; omega) k _
    rw [hset]
    by_cases hkn : k = n
    · subst hkn
      simp
    · by_cases hk : k ∈ ns
      · simp [hk]
      · simp [hk, hkn]

/-- Consecutive blocks read well stand in `BUF` as they stand in the tag. -/
theorem cat_readsState (ph : Phase) {blk0 nblk : Nat} {ns : List Nat} (hn : ∀ n ∈ ns, n ≤ 48)
    (hin : ∀ j < nblk, blk0 + j ∈ ns) (i : Nat) (s : State) :
    cat (readsState ph ns i s).buf blk0 nblk = tagCat s.tag blk0 nblk := by
  unfold cat tagCat
  refine List.flatMap_congr fun j hj => ?_
  rw [imageAt_readsState ph hn, if_pos (hin j (List.mem_range.mp hj))]

theorem range48 : ∀ n ∈ List.range Config.cfgBlocks, n ≤ 48 := by
  intro n hn
  have := List.mem_range.mp hn
  simp only [Config.cfgBlocks] at this
  omega

/-- `read_region` with the well-behaved tag gives the region (R149). -/
theorem readRegion_behaved (fld : BitVec 8) {s : State} (h : s.link = []) :
    readRegion fld s = .ok (region s.tag) (readsState .regionRead (List.range Config.cfgBlocks) 0 s) := by
  unfold readRegion
  rw [readBlocks_behaved .regionRead fld range48 0 h]
  simp only [andThen_ok]
  rw [cat_readsState .regionRead range48 ?_]
  · rfl
  · intro j hj
    simpa using hj

end Sys2Proof.Machine
end

