-- ==== Sys2Proof/Laws/Count.lean ====
section
/-! SUPPORT. How many exchanges a part of an operation makes at most (10_state.md R31). -/

namespace Sys2Proof.Machine

/-- At most `n` exchanges. -/
def Within {α : Type} (n : Nat) (s : State) (r : Run α) : Prop := r.after.trace.length ≤ s.trace.length + n

theorem Within.mono {α : Type} {n m : Nat} {s : State} {r : Run α} (h : Within n s r) (hn : n ≤ m) : Within m s r :=
  le_trans h (by omega)

theorem Within.zero {α : Type} {s : State} {r : Run α} (h : r.after.trace = s.trace) : Within 0 s r := by
  simp [Within, h]

theorem Within.andThen {α β : Type} {n m : Nat} {s : State} {r : Run α} {k : α → State → Run β} (h : Within n s r)
    (hk : ∀ a t, r = .ok a t → Within m t (k a t)) : Within (n + m) s (r.andThen k) := by
  cases r with
  | ok a t =>
    have h1 : t.trace.length ≤ s.trace.length + n := h
    have h2 := hk a t rfl
    simp only [Within, andThen_ok] at h2 ⊢
    omega
  | raised f b d t => exact Within.mono (r := Run.raised f b d t) h (Nat.le_add_right n m)
  | cut t => exact Within.mono (r := Run.cut t) h (Nat.le_add_right n m)

theorem settle_within (c : TagCmd) (o : LinkOutcome) (s : State) : Within 1 s (settle c o s) := by
  cases o <;> simp [Within, settle, resetPulse]

theorem transmit_within (q : Seq) (c : TagCmd) (s : State) : Within 1 s (transmit q c s) := by
  unfold transmit
  split
  · exact settle_within c .behaved { s with seq := q }
  · rename_i e es _
    have h := settle_within c e.outcome (hostBusyAll e.host { s with seq := q, link := es })
    obtain ⟨v, n, hh⟩ := hostBusyAll_eq e.host { s with seq := q, link := es }
    simp only [Within, hh] at h ⊢
    exact h

theorem checkStatus_within (y : Answer) (b : BitVec 16) (d : BitVec 8) (s : State) : Within 0 s (checkStatus y b d s) := by
  unfold checkStatus
  split
  · exact .zero rfl
  · split <;> exact .zero rfl

theorem readBlock_within (q : Seq) (n : Nat) (fld : BitVec 8) (s : State) : Within 1 s (readBlock q n fld s) := by
  unfold readBlock
  split
  · exact (Within.zero rfl).mono (by omega)
  · refine (transmit_within q _ s).andThen (m := 0) fun y t _ => (checkStatus_within y _ _ t).andThen (m := 0) fun data u _ => ?_
    split <;> exact .zero rfl

theorem writeBlock_within (q : Seq) (n : Nat) (d : Block) (fld : BitVec 8) (s : State) :
    Within 1 s (writeBlock q n d fld s) := by
  unfold writeBlock
  split
  · exact (Within.zero rfl).mono (by omega)
  · exact (transmit_within q _ s).andThen (m := 0) fun y t _ => (checkStatus_within y _ _ t).andThen (m := 0) fun _ _ _ => .zero rfl

theorem readBlocks_within (ph : Phase) (fld : BitVec 8) (ns : List Nat) (i : Nat) (s : State) :
    Within ns.length s (readBlocks ph fld ns i s) := by
  induction ns generalizing i s with
  | nil => exact .zero rfl
  | cons n ns ih =>
    simp only [readBlocks]
    exact ((readBlock_within _ n fld s).andThen fun _ t _ => ih (i + 1) t).mono (by simp; omega)

theorem writeBlocks_within (ph : Phase) (fld : BitVec 8) (ws : List (Nat × Block)) (i : Nat) (s : State) :
    Within ws.length s (writeBlocks ph fld ws i s) := by
  induction ws generalizing i s with
  | nil => exact .zero rfl
  | cons w ws ih =>
    obtain ⟨n, d⟩ := w
    simp only [writeBlocks]
    exact ((writeBlock_within _ n d fld s).andThen fun _ t _ => ih (i + 1) t).mono (by simp; omega)

theorem readRegion_within (fld : BitVec 8) (s : State) : Within 48 s (readRegion fld s) := by
  unfold readRegion
  exact ((readBlocks_within .regionRead fld _ 0 s).andThen (m := 0) fun _ _ _ => .zero rfl).mono (by simp [Config.cfgBlocks])

theorem recompute_within (fld : BitVec 8) (s : State) : Within 49 s (recompute fld s) := by
  unfold recompute
  exact (readRegion_within fld s).andThen (m := 1) fun region t _ =>
    ((show Within 1 t _ from writeBlock_within _ _ _ fld { t with crcreg := crc16 region }).andThen (m := 0)
      fun _ _ _ => .zero rfl)

theorem validate_within (s : State) : Within 49 s (validate s) := by
  unfold validate
  refine (readRegion_within 0xFF s).andThen (m := 1) fun region t _ =>
    (readBlock_within _ _ _ t).andThen (m := 0) fun b u _ => .zero ?_
  rw [crcCompare_eq]
  split <;> rfl

theorem readOld_within (blk0 : Nat) (fld : BitVec 8) (ms : List Block) (j i : Nat) (s : State) :
    Within ms.length s (readOld blk0 fld ms j i s) := by
  induction ms generalizing j i s with
  | nil => exact .zero rfl
  | cons m ms ih =>
    simp only [readOld]
    split
    · exact ((ih (j + 1) i s).andThen (m := 0) fun _ _ _ => .zero rfl).mono (by simp)
    · exact ((readBlock_within _ _ _ s).andThen (m := ms.length) fun b t _ =>
        (ih (j + 1) (i + 1) t).andThen (m := 0) fun _ _ _ => .zero rfl).mono (by simp; omega)

theorem newBlocks_length (blk0 : Nat) (os ds ms : List Block) : (newBlocks blk0 os ds ms).length ≤ ms.length := by
  induction os generalizing blk0 ds ms with
  | nil => simp [newBlocks]
  | cons o os ih =>
    match ds, ms with
    | [], _ => simp [newBlocks]
    | _ :: _, [] => simp [newBlocks]
    | d :: ds, m :: ms => simpa [newBlocks] using ih (blk0 + 1) ds ms

/-- What an operation adds to the record of exchanges, seen in its next state. -/
theorem Within.next {n : Nat} {s t : State} {r : Run Result} (h : Within n s r) (ht : r.toOutcome = .next t) :
    t.trace.length ≤ s.trace.length + n := by
  cases r <;> · simp only [Run.toOutcome, Host.Outcome.next.injEq] at ht
                subst ht
                exact h

end Sys2Proof.Machine
end

