-- ==== Sys2Proof/Laws/Crc.lean ====
section
/-! SUPPORT. The checksum as a fold of byte steps (41_crc.md R141), and the CRC operations with the well-behaved tag of
20_memory.md R65. -/

namespace Sys2Proof.Machine

/-- `computed` is the plain application. -/
@[simp] theorem computed_eq {α : Type} (c : BitVec 16) (k : BitVec 16 → α) : computed c k = k c := by
  unfold computed
  split
  · rename_i h
    rw [show c = 0#16 from BitVec.eq_of_toNat_eq (by simpa using h)]
  · rename_i n h
    rw [show n + 1 = c.toNat from h.symm, BitVec.ofNat_toNat, BitVec.setWidth_eq]

theorem crcFrom_eq_foldl (c : BitVec 16) (bs : List Byte) : crcFrom c bs = bs.foldl crcByte c := by
  induction bs generalizing c with
  | nil => rfl
  | cons b bs ih => rw [crcFrom, computed_eq, ih, List.foldl_cons]

/-- `crc16` steps through the string from 0xFFFF, in ascending order (R141). -/
theorem crc16_eq_foldl (bs : List Byte) : crc16 bs = bs.foldl crcByte 0xFFFF#16 := crcFrom_eq_foldl _ bs

/-- The state after a good `recompute` (R151). -/
def recomputed (s : State) : State :=
  exchanged (.pos .crcWrite 0) (.write 48 (encStore (crc16 (region s.tag))))
    { readsState .regionRead (List.range Config.cfgBlocks) 0 s with crcreg := crc16 (region s.tag) }

theorem readsState_link (ph : Phase) (ns : List Nat) (i : Nat) (s : State) : (readsState ph ns i s).link = s.link := by
  obtain ⟨q, b, l, h, -, -⟩ := readsState_eq ph ns i s
  rw [h]

theorem readsState_tag (ph : Phase) (ns : List Nat) (i : Nat) (s : State) : (readsState ph ns i s).tag = s.tag := by
  obtain ⟨q, b, l, h, -, -⟩ := readsState_eq ph ns i s
  rw [h]

theorem recompute_behaved (fld : BitVec 8) {s : State} (h : s.link = []) :
    recompute fld s = .ok (crc16 (region s.tag)) (recomputed s) := by
  unfold recompute
  rw [readRegion_behaved fld h]
  simp only [andThen_ok]
  rw [writeBlock_behaved _ (show Config.crcBlock ≤ 48 from le_refl 48) _ fld (by rw [← h]; exact readsState_link _ _ _ s)]
  rfl

/-- A good recompute changes `SEQ`, `BUF`, `CRCREG`, block 48 and the record of exchanges, nothing else. -/
theorem recomputed_eq (s : State) :
    ∃ b l, recomputed s =
      { s with
        seq := .pos .crcWrite 0, buf := b, crcreg := crc16 (region s.tag)
        tag := s.tag.setBlock 48 (encStore (crc16 (region s.tag))), trace := l ++ s.trace } ∧
      l.map (·.cmd) = TagCmd.bytes (.write 48 (encStore (crc16 (region s.tag)))) :: readsOf (List.range 48) := by
  obtain ⟨q, b, l, h, hl, -⟩ := readsState_eq .regionRead (List.range Config.cfgBlocks) 0 s
  refine ⟨b, ⟨.pos .crcWrite 0, TagCmd.bytes (.write 48 (encStore (crc16 (region s.tag)))),
    some (.resp [0x90#8, 0x00#8])⟩ :: l, ?_, ?_⟩
  · unfold recomputed exchanged
    rw [h]
    simp only [tagAfter, tagStore_of_le (le_refl 48)]
    rfl
  · simp only [List.map_cons, hl]
    rfl

/-- `CRC.VALIDATE` with the well-behaved tag compares the CRC of the region with the stored one (R150). -/
theorem validate_behaved {s : State} (h : s.link = []) :
    ∃ q b l, l.map (·.cmd) = readsOf (List.range 49) ∧
      validate s = crcCompare (crc16 (region s.tag)) (decStore (s.tag.blockAt 48))
        { s with seq := q, buf := b, trace := l ++ s.trace } := by
  obtain ⟨q, b, l, hs, hl, -⟩ := readsState_eq .regionRead (List.range Config.cfgBlocks) 0 s
  have hlink : (readsState .regionRead (List.range Config.cfgBlocks) 0 s).link = [] := by rw [readsState_link, h]
  refine ⟨.pos .crcRead 0, b.setIfInBounds 48 (s.tag.blockAt 48),
    ⟨.pos .crcRead 0, TagCmd.bytes (.read 48), some (behavedAnswer (.read 48) s)⟩ :: l, ?_, ?_⟩
  · simp only [List.map_cons, hl]
    rfl
  · unfold validate
    rw [readRegion_behaved 0xFF h]
    simp only [andThen_ok]
    rw [readBlock_behaved _ (show Config.crcBlock ≤ 48 from le_refl 48) 0xFF hlink]
    simp only [andThen_ok, readsState_tag, Config.crcBlock]
    rw [readState, exchanged, hs]
    rfl

end Sys2Proof.Machine
end

