-- ==== Sys2Proof/Laws/Decode.lean ====
section
/-! SUPPORT. The fields of a command word, and what a decoded code is: the rows of the opcode map read backwards
(30_encoding.md R91, R92). -/

namespace Sys2Proof

/-! ### The three fields of a command word -/

theorem toNat_cmdWord (op sel : BitVec 8) (blk : BitVec 16) :
    (cmdWord op sel blk).toNat = op.toNat * 2 ^ 24 + sel.toNat * 2 ^ 16 + blk.toNat := by
  have h1 := sel.isLt
  have h2 := blk.isLt
  unfold cmdWord
  rw [BitVec.toNat_append, BitVec.toNat_append, ← Nat.shiftLeft_add_eq_or_of_lt h2, ← Nat.shiftLeft_add_eq_or_of_lt h1,
    Nat.shiftLeft_eq, Nat.shiftLeft_eq]
  omega

theorem cmdOp_cmdWord (op sel : BitVec 8) (blk : BitVec 16) : cmdOp (cmdWord op sel blk) = op := by
  apply BitVec.eq_of_toNat_eq
  have h0 := op.isLt
  have h1 := sel.isLt
  have h2 := blk.isLt
  rw [cmdOp, BitVec.extractLsb'_toNat, toNat_cmdWord, Nat.shiftRight_eq_div_pow]
  omega

theorem cmdSel_cmdWord (op sel : BitVec 8) (blk : BitVec 16) : cmdSel (cmdWord op sel blk) = sel := by
  apply BitVec.eq_of_toNat_eq
  have h0 := op.isLt
  have h1 := sel.isLt
  have h2 := blk.isLt
  rw [cmdSel, BitVec.extractLsb'_toNat, toNat_cmdWord, Nat.shiftRight_eq_div_pow]
  omega

theorem cmdBlk_cmdWord (op sel : BitVec 8) (blk : BitVec 16) : cmdBlk (cmdWord op sel blk) = blk := by
  apply BitVec.eq_of_toNat_eq
  have h0 := op.isLt
  have h1 := sel.isLt
  have h2 := blk.isLt
  rw [cmdBlk, BitVec.extractLsb'_toNat, toNat_cmdWord, Nat.shiftRight_eq_div_pow]
  omega

theorem cmdWord_fields (w : BitVec 32) : cmdWord (cmdOp w) (cmdSel w) (cmdBlk w) = w := by
  apply BitVec.eq_of_toNat_eq
  have h0 := w.isLt
  rw [toNat_cmdWord, cmdOp, cmdSel, cmdBlk, BitVec.extractLsb'_toNat, BitVec.extractLsb'_toNat, BitVec.extractLsb'_toNat,
    Nat.shiftRight_eq_div_pow, Nat.shiftRight_eq_div_pow, Nat.shiftRight_eq_div_pow]
  omega

theorem cmdWord_inj {op op' sel sel' : BitVec 8} {blk blk' : BitVec 16} :
    cmdWord op sel blk = cmdWord op' sel' blk' ↔ op = op' ∧ sel = sel' ∧ blk = blk' := by
  constructor
  · intro h
    exact ⟨by rw [← cmdOp_cmdWord op sel blk, h, cmdOp_cmdWord], by rw [← cmdSel_cmdWord op sel blk, h, cmdSel_cmdWord],
      by rw [← cmdBlk_cmdWord op sel blk, h, cmdBlk_cmdWord]⟩
  · rintro ⟨rfl, rfl, rfl⟩
    rfl

/-! ### The rows of the opcode map -/

theorem and_cmdWord (op op' sel sel' : BitVec 8) (blk blk' : BitVec 16) :
    cmdWord op sel blk &&& cmdWord op' sel' blk' = cmdWord (op &&& op') (sel &&& sel') (blk &&& blk') := by
  unfold cmdWord
  rw [BitVec.eq_of_getLsbD_eq_iff]
  intro k hk
  simp only [BitVec.getLsbD_and, BitVec.getLsbD_append]
  split
  · rfl
  · split <;> rfl

/-- What a row selects, field by field. -/
theorem selects_cmdWord (m : String) (op msel : BitVec 8) (mblk : BitVec 16) (w : BitVec 32) :
    OpRow.selects ⟨m, cmdWord op 0 0, cmdWord 0xFF msel mblk⟩ w =
      (decide (cmdOp w = op) && (decide (cmdSel w &&& msel = 0) && decide (cmdBlk w &&& mblk = 0))) := by
  have h : cmdOp w &&& 0xFF = cmdOp w := BitVec.and_allOnes
  conv_lhs => rw [← cmdWord_fields w]
  unfold OpRow.selects
  rw [and_cmdWord, h, Bool.eq_iff_iff]
  simp only [beq_iff_eq, cmdWord_inj, Bool.and_eq_true, decide_eq_true_eq]

/-- A row that uses `blk` (R92). -/
theorem selects_blk (m : String) (op : BitVec 8) (w : BitVec 32) :
    OpRow.selects ⟨m, cmdWord op 0 0, cmdWord 0xFF 0xFF 0⟩ w = (decide (cmdOp w = op) && decide (cmdSel w = 0)) := by
  rw [selects_cmdWord, show cmdSel w &&& 0xFF = cmdSel w from BitVec.and_allOnes,
    show cmdBlk w &&& 0 = 0 from BitVec.and_zero, decide_eq_true rfl, Bool.and_true]

/-- A row that uses `sel` (R92). -/
theorem selects_sel (m : String) (op : BitVec 8) (w : BitVec 32) :
    OpRow.selects ⟨m, cmdWord op 0 0, cmdWord 0xFF 0 0xFFFF⟩ w = (decide (cmdOp w = op) && decide (cmdBlk w = 0)) := by
  rw [selects_cmdWord, show cmdBlk w &&& 0xFFFF = cmdBlk w from BitVec.and_allOnes,
    show cmdSel w &&& 0 = 0 from BitVec.and_zero, decide_eq_true rfl, Bool.true_and]

/-- A row that uses neither (R92). -/
theorem selects_none (m : String) (op : BitVec 8) (w : BitVec 32) :
    OpRow.selects ⟨m, cmdWord op 0 0, cmdWord 0xFF 0xFF 0xFFFF⟩ w =
      (decide (cmdOp w = op) && (decide (cmdSel w = 0) && decide (cmdBlk w = 0))) := by
  rw [selects_cmdWord, show cmdSel w &&& 0xFF = cmdSel w from BitVec.and_allOnes,
    show cmdBlk w &&& 0xFFFF = cmdBlk w from BitVec.and_allOnes]

/-- The opcode map with its words built from their fields. -/
theorem opRows_eq : opRows =
    [⟨"RDBLK", cmdWord 0x01 0 0, cmdWord 0xFF 0xFF 0⟩, ⟨"WRBLK", cmdWord 0x02 0 0, cmdWord 0xFF 0xFF 0⟩,
     ⟨"GETUID", cmdWord 0x03 0 0, cmdWord 0xFF 0xFF 0xFFFF⟩,
     ⟨"CRC.COMPUTE", cmdWord 0x10 0 0, cmdWord 0xFF 0xFF 0xFFFF⟩,
     ⟨"CRC.ENC", cmdWord 0x11 0 0, cmdWord 0xFF 0xFF 0xFFFF⟩,
     ⟨"CRC.DEC", cmdWord 0x12 0 0, cmdWord 0xFF 0xFF 0xFFFF⟩,
     ⟨"CRC.VALIDATE", cmdWord 0x13 0 0, cmdWord 0xFF 0xFF 0xFFFF⟩,
     ⟨"CRC.RECOMPUTE", cmdWord 0x14 0 0, cmdWord 0xFF 0xFF 0xFFFF⟩,
     ⟨"FLD.RD", cmdWord 0x20 0 0, cmdWord 0xFF 0 0xFFFF⟩, ⟨"FLD.DEC", cmdWord 0x21 0 0, cmdWord 0xFF 0 0xFFFF⟩,
     ⟨"FLD.ENC", cmdWord 0x22 0 0, cmdWord 0xFF 0 0xFFFF⟩, ⟨"CFG.READALL", cmdWord 0x30 0 0, cmdWord 0xFF 0 0xFFFF⟩,
     ⟨"CFG.MUTATE", cmdWord 0x31 0 0, cmdWord 0xFF 0 0xFFFF⟩,
     ⟨"CFG.ERASE", cmdWord 0x32 0 0, cmdWord 0xFF 0xFF 0xFFFF⟩] := by
  decide

/-! ### What a decoded code is -/

theorem withBlk_ok {w : BitVec 32} {mk : Nat → Instr} {i : Instr} :
    withBlk w mk = .ok i ↔ cmdSel w = 0 ∧ mk (cmdBlk w).toNat = i := by
  unfold withBlk
  split <;> simp_all

theorem withSel_ok {w : BitVec 32} {mk : Nat → Instr} {i : Instr} :
    withSel w mk = .ok i ↔ cmdBlk w = 0 ∧ mk (cmdSel w).toNat = i := by
  unfold withSel
  split <;> simp_all

theorem withNone_ok {w : BitVec 32} {i j : Instr} :
    withNone w i = .ok j ↔ cmdSel w = 0 ∧ cmdBlk w = 0 ∧ i = j := by
  unfold withNone
  split
  · simp_all
  · split <;> simp_all

/-- One line of the map: the word has its operation, or the lines below decode it. -/
theorem mapRow {w : BitVec 32} {op : BitVec 8} {here below : Except Reject Instr} {i : Instr}
    (h : (if cmdOp w = op then here else below) = .ok i) : cmdOp w = op ∧ here = .ok i ∨ below = .ok i := by
  split at h
  · exact .inl ⟨‹_›, h⟩
  · exact .inr h

theorem rowBlk {w : BitVec 32} {op : BitVec 8} {mk : Nat → Instr} {i : Instr} (h : cmdOp w = op ∧ withBlk w mk = .ok i) :
    cmdOp w = op ∧ cmdSel w = 0 ∧ i = mk (cmdBlk w).toNat := h.imp_right fun h => (withBlk_ok.mp h).imp_right Eq.symm

theorem rowSel {w : BitVec 32} {op : BitVec 8} {mk : Nat → Instr} {i : Instr} (h : cmdOp w = op ∧ withSel w mk = .ok i) :
    cmdOp w = op ∧ cmdBlk w = 0 ∧ i = mk (cmdSel w).toNat := h.imp_right fun h => (withSel_ok.mp h).imp_right Eq.symm

theorem rowNone {w : BitVec 32} {op : BitVec 8} {i j : Instr} (h : cmdOp w = op ∧ withNone w i = .ok j) :
    cmdOp w = op ∧ cmdSel w = 0 ∧ cmdBlk w = 0 ∧ j = i :=
  h.imp_right fun h => (withNone_ok.mp h).imp_right fun h => h.imp_right Eq.symm

/-- A decoded word has its operation in the map, the fields its row does not use are 0, and the others are the operand. -/
theorem decodeCmd_ok {w : BitVec 32} {i : Instr} (h : decodeCmd w = .ok i) :
    (cmdOp w = 0x01 ∧ cmdSel w = 0 ∧ i = .rdblk (cmdBlk w).toNat) ∨
    (cmdOp w = 0x02 ∧ cmdSel w = 0 ∧ i = .wrblk (cmdBlk w).toNat) ∨
    (cmdOp w = 0x03 ∧ cmdSel w = 0 ∧ cmdBlk w = 0 ∧ i = .getuid) ∨
    (cmdOp w = 0x10 ∧ cmdSel w = 0 ∧ cmdBlk w = 0 ∧ i = .crcCompute) ∨
    (cmdOp w = 0x11 ∧ cmdSel w = 0 ∧ cmdBlk w = 0 ∧ i = .crcEnc) ∨
    (cmdOp w = 0x12 ∧ cmdSel w = 0 ∧ cmdBlk w = 0 ∧ i = .crcDec) ∨
    (cmdOp w = 0x13 ∧ cmdSel w = 0 ∧ cmdBlk w = 0 ∧ i = .crcValidate) ∨
    (cmdOp w = 0x14 ∧ cmdSel w = 0 ∧ cmdBlk w = 0 ∧ i = .crcRecompute) ∨
    (cmdOp w = 0x20 ∧ cmdBlk w = 0 ∧ i = .fldRd (cmdSel w).toNat) ∨
    (cmdOp w = 0x21 ∧ cmdBlk w = 0 ∧ i = .fldDec (cmdSel w).toNat) ∨
    (cmdOp w = 0x22 ∧ cmdBlk w = 0 ∧ i = .fldEnc (cmdSel w).toNat) ∨
    (cmdOp w = 0x30 ∧ cmdBlk w = 0 ∧ i = .cfgReadall (cmdSel w).toNat) ∨
    (cmdOp w = 0x31 ∧ cmdBlk w = 0 ∧ i = .cfgMutate (cmdSel w).toNat) ∨
    (cmdOp w = 0x32 ∧ cmdSel w = 0 ∧ cmdBlk w = 0 ∧ i = .cfgErase) := by
  unfold decodeCmd at h
  refine (mapRow h).imp rowBlk fun h => (mapRow h).imp rowBlk fun h => (mapRow h).imp rowNone fun h => ?_
  refine (mapRow h).imp rowNone fun h => (mapRow h).imp rowNone fun h => (mapRow h).imp rowNone fun h => ?_
  refine (mapRow h).imp rowNone fun h => (mapRow h).imp rowNone fun h => (mapRow h).imp rowSel fun h => ?_
  refine (mapRow h).imp rowSel fun h => (mapRow h).imp rowSel fun h => (mapRow h).imp rowSel fun h => ?_
  exact (mapRow h).imp rowSel fun h => rowNone ((mapRow h).resolve_right (by simp))

/-- A decoded host word is a host command. -/
theorem decodeCmd_isHostCommand {w : BitVec 32} {i : Instr} (h : decodeCmd w = .ok i) :
    Machine.Instr.isHostCommand i = true := by
  have rows := decodeCmd_ok h
  cases i with
  | apduRead n => simp at rows
  | apduWrite n d => simp at rows
  | apduGetuid => simp at rows
  | _ => rfl

/-- A decoded byte string is a tag command. -/
theorem decodeApdu_ok {bs : List Byte} {i : Instr} (h : decodeApdu bs = .ok i) :
    (∃ p q, bs = [0xFF#8, 0xB0#8, p, q, 0x04#8] ∧ i = .apduRead (blockNumber p q)) ∨
    (∃ p q d, bs = [0xFF#8, 0xD6#8, p, q, 0x04#8, d.b0, d.b1, d.b2, d.b3] ∧ i = .apduWrite (blockNumber p q) d) ∨
    (bs = [0xFF#8, 0xCA#8, 0x00#8, 0x00#8, 0x00#8] ∧ i = .apduGetuid) := by
  unfold decodeApdu at h
  split at h
  · split at h
    · rename_i hc
      obtain ⟨rfl, rfl, rfl⟩ := hc
      exact .inl ⟨_, _, rfl, by simpa using h.symm⟩
    · split at h
      · rename_i hc
        obtain ⟨rfl, rfl, rfl, rfl, rfl⟩ := hc
        exact .inr (.inr ⟨rfl, by simpa using h.symm⟩)
      · cases h
  · split at h
    · rename_i hc
      obtain ⟨rfl, rfl, rfl⟩ := hc
      exact .inr (.inl ⟨_, _, ⟨_, _, _, _⟩, rfl, by simpa using h.symm⟩)
    · cases h
  · cases h

/-! ### Block numbers -/

theorem hiByte_blockNumber (p q : Byte) : hiByte (blockNumber p q) = p := by
  apply BitVec.eq_of_toNat_eq
  have h1 := p.isLt
  have h2 := q.isLt
  simp only [hiByte, blockNumber, BitVec.toNat_ofNat]
  omega

theorem loByte_blockNumber (p q : Byte) : loByte (blockNumber p q) = q := by
  apply BitVec.eq_of_toNat_eq
  have h1 := p.isLt
  have h2 := q.isLt
  simp only [loByte, blockNumber, BitVec.toNat_ofNat]
  omega

theorem blockNumber_hiByte_loByte {n : Nat} (h : n < 65536) : blockNumber (hiByte n) (loByte n) = n := by
  simp only [hiByte, loByte, blockNumber, BitVec.toNat_ofNat]
  omega

end Sys2Proof
end

