-- ==== Sys2Proof/Laws/Merge.lean ====
section
/-! SUPPORT. Byte strings merged under a mask, byte by byte (42_codec_transforms.md R163, R164). -/

namespace Sys2Proof.Machine

/-- A byte of a spread string. -/
theorem getD_spread {n off : Nat} {bs : List Byte} (k : Nat) : (spread n off bs).getD k 0 =
    if off ≤ k then bs.getD (k - off) 0 else 0 := by
  unfold spread
  simp only [List.getD_eq_getElem?_getD, List.append_assoc]
  by_cases h : off ≤ k
  · rw [if_pos h, List.getElem?_append_right (by simpa using h)]
    simp only [List.length_replicate]
    by_cases h2 : k - off < bs.length
    · rw [List.getElem?_append_left h2]
    · rw [List.getElem?_append_right (by omega), List.getElem?_eq_none (l := bs) (by omega)]
      simp only [List.getElem?_replicate]; split <;> rfl
  · rw [if_neg h, List.getElem?_append_left (by simp; omega)]
    simp only [List.getElem?_replicate]; split <;> rfl

theorem mergeBytes_length {c d m : List Byte} {n} (h1 : c.length = n) (h2 : d.length = n) (h3 : m.length = n)
    : (mergeBytes c d m).length = n := by
  induction c generalizing d m n with
  | nil => simp at h1; subst h1; rfl
  | cons a c ih =>
    match d, m with
    | [], _ => simp at h1 h2; omega
    | _ :: _, [] => simp at h2 h3; omega
    | b :: d, e :: m =>
      simp at h1 h2 h3
      simp only [mergeBytes, List.length_cons]
      rw [ih (n := c.length) rfl (by omega) (by omega)]; omega

/-- A byte of a merged string. -/
theorem getD_merge {c d m : List Byte} {n} (h1 : c.length = n) (h2 : d.length = n) (h3 : m.length = n) (k : Nat)
    (hk : k < n) :
   (mergeBytes c d m).getD k 0 = mergeByte (c.getD k 0) (d.getD k 0) (m.getD k 0) := by
  induction c generalizing d m n k with
  | nil => simp at h1; omega
  | cons a c ih =>
    match d, m with
    | [], _ => simp at h1 h2; omega
    | _ :: _, [] => simp at h2 h3; omega
    | b :: d, e :: m =>
      simp at h1 h2 h3
      cases k with
      | zero => rfl
      | succ k => 
        simp only [mergeBytes, List.getD_cons_succ]
        exact ih (n := c.length) rfl (by omega) (by omega) k (by omega)

/-- Strings of one length with the same bytes are the same. -/
theorem ext_getD {a b : List Byte} (h : a.length = b.length) (hh : ∀ k < a.length, a.getD k 0 = b.getD k 0) : a = b := by
  apply List.ext_getElem h
  intro k h1 h2
  have := hh k h1
  simpa [List.getD_eq_getElem?_getD, h1, h2] using this

theorem byte_replaced (o d : BitVec 8) : (o &&& ~~~0xFF#8) ||| d = d := by
  rw [show ~~~0xFF#8 = 0#8 by decide, BitVec.and_zero, BitVec.zero_or]
theorem byte_kept (o : BitVec 8) : (o &&& ~~~0#8) ||| 0#8 = o := by
  rw [show ~~~0#8 = BitVec.allOnes 8 by decide, BitVec.and_allOnes, BitVec.or_zero]
/-- A full mask replaces. -/
theorem mergeByte_ff (o d : Byte) : mergeByte o d 0xFF = d := byte_replaced o d
/-- An empty mask keeps. -/
theorem mergeByte_0 (o : Byte) : mergeByte o 0 0 = o := byte_kept o
theorem digit_in_mask :
    ∀ q : BitVec 8, q ≤ 15#8 → (q <<< 4) &&& ~~~0xF0#8 = 0#8 ∧ q &&& ~~~0x0F#8 = 0#8 := by decide
theorem bits1_in_mask : ∀ b : BitVec 8, b ≤ 1#8 → ∀ k : Fin 8, (b <<< k.val) &&& ~~~(1#8 <<< k.val) = 0#8 := by decide
theorem bits2_in_mask : ∀ b : BitVec 8, b ≤ 3#8 → ∀ k : Fin 8, (b <<< k.val) &&& ~~~(3#8 <<< k.val) = 0#8 := by decide

/-- Merging whole bytes: inside the field the new ones, outside the old. -/
theorem getD_whole {d : Descriptor} {c bs : List Byte} (hc : c.length = 4 * d.nblk) (hb : d.off + bs.length ≤ 4 * d.nblk)
    (k : Nat) (hk : k < 4 * d.nblk) :
    (mergeBytes c (wholeBytes d bs).1 (wholeBytes d bs).2).getD k 0 = if d.off ≤ k ∧
        k < d.off + bs.length then bs.getD (k - d.off) 0 else c.getD k 0 := by
  have hl := wholeBytes_length hb
  rw [getD_merge hc hl.1 hl.2 k hk]
  unfold wholeBytes
  simp only [getD_spread]
  by_cases h1 : d.off ≤ k
  · simp only [if_pos h1]
    by_cases h2 : k < d.off + bs.length
    · rw [if_pos ⟨h1, h2⟩]
      have : (List.replicate bs.length (0xFF#8)).getD (k - d.off) 0 = 0xFF#8 := by
        rw [List.getD_eq_getElem?_getD, List.getElem?_replicate, if_pos (by omega)]
        rfl
      rw [this]; exact mergeByte_ff _ _
    · rw [if_neg (by tauto)]
      have e1 : (List.replicate bs.length (0xFF#8)).getD (k - d.off) 0 = 0#8 := by
        rw [List.getD_eq_getElem?_getD, List.getElem?_replicate, if_neg (by omega)]
        rfl
      have e2 : bs.getD (k - d.off) 0 = 0#8 := by
        rw [List.getD_eq_getElem?_getD, List.getElem?_eq_none (by omega)]
        rfl
      rw [e1, e2]; exact mergeByte_0 _
  · simp only [if_neg h1]
    rw [if_neg (by tauto)]; exact mergeByte_0 _

/-- The field's bytes after merging whole bytes. -/
theorem fieldBytes_whole {d : Descriptor} {c bs : List Byte} (hc : c.length = 4 * d.nblk)
    (hb : d.off + d.len ≤ 4 * d.nblk) (hl : bs.length = d.len) :
    fieldBytes d (mergeBytes c (wholeBytes d bs).1 (wholeBytes d bs).2) = bs := by
  have hw := wholeBytes_length (d := d) (bs := bs) (by omega)
  have hm := mergeBytes_length hc hw.1 hw.2
  apply ext_getD
  · simp [fieldBytes, hm]; omega
  · intro k hk
    simp [fieldBytes, hm] at hk
    have : (fieldBytes d (mergeBytes c (wholeBytes d bs).1 (wholeBytes d bs).2)).getD k 0 =
        (mergeBytes c (wholeBytes d bs).1 (wholeBytes d bs).2).getD (d.off + k) 0 := by
      unfold fieldBytes; simp only [List.getD_eq_getElem?_getD]; rw [List.getElem?_take_of_lt (by omega),
          List.getElem?_drop]
    rw [this, getD_whole hc (by omega) _ (by omega), if_pos ⟨by omega, by omega⟩]
    congr 1; omega

/-- Merging part of one byte: that byte merged, the others kept. -/
theorem getD_part {d : Descriptor} {c : List Byte} {idx dm} (hc : c.length = 4 * d.nblk) (hb : idx + 1 ≤ 4 * d.nblk)
    (k : Nat) (hk : k < 4 * d.nblk) :
    (mergeBytes c (partByte d idx dm).1 (partByte d idx dm).2).getD k 0 = if k = idx then mergeByte (c.getD k 0)
        dm.1 dm.2 else c.getD k 0 := by
  have hl := partByte_length (d := d) (dm := dm) hb
  rw [getD_merge hc hl.1 hl.2 k hk]
  unfold partByte
  simp only [getD_spread]
  by_cases h1 : k = idx
  · subst h1; simp
  · rw [if_neg h1]
    by_cases h2 : idx ≤ k
    · simp only [if_pos h2]
      have : k - idx = (k - idx - 1) + 1 := by omega
      rw [this]; simp; exact mergeByte_0 _
    · simp only [if_neg h2]; exact mergeByte_0 _

theorem digit_put_back :
    ∀ o : BitVec 8, ((o &&& ~~~0xF0#8) ||| ((o >>> 4) <<< 4)) = o ∧ ((o &&& ~~~0x0F#8) ||| (o &&& 0x0F#8)) = o := by decide
theorem digit_bounds : ∀ o : BitVec 8, (o >>> 4) ≤ 15#8 ∧ (o &&& 0x0F#8) ≤ 15#8 := by decide

/-- Merging a field's own bytes changes nothing. -/
theorem whole_self {d : Descriptor} {c bs : List Byte} (hc : c.length = 4 * d.nblk) (hb : d.off + bs.length ≤ 4 * d.nblk)
   (h : ∀ k < bs.length, bs.getD k 0 = c.getD (d.off + k) 0) : mergeBytes c (wholeBytes d bs).1 (wholeBytes d bs).2 =
       c := by
  have hl := wholeBytes_length hb
  have hm := mergeBytes_length hc hl.1 hl.2
  apply ext_getD (by omega)
  intro k hk
  rw [getD_whole hc hb k (by omega)]
  split
  · rw [h _ (by omega)]; congr 1; omega
  · rfl

/-- Merging a part that is there already changes nothing. -/
theorem part_self {d : Descriptor} {c : List Byte} {idx dm} (hc : c.length = 4 * d.nblk) (hb : idx + 1 ≤ 4 * d.nblk)
   (h : mergeByte (c.getD idx 0) dm.1 dm.2 = c.getD idx 0) : mergeBytes c (partByte d idx dm).1 (partByte d idx dm).2 =
       c := by
  have hl := partByte_length (d := d) (dm := dm) hb
  have hm := mergeBytes_length hc hl.1 hl.2
  apply ext_getD (by omega)
  intro k hk
  rw [getD_part hc hb k (by omega)]
  split
  · rename_i h2; subst h2; exact h
  · rfl

end Sys2Proof.Machine
end

