-- ==== Sys2Proof/Laws/Digits.lean ====
section
/-! SUPPORT. Digits, zero-filled strings, big-endian numbers, trimmed tails and ranges of the integer operand
(00_scope.md R13, 42_codec_transforms.md R166 to R192). -/

namespace Sys2Proof.Machine

theorem getD_append_small {a b : List Byte} (k : Nat) : (a ++ b).getD k 0 =
    if k < a.length then a.getD k 0 else b.getD (k - a.length) 0 := by
  simp only [List.getD_eq_getElem?_getD]
  split
  · rw [List.getElem?_append_left (by assumption)]
  · rw [List.getElem?_append_right (by omega)]

theorem getD_zeros (n k : Nat) : (List.replicate n (0#8)).getD k 0 = 0#8 := by
  rw [List.getD_eq_getElem?_getD, List.getElem?_replicate]; split <;> rfl

theorem getD_ge {a : List Byte} {k} (h : a.length ≤ k) : a.getD k 0 = 0#8 := by
  rw [List.getD_eq_getElem?_getD, List.getElem?_eq_none h]; rfl

theorem getD_zeroFill {len} {bs : List Byte} (k) : (zeroFill len bs).getD k 0 = bs.getD k 0 := by
  unfold zeroFill
  rw [getD_append_small]
  split
  · rfl
  · exact (getD_zeros _ _).trans (getD_ge (by omega)).symm

theorem getD_take {a : List Byte} {n k} : (a.take n).getD k 0 = if k < n then a.getD k 0 else 0#8 := by
  split
  · simp only [List.getD_eq_getElem?_getD]; rw [List.getElem?_take_of_lt (by assumption)]
  · rw [getD_ge]; simp; omega

theorem high_of_masked : ∀ b : BitVec 8, (b &&& 0xF0#8) >>> 4 = b >>> 4 := by decide
theorem low_of_masked : ∀ b : BitVec 8, (b &&& 0xF0#8) &&& 0x0F#8 = 0#8 := by decide

/-- The digits of an operand: the valid ones, then zeros (R22, R166). -/
theorem digit_digitBytes {op : List Byte} {n : Nat} (hn : n ≤ 2 * op.length) (q : Nat) : digit (digitBytes op n) q =
    if q < n then digit op q else 0 := by
  unfold digitBytes
  by_cases he : n % 2 = 0
  · rw [if_pos he]
    unfold digit
    rw [getD_take]
    by_cases hq : q < n
    · simp only [show q / 2 < n / 2 by omega, hq, if_true]
    · simp only [show ¬ q / 2 < n / 2 by omega, hq, if_false]; split <;> simp
  · rw [if_neg he]
    have hg : (List.take (n / 2) op ++ [op.getD (n / 2) 0 &&& 240#8]).getD (q / 2) 0 = if q / 2 < n / 2 then op.getD (q/2)
        0 else if q / 2 = n / 2 then op.getD (n/2) 0 &&& 0xF0#8 else 0#8 := by
      rw [getD_append_small]
      have hlen : (List.take (n / 2) op).length = n / 2 := by simp; omega
      rw [hlen]
      split
      · rw [getD_take, if_pos (by assumption)]
      · split
        · rename_i h; rw [h, Nat.sub_self]; rfl
        · rw [getD_ge]; simp; omega
    unfold digit
    rw [hg]
    by_cases hq : q < n
    · rw [if_pos hq]
      by_cases h2 : q / 2 < n / 2
      · rw [if_pos h2]
      · have e1 : q % 2 = 0 := by omega
        have e2 : q / 2 = n / 2 := by omega
        simp only [h2, e1, if_true, if_false]; rw [e2]; simp only [if_true]; exact high_of_masked _
    · rw [if_neg hq]; simp only [show ¬ q / 2 < n / 2 by omega, if_false]
      by_cases h2 : q / 2 = n / 2
      · rw [if_pos h2]
        have : q % 2 = 1 := by omega
        rw [if_neg (by omega)]; exact low_of_masked _
      · rw [if_neg h2]; split <;> simp

theorem digit_congr {a b : List Byte} (h : ∀ k, a.getD k 0 = b.getD k 0) (q) : digit a q = digit b q := by
  unfold digit; rw [h]

theorem bigEndian_append (a : List Byte) (b : Byte) : bigEndian (a ++ [b]) = bigEndian a * 256 + b.toNat := by
  unfold bigEndian; rw [List.foldl_append]; rfl

/-- The number of the bytes of a number. -/
theorem bigEndian_bytes (len v : Nat) : bigEndian (bigEndianBytes len v) = v % 256 ^ len := by
  induction len generalizing v with
  | zero => simp [bigEndianBytes, bigEndian, Nat.mod_one]
  | succ n ih =>
    rw [bigEndianBytes, bigEndian_append, ih, pow_succ, Nat.mul_comm (256^n) 256, Nat.mod_mul]
    simp; omega

/-- An operand that is not negative. -/
theorem inRange_toNat {o : Operand} {hi : Int} (h : inRange o 0 hi = true) : (o.opv.toNat : Int) = o.opv.toInt ∧
    (o.opv.toNat : Int) ≤ hi := by
  simp [inRange] at h
  have h2 := o.opv.isLt
  have := BitVec.toInt_eq_toNat_cond o.opv
  split at this <;> omega

theorem opvByte_toNat {o : Operand} {hi : Int} (h : inRange o 0 hi = true) (h2 : hi ≤ 255) : ((opvByte o).toNat : Int) =
    o.opv.toInt := by
  have := inRange_toNat h
  simp [opvByte]; omega

theorem digit_shifts : ∀ b : BitVec 8, (b &&& ~~~0xF0#8) >>> 4 = 0#8 ∧ (b &&& ~~~0x0F#8) &&& 0x0F#8 = 0#8 ∧
    (b ≤ 15#8 → (b <<< 4) >>> 4 = b ∧ b &&& 0x0F#8 = b) := by decide

theorem digit_replaced (o q : BitVec 8) (h : q ≤ 15#8) :
    (((o &&& ~~~0xF0#8) ||| (q <<< 4)) >>> 4) = q ∧ (((o &&& ~~~0x0F#8) ||| q) &&& 0x0F#8) = q := by
  obtain ⟨h1, h2, -⟩ := digit_shifts o
  obtain ⟨-, -, h3⟩ := digit_shifts q
  constructor
  · rw [BitVec.ushiftRight_or_distrib, h1, (h3 h).1, BitVec.zero_or]
  · have e : ((o &&& ~~~0x0F#8) ||| q) &&& 0x0F#8 = ((o &&& ~~~0x0F#8) &&& 0x0F#8) ||| (q &&& 0x0F#8) := by
      rw [BitVec.eq_of_getLsbD_eq_iff]
      intro k _
      simp only [BitVec.getLsbD_and, BitVec.getLsbD_or, Bool.and_or_distrib_right]
    rw [e, h2, (h3 h).2, BitVec.zero_or]

/-- The digit just merged in. -/
theorem digit_part {d : Descriptor} {c : List Byte} {q : Byte} (hc : c.length = 4 * d.nblk)
    (hb : d.off / 2 + 1 ≤ 4 * d.nblk) (hq : q.toNat ≤ 15) :
    digit (mergeBytes c (oneDigit d q).1 (oneDigit d q).2) d.off = q := by
  have hq : q ≤ 15#8 := by rw [BitVec.le_def]; simpa using hq
  unfold digit oneDigit
  rw [getD_part hc hb _ (by omega), if_pos rfl]
  unfold digitPlace mergeByte
  by_cases h : d.off % 2 = 0
  · simp only [h, if_true]; exact (digit_replaced _ q hq).1
  · simp only [h, if_false]; exact (digit_replaced _ q hq).2

/-- What is trimmed is zeros, and no zero is left at the end (R168). -/
theorem trimTail_spec (l : List Byte) : ∃ k, trimTail (fun b => b == 0#8) l ++ List.replicate k 0 = l ∧
    (trimTail (fun b => b == 0#8) l).getLast? ≠ some 0 := by
  induction l with
  | nil => exact ⟨0, rfl, by simp [trimTail]⟩
  | cons x xs ih =>
    obtain ⟨k, h1, h2⟩ := ih
    simp only [trimTail]
    split
    · rename_i ht
      rw [ht] at h1
      split
      · rename_i hx
        simp at hx; subst hx
        exact ⟨k + 1, by simp [List.replicate_succ]; simpa using h1, by simp⟩
      · rename_i hx
        refine ⟨k, by simpa using h1, ?_⟩
        simpa using hx
    · rename_i y ys ht
      rw [ht] at h1 h2
      exact ⟨k, by simpa using h1, by simpa using h2⟩

/-- Zeros at the end do not count. -/
theorem trimTail_zeros (l : List Byte) (k : Nat) : trimTail (fun b => b == 0#8) (l ++ List.replicate k 0) =
    trimTail (fun b => b == 0#8) l := by
  induction l with
  | nil =>
    induction k with
    | zero => rfl
    | succ k ih => 
      rw [List.nil_append] at ih ⊢
      rw [List.replicate_succ]; simp only [trimTail]; rw [ih]; simp [trimTail]
  | cons x xs ih => simp only [List.cons_append, trimTail, ih]

theorem bits1_all : ∀ o : BitVec 8, ∀ k : Fin 8, ∀ b : Fin 2,
    (((o &&& ~~~(1#8 <<< k.val)) ||| (BitVec.ofNat 8 b.val <<< k.val)).toNat / 2 ^ k.val) % 2 = b.val := by
  decide +kernel

theorem bits2_all : ∀ o : BitVec 8, ∀ k : Fin 7, ∀ b : Fin 4,
    (((o &&& ~~~(3#8 <<< k.val)) ||| (BitVec.ofNat 8 b.val <<< k.val)).toNat / 2 ^ k.val) % 4 = b.val := by
  decide +kernel

theorem bits1_replaced (o b : BitVec 8) (hb : b ≤ 1#8) (k : Fin 8) :
    (((o &&& ~~~(1#8 <<< k.val)) ||| (b <<< k.val)).toNat / 2 ^ k.val) % 2 = b.toNat := by
  have h : b.toNat < 2 := Nat.lt_succ_of_le (BitVec.le_def.mp hb)
  have := bits1_all o k ⟨b.toNat, h⟩
  rwa [BitVec.ofNat_toNat, BitVec.setWidth_eq] at this

theorem bits2_replaced (o b : BitVec 8) (hb : b ≤ 3#8) (k : Fin 7) :
    (((o &&& ~~~(3#8 <<< k.val)) ||| (b <<< k.val)).toNat / 2 ^ k.val) % 4 = b.toNat := by
  have h : b.toNat < 4 := Nat.lt_succ_of_le (BitVec.le_def.mp hb)
  have := bits2_all o k ⟨b.toNat, h⟩
  rwa [BitVec.ofNat_toNat, BitVec.setWidth_eq] at this

theorem digit_le (c q) : (digit c q).toNat ≤ 15 := by
  unfold digit; split
  · have := (digit_bounds (c.getD (q/2) 0)).1; rw [BitVec.le_def] at this; simpa using this
  · have := (digit_bounds (c.getD (q/2) 0)).2; rw [BitVec.le_def] at this; simpa using this

/-- Merging a digit that is there already changes nothing. -/
theorem dig_self {d : Descriptor} {c : List Byte} (hc : c.length = 4 * d.nblk) (hb : d.off / 2 + 1 ≤ 4 * d.nblk) :
   mergeBytes c (oneDigit d (digit c d.off)).1 (oneDigit d (digit c d.off)).2 = c := by
  apply part_self hc hb
  unfold digitPlace digit mergeByte
  by_cases h : d.off % 2 = 0
  · simp only [h, if_true]; exact (digit_put_back _).1
  · simp only [h, if_false]; exact (digit_put_back _).2

theorem ofInt_toInt {v : Int} (h1 : -2^63 ≤ v) (h2 : v < 2^63) : (BitVec.ofInt 64 v).toInt = v := by
  rw [BitVec.toInt_ofInt, Int.bmod_def]; norm_num at *; split <;> omega

/-- A decoded value that is not negative is in range as operand. -/
theorem inRange_ofInt {o : Operand} {v hi : Int} (h : o.opv = BitVec.ofInt 64 v) (h1 : 0 ≤ v) (h2 : v ≤ hi)
    (h3 : hi < 2^63) : inRange o 0 hi = true := by
  simp [inRange]; rw [h, ofInt_toInt (by omega) (by omega)]; omega

theorem opvByte_ofInt {o : Operand} {b : Byte} (h : o.opv = BitVec.ofInt 64 (b.toNat : Int)) : opvByte o = b := by
  unfold opvByte; rw [h]
  apply BitVec.eq_of_toNat_eq
  have := b.isLt
  simp

theorem getD_fieldBytes {d : Descriptor} {c : List Byte} {k} (hk : k < d.len) : (fieldBytes d c).getD k 0 =
    c.getD (d.off + k) 0 := by
  unfold fieldBytes; simp only [List.getD_eq_getElem?_getD]; rw [List.getElem?_take_of_lt hk, List.getElem?_drop]

/-- The bytes of the number of a string. -/
theorem bigEndianBytes_bigEndian (s : List Byte) : bigEndianBytes s.length (bigEndian s) = s := by
  induction s using List.reverseRecOn with
  | nil => rfl
  | append_singleton s b ih =>
    rw [bigEndian_append, List.length_append]
    have := b.isLt
    simp only [List.length_cons, List.length_nil, Nat.zero_add, bigEndianBytes]
    rw [show (bigEndian s * 256 + b.toNat) / 256 = bigEndian s by omega, ih]
    congr 2
    apply BitVec.eq_of_toNat_eq; simp; omega

theorem bigEndian_lt (s : List Byte) : bigEndian s < 256 ^ s.length := by
  induction s using List.reverseRecOn with
  | nil => simp [bigEndian]
  | append_singleton s b ih =>
    rw [bigEndian_append, List.length_append]
    have := b.isLt
    simp only [List.length_cons, List.length_nil, Nat.zero_add, pow_succ]; omega

theorem fieldBytes_len {d : Descriptor} {c : List Byte} (hc : c.length = 4 * d.nblk) (hb : d.off + d.len ≤ 4 * d.nblk)
    : (fieldBytes d c).length = d.len := by
  simp [fieldBytes]; omega

theorem bits1_put_back : ∀ o : BitVec 8, ∀ k : Fin 8, ((o &&& ~~~(1#8 <<< k.val))
    ||| (BitVec.ofNat 8 (o.toNat / 2 ^ k.val % 2) <<< k.val)) = o := by decide +kernel
theorem bits2_put_back : ∀ o : BitVec 8, ∀ k : Fin 7, ((o &&& ~~~(3#8 <<< k.val))
    ||| (BitVec.ofNat 8 (o.toNat / 2 ^ k.val % 4) <<< k.val)) = o := by decide +kernel

/-- A code delivered without `UNK` is mapped (R187). -/
theorem dec_num_mapped {p d code v} (h : decodeEnum p d code = .num v false) : mapped p d.tbl code = true ∧ v =
    code.toNat := by
  unfold decodeEnum at h
  split at h
  · simp at h; exact ⟨by assumption, h.symm⟩
  · split at h <;> simp at h

end Sys2Proof.Machine
end

