-- ==== Sys2Proof/Laws/Fields.lean ====
section
/-! SUPPORT. Reading a field from the well-behaved tag, and the blocks of a field the snapshot does not hold
(43_field_ops.md R202, R204). -/

namespace Sys2Proof.Machine

/-- The reads of a field: its blocks in order, nothing changed but `BUF`, which then decodes as the tag does. -/
theorem readField_behaved {s : State} {f : Nat} {d : Descriptor} (hl : s.link = []) (hd : desc s.params f = some d) :
    ∃ u, readField d f s = .ok () u ∧ OnlyResult s u ∧ TagKept s u ∧ u.params = s.params ∧
      sent u = readsOf ((List.range d.nblk).map (d.blk0 + ·)) ++ sent s ∧
      decodeField s.params d u.buf = decodeBytes s.params d (tagCat s.tag d.blk0 d.nblk) := by
  obtain ⟨-, -, h48⟩ := desc_blocks hd
  obtain ⟨q, b, l, h, hc, -⟩ := readsState_eq .fieldRead ((List.range d.nblk).map (d.blk0 + ·)) 0 s
  refine ⟨_, readBlocks_behaved .fieldRead _ (field_blocks h48) 0 hl, ?_⟩
  have hcat := cat_readsState .fieldRead (field_blocks h48) (blk0 := d.blk0) (nblk := d.nblk)
    (fun j hj => List.mem_map.mpr ⟨j, List.mem_range.mpr hj, rfl⟩) 0 s
  refine ⟨by rw [h]; exact OnlyResult.refl s, by rw [h]; exact fun _ => rfl, by rw [h], by rw [h]; simp [sent, hc], ?_⟩
  unfold decodeField
  rw [hcat]

/-- No block is missing: the snapshot holds them all. -/
theorem missingBlock_none {d : Descriptor} {v : BitVec 49} :
    missingBlock d v = none ↔ ∀ j < d.nblk, v.getLsbD (d.blk0 + j) = true := by
  unfold missingBlock
  rw [List.find?_eq_none]
  simp

/-- The first block that is missing. -/
theorem missingBlock_some {d : Descriptor} {v : BitVec 49} {j : Nat} (hj : j < d.nblk)
    (h : v.getLsbD (d.blk0 + j) = false) (hk : ∀ k < j, v.getLsbD (d.blk0 + k) = true) :
    missingBlock d v = some (d.blk0 + j) := by
  have e : List.range d.nblk = List.range j ++ j :: List.range' (j + 1) (d.nblk - j - 1) := by
    rw [List.range_eq_range', List.range_eq_range', ← List.range'_succ, show d.nblk - j - 1 + 1 = d.nblk - j by omega,
      show List.range' j (d.nblk - j) = List.range' (0 + j) (d.nblk - j) by simp, List.range'_append_1]
    congr 1
    omega
  unfold missingBlock
  rw [List.find?_eq_some_iff_append]
  refine ⟨by simp [h], (List.range j).map (d.blk0 + ·), (List.range' (j + 1) (d.nblk - j - 1)).map (d.blk0 + ·), ?_, ?_⟩
  · rw [e, List.map_append, List.map_cons]
  · simpa using hk

end Sys2Proof.Machine
end

