-- ==== Sys2Proof/Laws/Snapshot.lean ====
section
/-! SUPPORT. The snapshot: the bits of `SNAPV`, the members of a view, the decode pass (10_state.md R33,
44_aggregate.md R231, R232). -/

namespace Sys2Proof.Machine

/-- A block of the view is taken from `BUF`. -/
theorem imageAt_snapTake {bs : List Nat} {buf snap : Vector Block 49} {n : Nat} (h : n ∈ bs) (hn : n ≤ 48):
    imageAt (snapTake bs buf snap) n = imageAt buf n := by
  have : n < 49 := by omega
  simp [imageAt, snapTake, this, h]

/-- The bits of a set of blocks. -/
theorem bit_blockMask (bs : List Nat) (n : Nat) (hn : n < 49) : (blockMask bs).getLsbD n = decide (n ∈ bs) := by
  unfold blockMask
  have : ∀ (m : BitVec 49), (bs.foldl (fun m n => m ||| BitVec.twoPow 49 n) m).getLsbD n =
      (m.getLsbD n || decide (n ∈ bs)) := by
    induction bs with
    | nil => intro m; simp
    | cons b bs ih =>
      intro m
      rw [List.foldl_cons, ih]
      by_cases hb : b = n
      · subst hb
        simp [hn]
      · simp [hn, Ne.symm hb]
  rw [this]; simp

/-- The bits of a view's set of blocks. -/
theorem snapv_view {v bs} (h : view v = some bs) (n : Nat) : (blockMask bs).getLsbD n = decide (n ∈ bs) := by
  by_cases hn : n < 49
  · exact bit_blockMask bs n hn
  · rw [BitVec.getLsbD_of_ge _ _ (by omega)]
    have := view_le h
    symm; simp; intro hb; have := this n hb; omega

/-- The members of a view: defined fields all of whose blocks are in it (R232). -/
theorem memberDesc_iff {p bs f d} : memberDesc p bs f = some d ↔ desc p f = some d ∧ ∀ j < d.nblk, d.blk0 + j ∈ bs := by
  unfold memberDesc
  cases h : desc p f with
  | none => simp
  | some e =>
    simp only [Option.some.injEq]
    constructor
    · intro hh
      split at hh
      · rename_i ha
        simp only [Option.some.injEq] at hh; subst hh
        refine ⟨rfl, fun j hj => ?_⟩
        simp at ha
        exact ha j hj
      · cases hh
    · rintro ⟨rfl, ha⟩
      rw [if_pos]
      simp; exact ha

/-- A decode pass that finds nothing says that every member decodes. -/
theorem firstUnmapped_none {p bs img fs} (h : firstUnmapped p bs img fs = none) {f d} (hf : f ∈ fs)
    (hm : memberDesc p bs f = some d) : decodeField p d img ≠ .unmapped := by
  induction fs with
  | nil => cases hf
  | cons g gs ih =>
    simp only [firstUnmapped] at h
    rcases List.mem_cons.mp hf with rfl | hf
    · rw [hm] at h; simp only at h
      split at h
      · cases h
      · assumption
    · split at h
      · split at h
        · cases h
        · exact ih h hf
      · exact ih h hf

/-- The bytes of a field depend on its blocks alone. -/
theorem cat_congr {a b : Vector Block 49} {k n} (h : ∀ j < n, imageAt a (k+j) = imageAt b (k+j)) : cat a k n =
    cat b k n := by
  unfold cat
  exact List.flatMap_congr fun j hj => by rw [h j (List.mem_range.mp hj)]

/-- A snapshot taken after the decode pass decodes. -/
theorem snapshotDecodes_taken {p : Params} {v bs buf snap} {s : State} (hv : view v = some bs) (hp : s.params = p)
    (hs : s.snapv = blockMask bs) (hsn : s.snap = snapTake bs buf snap)
    (h : firstUnmapped p bs buf (List.range 255) = none) : SnapshotDecodes s := by
  intro f d hd hb
  rw [hp] at hd
  have hmem : ∀ j < d.nblk, d.blk0 + j ∈ bs := by
    intro j hj
    have := hb j hj
    rw [hs, snapv_view hv] at this
    simpa using this
  have := firstUnmapped_none h (List.mem_range.mpr (desc_lt hd)) (memberDesc_iff.mpr ⟨hd, hmem⟩)
  have hc : decodeField p d s.snap = decodeField p d buf := by
    unfold decodeField
    rw [cat_congr (b := buf)]
    intro j hj
    rw [hsn, imageAt_snapTake (hmem j hj) ((view_le hv _ (hmem j hj)).trans (by omega))]
  rw [hp, hc]; exact this

/-- With no snapshot there is nothing to decode. -/
theorem snapshotDecodes_empty {s : State} (h : s.snapv = 0) : SnapshotDecodes s := by
  intro f d hd hb
  have := hb 0 (desc_blocks hd).1
  rw [h] at this; simp at this

/-- The decode pass finds the first member that misses. -/
theorem firstUnmapped_some {p bs img fs f d} (hs : fs.Pairwise (· < ·)) (hf : f ∈ fs) (hm : memberDesc p bs f = some d)
    (hu : decodeField p d img = .unmapped)
    (hlt : ∀ g < f, ∀ e, memberDesc p bs g = some e → decodeField p e img ≠ .unmapped) : firstUnmapped p bs img fs =
        some (f, d) := by
  induction fs with
  | nil => cases hf
  | cons g gs ih =>
    simp only [firstUnmapped]
    rcases List.mem_cons.mp hf with rfl | hf'
    · rw [hm]; simp only; rw [if_pos hu]
    · have hgf : g < f := (List.pairwise_cons.mp hs).1 f hf'
      cases hg : memberDesc p bs g with
      | none => simp only; exact ih (List.pairwise_cons.mp hs).2 hf'
      | some e => simp only; rw [if_neg (hlt g hgf e hg)]; exact ih (List.pairwise_cons.mp hs).2 hf'

/-- The decode pass finds nothing where every member decodes. -/
theorem firstUnmapped_eq_none {p bs img fs} (h : ∀ f ∈ fs, ∀ d, memberDesc p bs f = some d →
    decodeField p d img ≠ .unmapped) : firstUnmapped p bs img fs = none := by
  induction fs with
  | nil => rfl
  | cons g gs ih =>
    simp only [firstUnmapped]
    have ih' := ih (fun f hf => h f (List.mem_cons_of_mem _ hf))
    cases hg : memberDesc p bs g with
    | none => exact ih'
    | some e => simp only; rw [if_neg (h g List.mem_cons_self e hg)]; exact ih'

end Sys2Proof.Machine
end

