-- ==== Sys2Proof/Laws/Inv.lean ====
section
/-! SUPPORT. The flags of `STATUS`, and the invariant at the three ends an operation can have (10_state.md R34, R42, R43,
60_exceptions.md R256). -/

namespace Sys2Proof.Machine

/-- Each flag of `STATUS` reads as it was written, and the reserved bits read as 0 (R26). -/
theorem flags_mkStatus (b d f c u : Bool) :
    statusReserved (mkStatus b d f c u) = 0 ∧ statusBusy (mkStatus b d f c u) = b ∧
    statusDone (mkStatus b d f c u) = d ∧ statusFault (mkStatus b d f c u) = f ∧
    statusCrcok (mkStatus b d f c u) = c ∧ statusUnk (mkStatus b d f c u) = u := by
  revert b d f c u
  decide

/-- A snapshot that is kept decodes as before. -/
theorem SnapshotDecodes.kept {s t : State} (h : SnapshotDecodes s) (hk : SnapshotKept s t) (hp : t.params = s.params) :
    SnapshotDecodes t := by
  unfold SnapshotDecodes
  rw [hp, hk.1, hk.2]
  exact h

/-- Registers at their reset values meet the invariant. -/
theorem inv_atReset {t : State} (h : AtReset t) (ht : TagInv t) : Inv t := by
  obtain ⟨-, h2, h3, -, -, h6, h7, -, -, -, -, h12, h13, h14⟩ := h
  refine ⟨ht, ⟨?_, ?_, h14, ?_, ?_, ?_, ?_⟩, .inl h13, snapshotDecodes_empty h13, ?_, ?_⟩ <;>
    simp [h2, h3, h6, h7, h12] <;> decide

/-- A normal end meets the invariant, from a state whose tag and snapshot do. -/
theorem inv_finish {r : Result} {u : State} (ht : TagInv u) (hs : SnapshotInv u) (hd : SnapshotDecodes u)
    (hc : r.crcok = true → u.crcexp = u.crcact) (hb : r.bytes.length ≤ 192) : Inv (finish r u) := by
  obtain ⟨k1, k2, -, k4, k5, -⟩ := flags_mkStatus false true false r.crcok r.unk
  refine ⟨ht, ⟨k1, k2, rfl, ?_, ?_, ?_, ?_⟩, hs, hd.kept (s := u) ⟨rfl, rfl⟩ rfl, ?_, ?_⟩
  · show statusFault (mkStatus false true false r.crcok r.unk) = true ↔ _
    rw [k4]
    simp
  · simp
  · intro _
    rfl
  · show statusCrcok (mkStatus false true false r.crcok r.unk) = true → _
    rw [k5]
    exact hc
  · rw [reslen_finish _ _ hb]
    omega
  · rw [reslen_finish _ _ hb]
    omega

/-- A faulted end meets the invariant, from a state whose tag and snapshot do. -/
theorem inv_raiseFault {f : FaultKind} {blk : BitVec 16} {fld : BitVec 8} {u : State} (ht : TagInv u) (hs : SnapshotInv u)
    (hd : SnapshotDecodes u) : Inv (raiseFault f blk fld u) := by
  obtain ⟨k1, k2, k3, k4, k5, -⟩ := flags_mkStatus false true true false false
  refine ⟨ht, ⟨k1, k2, rfl, ?_, ?_, ?_, ?_⟩, hs, hd.kept (s := u) ⟨rfl, rfl⟩ rfl, ?_, ?_⟩
  · show statusFault (mkStatus false true true false false) = true ↔ _
    rw [k4]
    cases f <;> simp [FaultKind.code]
  · cases f <;> simp [FaultKind.code]
  · show statusDone (mkStatus false true true false false) = false → _
    rw [k3]
    simp
  · show statusCrcok (mkStatus false true true false false) = true → _
    rw [k5]
    simp
  · simp
  · simp

end Sys2Proof.Machine
end

