-- ==== Sys2Proof/Laws/PerInstr.lean ====
section
/-! SUPPORT. Statements made for every instruction, one lemma per constructor (30_encoding.md R90, R92, R95 to R97). -/

namespace Sys2Proof.Laws.OwnRow

/-- An instruction is encoded in its own row: the word of a host command is one that the row with its mnemonic selects, and
a tag command is a byte string of its own length. -/
def Statement (i : Instr) : Prop :=
  match encode i with
  | .cmd w => ∃ r ∈ opRows, r.mnemonic = i.mnemonic ∧ r.selects w = true
  | .apdu bs => bs.length = (match i with | .apduWrite _ _ => 9 | _ => 5) ∧ bs.head? = some 0xFF#8

/-- The word of three fields is selected by a row with its operation, where the row's mask lets the other fields through. -/
theorem selected (m : String) (op sel msel : BitVec 8) (blk mblk : BitVec 16) (h : sel &&& msel = 0 ∧ blk &&& mblk = 0) :
    OpRow.selects ⟨m, cmdWord op 0 0, cmdWord 0xFF msel mblk⟩ (cmdWord op sel blk) = true := by
  rw [selects_cmdWord, cmdOp_cmdWord, cmdSel_cmdWord, cmdBlk_cmdWord, decide_eq_true rfl, decide_eq_true h.1,
    decide_eq_true h.2]
  rfl

theorem rdblk (blk : Nat) : Statement (.rdblk blk) := by
  refine ⟨opRows[0], List.getElem_mem _, rfl, ?_⟩
  exact selected "RDBLK" _ _ 0xFF _ 0 ⟨BitVec.zero_and, BitVec.and_zero⟩

theorem wrblk (blk : Nat) : Statement (.wrblk blk) := by
  refine ⟨opRows[1], List.getElem_mem _, rfl, ?_⟩
  exact selected "WRBLK" _ _ 0xFF _ 0 ⟨BitVec.zero_and, BitVec.and_zero⟩

theorem getuid : Statement .getuid := by
  refine ⟨opRows[2], List.getElem_mem _, rfl, ?_⟩
  exact selected "GETUID" _ _ 0xFF _ 0xFFFF ⟨rfl, rfl⟩

theorem crcCompute : Statement .crcCompute := by
  refine ⟨opRows[3], List.getElem_mem _, rfl, ?_⟩
  exact selected "CRC.COMPUTE" _ _ 0xFF _ 0xFFFF ⟨rfl, rfl⟩

theorem crcEnc : Statement .crcEnc := by
  refine ⟨opRows[4], List.getElem_mem _, rfl, ?_⟩
  exact selected "CRC.ENC" _ _ 0xFF _ 0xFFFF ⟨rfl, rfl⟩

theorem crcDec : Statement .crcDec := by
  refine ⟨opRows[5], List.getElem_mem _, rfl, ?_⟩
  exact selected "CRC.DEC" _ _ 0xFF _ 0xFFFF ⟨rfl, rfl⟩

theorem crcValidate : Statement .crcValidate := by
  refine ⟨opRows[6], List.getElem_mem _, rfl, ?_⟩
  exact selected "CRC.VALIDATE" _ _ 0xFF _ 0xFFFF ⟨rfl, rfl⟩

theorem crcRecompute : Statement .crcRecompute := by
  refine ⟨opRows[7], List.getElem_mem _, rfl, ?_⟩
  exact selected "CRC.RECOMPUTE" _ _ 0xFF _ 0xFFFF ⟨rfl, rfl⟩

theorem fldRd (sel : Nat) : Statement (.fldRd sel) := by
  refine ⟨opRows[8], List.getElem_mem _, rfl, ?_⟩
  exact selected "FLD.RD" _ _ 0 _ 0xFFFF ⟨BitVec.and_zero, BitVec.zero_and⟩

theorem fldDec (sel : Nat) : Statement (.fldDec sel) := by
  refine ⟨opRows[9], List.getElem_mem _, rfl, ?_⟩
  exact selected "FLD.DEC" _ _ 0 _ 0xFFFF ⟨BitVec.and_zero, BitVec.zero_and⟩

theorem fldEnc (sel : Nat) : Statement (.fldEnc sel) := by
  refine ⟨opRows[10], List.getElem_mem _, rfl, ?_⟩
  exact selected "FLD.ENC" _ _ 0 _ 0xFFFF ⟨BitVec.and_zero, BitVec.zero_and⟩

theorem cfgReadall (sel : Nat) : Statement (.cfgReadall sel) := by
  refine ⟨opRows[11], List.getElem_mem _, rfl, ?_⟩
  exact selected "CFG.READALL" _ _ 0 _ 0xFFFF ⟨BitVec.and_zero, BitVec.zero_and⟩

theorem cfgMutate (sel : Nat) : Statement (.cfgMutate sel) := by
  refine ⟨opRows[12], List.getElem_mem _, rfl, ?_⟩
  exact selected "CFG.MUTATE" _ _ 0 _ 0xFFFF ⟨BitVec.and_zero, BitVec.zero_and⟩

theorem cfgErase : Statement .cfgErase := by
  refine ⟨opRows[13], List.getElem_mem _, rfl, ?_⟩
  exact selected "CFG.ERASE" _ _ 0xFF _ 0xFFFF ⟨rfl, rfl⟩

theorem apduRead (n : Nat) : Statement (.apduRead n) := ⟨rfl, rfl⟩

theorem apduWrite (n : Nat) (d : Block) : Statement (.apduWrite n d) := ⟨rfl, rfl⟩

theorem apduGetuid : Statement .apduGetuid := ⟨rfl, rfl⟩

end Sys2Proof.Laws.OwnRow
end

