-- ==== Sys2Proof/Machine/Render.lean ====
section
/-! DEFINITION. The host's side of the binary interface: hexadecimal strings of bytes and back (00_scope.md R13,
30_encoding.md R101), the colon-separated form of a MAC (42_codec_transforms.md R167), labels and sentinels of enumeration
codes (R189). No operation reads them. -/

namespace Sys2Proof.Machine

/-- One digit as a character of `0123456789ABCDEF` (R13). -/
def hexChar (q : Nat) : Char := "0123456789ABCDEF".toList.getD q '0'

/-- `hex(s)`: uppercase, no separator (R13). -/
def hexChars (s : List Byte) : List Char :=
  s.flatMap (fun b => [hexChar (b.toNat / 16), hexChar (b.toNat % 16)])

/-- The value of a character as a digit of `0123456789ABCDEF`, if it is one (R13; R101: lower case is none). -/
def hexDigit (c : Char) : Option Nat := (List.range 16).find? (fun q => hexChar q == c)

/-- The byte string of a text, the inverse of `hex`: two digits a byte, high nibble first (R13, R101). -/
def bytesOfHex : List Char → Option (List Byte)
  | [] => some []
  | [_] => none
  | hi :: lo :: rest =>
    match hexDigit hi, hexDigit lo, bytesOfHex rest with
    | some p, some q, some bs => some (BitVec.ofNat 8 (16 * p + q) :: bs)
    | _, _, _ => none

/-- The raw block value of a block, 8 characters (R101). -/
def Block.hex (b : Block) : List Char := hexChars b.toList

/-- The block of a raw block value: exactly 8 characters of `0123456789ABCDEF`, else none (R101). -/
def blockOfHex (text : List Char) : Option Block := (bytesOfHex text).bind Block.ofBytes

/-- `mac_render(F)`: a colon between octets, none at the ends (R167). -/
def macChars : List Byte → List Char
  | [] => []
  | [b] => hexChars [b]
  | b :: bs => hexChars [b] ++ ':' :: macChars bs

/-- `SENTINEL[tbl]`: an argument of the machine, but for table 1, whose sentinel is fixed (R10, R189). -/
def sentinel (p : Params) (tbl : Fin 4) : SentinelText :=
  match tbl with
  | 0 => p.sentinelRegion
  | 1 => .unknown
  | 2 => p.sentinelPing
  | 3 => p.sentinelSku

/-- The text of a sentinel (R10). -/
def SentinelText.text : SentinelText → String
  | .unknown => "Unknown"
  | .notSelected => "Not Selected"

/-- `label(tbl, code)`: one label is given, the others are open (R189; log 20). -/
def label (tbl : Fin 4) (code : Byte) : String :=
  if tbl = 1 ∧ code = 0xD8#8 then "-40dBm" else Config.labelText tbl code

/-- What a host shows for a delivered code and the flag `UNK` (R187, R189). -/
def enumText (p : Params) (tbl : Fin 4) (code : Byte) (unk : Bool) : String :=
  if unk then SentinelText.text (sentinel p tbl) else label tbl code

end Sys2Proof.Machine
end

