-- ==== Sys2Proof/Laws/Render.lean ====
section
/-! SUPPORT. The text of a byte string and back: `hex` and its inverse (00_scope.md R13, 30_encoding.md R101). -/

namespace Sys2Proof.Machine

theorem hexDigit_hexChar : ∀ q < 16, hexDigit (hexChar q) = some q := by decide

theorem hexDigit_some {c : Char} {q : Nat} (h : hexDigit c = some q) : q < 16 ∧ hexChar q = c := by
  unfold hexDigit at h
  have he : (hexChar q == c) = true := List.find?_some (p := fun q => hexChar q == c) h
  exact ⟨List.mem_range.mp (List.mem_of_find?_eq_some h), eq_of_beq he⟩

/-- `hex` loses nothing. -/
theorem bytesOfHex_hexChars (bs : List Byte) : bytesOfHex (hexChars bs) = some bs := by
  induction bs with
  | nil => rfl
  | cons b bs ih =>
    have hb := b.isLt
    show bytesOfHex (hexChar (b.toNat / 16) :: hexChar (b.toNat % 16) :: hexChars bs) = _
    rw [bytesOfHex, hexDigit_hexChar _ (by omega), hexDigit_hexChar _ (by omega), ih]
    simp only [Nat.div_add_mod, BitVec.ofNat_toNat, BitVec.setWidth_eq]

/-- Only the text of a byte string is taken. -/
theorem hexChars_bytesOfHex {text : List Char} {bs : List Byte} (h : bytesOfHex text = some bs) : hexChars bs = text := by
  fun_induction bytesOfHex text generalizing bs with
  | case1 => cases h; rfl
  | case2 => cases h
  | case3 hi lo rest p q bs' hr hq hp ih =>
    cases h
    obtain ⟨hp, rfl⟩ := hexDigit_some hp
    obtain ⟨hq, rfl⟩ := hexDigit_some hq
    show hexChar _ :: hexChar _ :: hexChars bs' = _
    rw [ih hr, BitVec.toNat_ofNat, Nat.mod_eq_of_lt (by omega), show (16 * p + q) / 16 = p by omega,
      show (16 * p + q) % 16 = q by omega]
  | case4 => cases h

/-- A text names a block exactly when it is that block's 8 characters (R101). -/
theorem blockOfHex_eq_some {text : List Char} {b : Block} : blockOfHex text = some b ↔ text = Block.hex b := by
  unfold blockOfHex Block.hex
  constructor
  · intro h
    obtain ⟨bs, hbs, hb⟩ := Option.bind_eq_some_iff.mp h
    rw [← hexChars_bytesOfHex hbs]
    unfold Block.ofBytes at hb
    split at hb
    · cases hb
      rfl
    · cases hb
  · rintro rfl
    rw [bytesOfHex_hexChars]
    rfl

theorem length_hex (b : Block) : (Block.hex b).length = 8 := rfl

end Sys2Proof.Machine
end

