-- ==== Sys2Proof/Laws/Scripted.lean ====
section
/-! SUPPORT. Exchanges with scripted answers: one answer, a list of good ones, the first that is not; what a list of block
writes leaves on the tag (20_memory.md R62, R64, R65, R77; 44_aggregate.md R233). -/

namespace Sys2Proof.Machine

/-- One exchange with a scripted answer. -/
theorem transmit_answers (q c) {s : State} {y fate es} (h : s.link = ⟨[], .answers y fate⟩ :: es) :
    transmit q c s = .ok y
      { s with
        seq := q, link := es, tag := if y.success then tagAfter c s else tagAfterFailure c fate s
        trace := ⟨q, c.bytes, some y⟩ :: s.trace } := by
  unfold transmit
  rw [h]
  cases c <;> rfl

theorem ofBytes_some {l : List Byte} (h : l.length = 4) : ∃ b, Block.ofBytes l = some b ∧ b.toList = l := by
  match l, h with
  | [a,b,c,d], _ => exact ⟨⟨a,b,c,d⟩, rfl, rfl⟩
theorem ofBytes_none {l : List Byte} (h : l.length ≠ 4) : Block.ofBytes l = none := by
  unfold Block.ofBytes; split
  · simp at h
  · rfl

/-- readBlock under a scripted answer -/
theorem readBlock_answers (q) {n} (hn : n ≤ 48) (fld) {s : State} {y fate es} (h : s.link = ⟨[], .answers y fate⟩ :: es) :
    ∃ u, u = { s with seq := q, link := es, trace := ⟨q, TagCmd.bytes (.read n), some y⟩ :: s.trace } ∧
    ((¬Answered y ∧ readBlock q n fld s = .raised .transportFault (BitVec.ofNat 16 n) fld u) ∨
     (∃ data, y = .resp (data ++ [0x90#8, 0x00#8]) ∧ data.length ≠ 4 ∧
         readBlock q n fld s = .raised .decodeFault (BitVec.ofNat 16 n) fld u) ∨
     (∃ data b, y = .resp (data ++ [0x90#8, 0x00#8]) ∧ b.toList = data ∧
         readBlock q n fld s = .ok b { u with buf := u.buf.setIfInBounds n b })) := by
  refine ⟨_, rfl, ?_⟩
  have ht : ∀ (y : Answer) (fate : WriteFate),
      (if y.success then tagAfter (.read n) s else tagAfterFailure (.read n) fate s) = s.tag := by
    intro y fate
    split <;> rfl
  have e : readBlock q n fld s =
      (checkStatus y (BitVec.ofNat 16 n) fld
        { s with seq := q, link := es, trace := ⟨q, TagCmd.bytes (.read n), some y⟩ :: s.trace }).andThen fun data s =>
    match Block.ofBytes data with
    | some b => .ok b { s with buf := s.buf.setIfInBounds n b }
    | none => .raised .decodeFault (BitVec.ofNat 16 n) fld s := by
    unfold readBlock
    rw [if_neg (by simp [Config.maxBlock]; omega), transmit_answers q _ h, ht]
    rfl
  rw [e]
  by_cases ha : Answered y
  · obtain ⟨data, rfl⟩ := ha
    rw [checkStatus_good]
    simp only [andThen_ok]
    by_cases hd : data.length = 4
    · obtain ⟨b, hb, hb2⟩ := ofBytes_some hd
      exact .inr (.inr ⟨data, b, rfl, hb2, by rw [hb]⟩)
    · exact .inr (.inl ⟨data, rfl, hd, by rw [ofBytes_none hd]⟩)
  · rw [checkStatus_bad ha]
    exact .inl ⟨ha, rfl⟩

/-- The first four bytes of `OP`. -/
theorem take4 (v : Vector Byte 192) : v.toList.take 4 = [v[0], v[1], v[2], v[3]] := by
  apply List.ext_getElem
  · simp
  · intro n h1 h2
    simp at h2
    have : n = 0 ∨ n = 1 ∨ n = 2 ∨ n = 3 := by omega
    rcases this with rfl | rfl | rfl | rfl <;> simp

/-- Storing one block keeps all others. -/
theorem keptBut_store {s t : State} {n d} (h : t.tag = tagStore s.tag n d) : TagKeptBut [n] s t := by
  intro a ha
  rw [h]
  exact byteAt_tagStore_other _ _ (by simpa using ha)

/-- `writeBlock` with a scripted answer. -/
theorem writeBlock_answers (q) {n} (hn : n ≤ 48) (d fld) {s : State} {y fate es}
    (h : s.link = ⟨[], .answers y fate⟩ :: es) :
    ∃ u, u =
      { s with
        seq := q, link := es, tag := if y.success then tagAfter (.write n d) s else tagAfterFailure (.write n d) fate s
        trace := ⟨q, TagCmd.bytes (.write n d), some y⟩ :: s.trace } ∧
    ((¬Answered y ∧ writeBlock q n d fld s = .raised .transportFault (BitVec.ofNat 16 n) fld u) ∨
     (Answered y ∧ writeBlock q n d fld s = .ok () u)) := by
  refine ⟨_, rfl, ?_⟩
  unfold writeBlock
  rw [if_neg (by simp [Config.maxBlock]; omega), transmit_answers q _ h]
  simp only [andThen_ok]
  by_cases ha : Answered y
  · refine .inr ⟨ha, ?_⟩
    obtain ⟨data, rfl⟩ := ha
    rw [checkStatus_good]; rfl
  · refine .inl ⟨ha, ?_⟩
    rw [checkStatus_bad ha]; rfl

/-- An exchange with the well-behaved tag, nothing beside it. -/
def good : LinkEvent := ⟨[], .behaved⟩

theorem transmit_good (q c) {s : State} {es} (h : s.link = good :: es) :
    transmit q c s = .ok (behavedAnswer c s) { exchanged q c s with link := es } := by
  unfold transmit; rw [h]; cases c <;> rfl

theorem readBlock_good (q) {n} (hn : n ≤ 48) (fld) {s : State} {es} (h : s.link = good :: es) :
    readBlock q n fld s = .ok (s.tag.blockAt n) { readState q n s with link := es } := by
  unfold readBlock
  rw [if_neg (by simp [Config.maxBlock]; omega), transmit_good q _ h]
  simp only [andThen_ok, behavedAnswer, checkStatus_good, ofBytes_toList]
  rfl

theorem writeBlock_good (q) {n} (hn : n ≤ 48) (d fld) {s : State} {es} (h : s.link = good :: es) :
    writeBlock q n d fld s = .ok () { exchanged q (.write n d) s with link := es } := by
  unfold writeBlock
  rw [if_neg (by simp [Config.maxBlock]; omega), transmit_good q _ h]
  have := checkStatus_good [] (BitVec.ofNat 16 n) fld { exchanged q (.write n d) s with link := es }
  simp only [List.nil_append] at this
  simp only [andThen_ok, behavedAnswer, this]

/-- state differs from s in seq, buf, link, trace only -/
def OnlyReads (s u : State) : Prop := ∃ q b e l, u = { s with seq := q, buf := b, link := e, trace := l }

/-- The first read that fails ends a list of reads (R149, R260). -/
theorem readBlocks_fail (ph fld) {ns : List Nat} (hn : ∀ n ∈ ns, n ≤ 48) (i k blk) {y fate es} (s : State)
   (hk : ns[k]? = some blk)
   (hy : ∀ data, y = .resp (data ++ [0x90#8, 0x00#8]) → data.length ≠ 4)
   (hl : s.link = List.replicate k good ++ ⟨[], .answers y fate⟩ :: es) :
   ∃ f u, readBlocks ph fld ns i s = .raised f (BitVec.ofNat 16 blk) fld u ∧ (¬Answered y → f = .transportFault) ∧
       (Answered y → f = .decodeFault) ∧
     OnlyReads s u ∧ u.link = es ∧ sent u = readsOf (ns.take (k+1)) ++ sent s := by
  induction ns generalizing i k s with
  | nil => simp at hk
  | cons n ns ih =>
    cases k with
    | zero =>
      simp at hk; subst hk
      simp only [List.replicate_zero, List.nil_append] at hl
      obtain ⟨u, hu, hcase⟩ := readBlock_answers (.pos ph i) (hn n List.mem_cons_self) fld hl
      simp only [readBlocks]
      have h1 : OnlyReads s u := ⟨_, _, _, _, hu⟩
      have h2 : u.link = es := by rw [hu]
      have h3 : sent u = readsOf [n] ++ sent s := by rw [hu]; rfl
      rcases hcase with ⟨ha, e⟩ | ⟨data, rfl, hd, e⟩ | ⟨data, b, rfl, rfl, e⟩
      · rw [e]; exact ⟨_, u, rfl, fun _ => rfl, fun h => absurd h ha, h1, h2, h3⟩
      · rw [e]; exact ⟨_, u, rfl, fun h => absurd ⟨_, rfl⟩ h, fun _ => rfl, h1, h2, h3⟩
      · exact absurd (by simp [Block.toList]) (hy _ rfl)
    | succ k =>
      simp at hk
      rw [List.replicate_succ, List.cons_append] at hl
      simp only [readBlocks]
      rw [readBlock_good _ (hn n List.mem_cons_self) fld hl]
      simp only [andThen_ok]
      obtain ⟨f, u, h1, h2, h3, ⟨q, b, e, l, h4⟩, h5, h6⟩ := ih (fun m hm => hn m (List.mem_cons_of_mem _ hm)) (i+1)
          k { readState (.pos ph i) n s with link := List.replicate k good ++ ⟨[], .answers y fate⟩ :: es } hk rfl
      refine ⟨f, u, h1, h2, h3, ⟨q, b, e, l, by rw [h4]; rfl⟩, h5, ?_⟩
      rw [h6]
      simp only [List.take_succ_cons, readsOf, List.map_cons, List.reverse_cons, List.append_assoc]
      rfl

theorem OnlyReads.onlyResult {s u} (h : OnlyReads s u) : OnlyResult s u ∧ TagKept s u := by
  obtain ⟨q, b, e, l, rfl⟩ := h
  exact ⟨OnlyResult.refl s, fun _ => rfl⟩

/-- The next `n` exchanges are with the well-behaved tag. -/
def AllGood (n : Nat) (s : State) : Prop := ∀ e ∈ s.link.take n, e = good

theorem transmit_allGood (q c) {s : State} (h : AllGood 1 s) :
    transmit q c s = .ok (behavedAnswer c s) { exchanged q c s with link := s.link.drop 1 } := by
  cases hl : s.link with
  | nil => 
    rw [transmit_behaved q c hl]; simp [exchanged, hl]
  | cons e es =>
    have : e = good := h e (by rw [hl]; simp)
    subst this
    rw [transmit_good q c hl]; rfl

theorem readBlock_allGood (q) {n} (hn : n ≤ 48) (fld) {s : State} (h : AllGood 1 s) :
    readBlock q n fld s = .ok (s.tag.blockAt n) { readState q n s with link := s.link.drop 1 } := by
  unfold readBlock
  rw [if_neg (by simp [Config.maxBlock]; omega), transmit_allGood q _ h]
  simp only [andThen_ok, behavedAnswer, checkStatus_good, ofBytes_toList]
  rfl

theorem writeBlock_allGood (q) {n} (hn : n ≤ 48) (d fld) {s : State} (h : AllGood 1 s) :
    writeBlock q n d fld s = .ok () { exchanged q (.write n d) s with link := s.link.drop 1 } := by
  unfold writeBlock
  rw [if_neg (by simp [Config.maxBlock]; omega), transmit_allGood q _ h]
  have := checkStatus_good [] (BitVec.ofNat 16 n) fld { exchanged q (.write n d) s with link := s.link.drop 1 }
  simp only [List.nil_append] at this
  simp only [andThen_ok, behavedAnswer, this]

theorem AllGood.head {n s} (h : AllGood (n+1) s) : AllGood 1 s := fun e he => h e (by
  revert he; cases s.link <;> simp; intro h; exact Or.inl h)

theorem AllGood.tail {n s} (h : AllGood (n+1) s) {t : State} (ht : t.link = s.link.drop 1) : AllGood n t :=
  fun e he => h e (by rw [ht] at he; revert he; cases s.link <;> simp; intro h; exact Or.inr h)

/-- The tag after a list of block writes. -/
def setAll (m : Memory) (ws : List (Nat × Block)) : Memory := ws.foldl (fun m w => m.setBlock w.1 w.2) m

/-- A list of good writes. -/
theorem writeBlocks_allGood (ph fld) {ws : List (Nat × Block)} (hn : ∀ w ∈ ws, w.1 ≤ 48) (i) {s : State}
    (h : AllGood ws.length s) :
    ∃ q l, writeBlocks ph fld ws i s = .ok ()
        { s with seq := q, link := s.link.drop ws.length, tag := setAll s.tag ws, trace := l ++ s.trace } ∧
      l.map (·.cmd) = (ws.map (fun w => TagCmd.bytes (.write w.1 w.2))).reverse := by
  induction ws generalizing i s with
  | nil => exact ⟨s.seq, [], rfl, rfl⟩
  | cons w ws ih =>
    obtain ⟨n, d⟩ := w
    simp only [writeBlocks]
    rw [writeBlock_allGood _ (hn (n,d) List.mem_cons_self) d fld h.head]
    simp only [andThen_ok]
    obtain ⟨q, l, e, hc⟩ := ih (fun w hw => hn w (List.mem_cons_of_mem _ hw)) (i+1)
      (s := { exchanged (.pos ph i) (.write n d) s with link := s.link.drop 1 }) (h.tail rfl)
    refine ⟨q, l ++ [⟨.pos ph i, TagCmd.bytes (.write n d), some (.resp [0x90#8, 0x00#8])⟩], ?_, ?_⟩
    · rw [e]
      simp only [exchanged, tagAfter, List.drop_drop, List.append_assoc, List.singleton_append, List.length_cons]
      rw [tagStore_of_le (hn (n,d) List.mem_cons_self), Nat.add_comm 1]
      rfl
    · simp [hc]

/-- What the read phase of a mutation collects (R233). -/
def oldsOf (m : Memory) (blk0 : Nat) : List Block → Nat → List Block
  | [], _ => []
  | b :: ms, j => (if b = Block.fill 0xFF#8 then Block.fill 0 else m.blockAt (blk0 + j)) :: oldsOf m blk0 ms (j+1)

/-- The blocks the read phase of a mutation reads (R233). -/
def partials (blk0 : Nat) : List Block → Nat → List Nat
  | [], _ => []
  | b :: ms, j => if b = Block.fill 0xFF#8 then partials blk0 ms (j+1) else (blk0 + j) :: partials blk0 ms (j+1)

/-- The read phase of a mutation with good answers. -/
theorem readOld_allGood (fld blk0) {ms : List Block} (j i) {s : State} (hb : blk0 + j + ms.length ≤ 49)
    (h : AllGood (partials blk0 ms j).length s) :
    ∃ q b l, readOld blk0 fld ms j i s = .ok (oldsOf s.tag blk0 ms j)
        { s with seq := q, buf := b, link := s.link.drop (partials blk0 ms j).length, trace := l ++ s.trace } ∧
      l.map (·.cmd) = readsOf (partials blk0 ms j) := by
  induction ms generalizing j i s with
  | nil => exact ⟨s.seq, s.buf, [], rfl, rfl⟩
  | cons m ms ih =>
    simp only [List.length_cons] at hb
    simp only [readOld, partials, oldsOf]
    by_cases hm : m = Block.fill 0xFF#8
    · simp only [hm, if_true]
      simp only [partials, hm, if_true] at h
      obtain ⟨q, b, l, e, hc⟩ := ih (j+1) i (by omega) h
      exact ⟨q, b, l, by rw [e]; rfl, hc⟩
    · simp only [hm, if_false]
      simp only [partials, hm, if_false, List.length_cons] at h
      rw [readBlock_allGood _ (by omega) fld h.head]
      simp only [andThen_ok]
      obtain ⟨q, b, l, e, hc⟩ := ih (j+1) (i+1)
        (s := { readState (.pos .rmwRead i) (blk0 + j) s with link := s.link.drop 1 }) (by omega) (h.tail rfl)
      refine ⟨q, b, l ++ [⟨.pos .rmwRead i, TagCmd.bytes (.read (blk0 + j)), some (behavedAnswer (.read (blk0 + j)) s)⟩],
          ?_, ?_⟩
      · rw [e]
        simp only [andThen_ok, readState, exchanged, tagAfter, List.drop_drop, List.append_assoc, List.singleton_append,
            List.length_cons, Nat.add_comm 1]
      · simp [hc, readsOf]

theorem setAll_wf {m : Memory} (h : Memory.wf m = true) (ws) : Memory.wf (setAll m ws) = true := by
  unfold setAll
  induction ws generalizing m with
  | nil => exact h
  | cons w ws ih => exact ih (wf_setBlock h _ _)

/-- A byte of no written block is kept. -/
theorem setAll_byte (m : Memory) (ws : List (Nat × Block)) (a) (h : ∀ w ∈ ws, a / 4 ≠ w.1) : (setAll m ws).byteAt a =
    m.byteAt a := by
  unfold setAll
  induction ws generalizing m with
  | nil => rfl
  | cons w ws ih =>
    rw [List.foldl_cons, ih _ (fun w hw => h w (List.mem_cons_of_mem _ hw))]
    exact byteAt_setBlock_other _ _ (h w List.mem_cons_self)

/-- A block that is not written is kept. -/
theorem setAll_block (m : Memory) (ws : List (Nat × Block)) (n) (h : ∀ w ∈ ws, n ≠ w.1) : (setAll m ws).blockAt n =
    m.blockAt n :=
  blockAt_congr fun a ha => setAll_byte m ws a (fun w hw => by rw [ha]; exact h w hw)

/-- consecutive writes -/
def consec (blk0 : Nat) (bs : List Block) : List (Nat × Block) := match bs with
  | [] => []
  | b :: bs => (blk0, b) :: consec (blk0+1) bs

theorem consec_mem {blk0 bs} : ∀ w ∈ consec blk0 bs, blk0 ≤ w.1 ∧ w.1 < blk0 + bs.length := by
  induction bs generalizing blk0 with
  | nil => simp [consec]
  | cons b bs ih =>
    intro w hw
    simp only [consec, List.mem_cons] at hw
    simp only [List.length_cons]
    rcases hw with rfl | hw
    · simp
    · have := ih w hw; omega

/-- Each of the blocks written in a row holds what was written. -/
theorem setAll_consec {m : Memory} (hw : Memory.wf m = true) (blk0 bs) (j) (hj : j < bs.length)
    : (setAll m (consec blk0 bs)).blockAt (blk0 + j) = bs[j] := by
  induction bs generalizing m blk0 j with
  | nil => simp at hj
  | cons b bs ih =>
    show (setAll (m.setBlock blk0 b) (consec (blk0+1) bs)).blockAt (blk0 + j) = _
    cases j with
    | zero =>
      rw [setAll_block]
      · exact blockAt_setBlock_same hw _ _
      · intro w hw; have := consec_mem w hw; omega
    | succ j =>
      have := ih (wf_setBlock hw blk0 b) (blk0+1) j (by simpa using hj)
      rw [show blk0 + (j+1) = blk0 + 1 + j by omega, this]; rfl

/-- Blocks merged under masks. -/
def merged : List Block → List Block → List Block → List Block
  | o :: os, d :: ds, m :: ms => Block.merge o d m :: merged os ds ms
  | _, _, _ => []

/-- The writes of a mutation are consecutive. -/
theorem newBlocks_eq (blk0 os ds ms) : newBlocks blk0 os ds ms = consec blk0 (merged os ds ms) := by
  induction os generalizing blk0 ds ms with
  | nil => simp [newBlocks, merged, consec]
  | cons o os ih =>
    match ds, ms with
    | [], _ => simp [newBlocks, merged, consec]
    | _ :: _, [] => simp [newBlocks, merged, consec]
    | d :: ds, m :: ms => simp [newBlocks, merged, consec, ih]

theorem consec_take (blk0 bs k) : consec blk0 (bs.take k) = (consec blk0 bs).take k := by
  induction bs generalizing blk0 k with
  | nil => simp [consec]
  | cons b bs ih => cases k <;> simp [consec, ih]

theorem consec_length (blk0 bs) : (consec blk0 bs).length = bs.length := by
  induction bs generalizing blk0 with
  | nil => rfl
  | cons b bs ih => simp [consec, ih]

theorem oldsOf_length (m blk0 ms j) : (oldsOf m blk0 ms j).length = ms.length := by
  induction ms generalizing j with
  | nil => rfl
  | cons b ms ih => simp [oldsOf, ih]

theorem merged_length {os ds ms : List Block} {n} (h1 : os.length = n) (h2 : ds.length = n) (h3 : ms.length = n)
    : (merged os ds ms).length = n := by
  induction os generalizing ds ms n with
  | nil => simp at h1; simp [merged, h1]
  | cons o os ih =>
    match ds, ms with
    | [], _ => simp at h1 h2; omega
    | _ :: _, [] => simp at h2 h3; omega
    | d :: ds, m :: ms => 
      simp at h1 h2 h3
      simp [merged]; rw [ih (n := os.length) rfl (by omega) (by omega)]; omega

/-- The bytes of a list of blocks. -/
def joinBlocks (bs : List Block) : List Byte := bs.flatMap Block.toList

/-- Cutting into blocks and joining again. -/
theorem join_cut {l : List Byte} {n} (h : l.length = 4 * n) : joinBlocks (cutBlocks l) = l := by
  induction n generalizing l with
  | zero => obtain rfl := List.eq_nil_of_length_eq_zero (by omega : l.length = 0); rfl
  | succ n ih =>
    match l, h with
    | a :: b :: c :: e :: rest, h =>
      have := ih (l := rest) (by simpa [Nat.mul_succ] using h)
      simp only [cutBlocks, joinBlocks, List.flatMap_cons] at this ⊢
      rw [this]; rfl

/-- Merging byte strings is merging their blocks. -/
theorem merge_join (os ds ms : List Block) : mergeBytes (joinBlocks os) (joinBlocks ds) (joinBlocks ms) =
    joinBlocks (merged os ds ms) := by
  induction os generalizing ds ms with
  | nil => simp [joinBlocks, merged, mergeBytes]
  | cons o os ih =>
    match ds, ms with
    | [], _ => simp [joinBlocks, merged, mergeBytes, Block.toList]
    | _ :: _, [] => simp [joinBlocks, merged, mergeBytes, Block.toList]
    | d :: ds, m :: ms =>
      have := ih ds ms
      simp only [joinBlocks, merged, List.flatMap_cons] at this ⊢
      rw [← this]
      simp [Block.toList, mergeBytes, Block.merge]

/-- A fully covered block need not be read. -/
theorem merged_olds (m : Memory) (blk0 : Nat) (ds ms : List Block) (j : Nat) : merged (oldsOf m blk0 ms j) ds ms =
    merged ((List.range' j ms.length).map (fun k => m.blockAt (blk0 + k))) ds ms := by
  induction ms generalizing ds j with
  | nil => simp [oldsOf, merged]
  | cons b ms ih =>
    cases ds with
    | nil => simp [oldsOf, merged, List.range'_succ]
    | cons d ds =>
      simp only [oldsOf, merged, List.length_cons, List.range'_succ, List.map_cons]
      rw [ih]
      congr 1
      split
      · rename_i h; subst h
        simp only [Block.merge, Block.fill, merge_full]
      · rfl
where merge_full (o d : Byte) : mergeByte o d 0xFF#8 = d := mergeByte_ff o d

theorem tagCat_join (m : Memory) (b n) : tagCat m b n = joinBlocks ((List.range n).map (fun k => m.blockAt (b + k))) := by
  unfold tagCat joinBlocks; rw [List.flatMap_map]

/-- The blocks read are those whose mask is not full. -/
theorem partials_eq (blk0 : Nat) (mask : List Byte) {n : Nat} (h : mask.length = 4 * n) :
    partials blk0 (cutBlocks mask) 0 = ((List.range n).filter (fun j =>
        decide ((mask.drop (4 * j)).take 4 ≠ List.replicate 4 0xFF#8))).map (blk0 + ·) := by
  have gen : ∀ (j0 : Nat) (mask : List Byte) (n : Nat), mask.length = 4 * n → partials blk0 (cutBlocks mask) j0 =
      ((List.range n).filter (fun j => decide ((mask.drop (4 * j)).take 4 ≠ List.replicate 4 0xFF#8))).map (fun j =>
      blk0 + (j0 + j)) := by
    intro j0 mask n h
    induction n generalizing mask j0 with
    | zero => obtain rfl := List.eq_nil_of_length_eq_zero (by omega : mask.length = 0); rfl
    | succ n ih =>
      match mask, h with
      | a :: b :: c :: e :: rest, h =>
        have := ih (j0+1) rest (by simpa [Nat.mul_succ] using h)
        simp only [cutBlocks, partials, this]
        rw [List.range_succ_eq_map, List.filter_cons, List.filter_map]
        have e1 : ((fun j => decide ((List.drop (4 * j) (a :: b :: c :: e :: rest)).take 4 ≠ List.replicate 4 255#8))
            ∘ Nat.succ) = (fun j => decide ((List.drop (4 * j) rest).take 4 ≠ List.replicate 4 255#8)) := by
          funext j; simp only [Function.comp, Nat.succ_eq_add_one, Nat.mul_add, Nat.mul_one]; rfl
        rw [e1]
        have e2 : (Block.mk a b c e = Block.fill 255#8) ↔ (List.take 4 (List.drop (4*0) (a :: b :: c :: e :: rest)) =
            List.replicate 4 255#8) := by
          simp [Block.fill, List.replicate]
        by_cases hf : Block.mk a b c e = Block.fill 255#8
        · have hf' := e2.mp hf
          rw [if_pos hf, if_neg (by simp only [decide_eq_true_eq]; exact fun h => h hf')]
          rw [List.map_map]; apply List.map_congr_left; intro x _; simp only [Function.comp]; omega
        · have hf' := fun h => hf (e2.mpr h)
          rw [if_neg hf, if_pos (by simp only [decide_eq_true_eq]; exact hf')]
          simp only [List.map_cons, List.map_map, Nat.add_zero]
          congr 1; apply List.map_congr_left; intro x _; simp only [Function.comp]; omega
  have := gen 0 mask n h
  simpa using this

/-- Four bytes of joined blocks are one block. -/
theorem joinBlocks_take4 (bs : List Block) (j) (hj : j < bs.length) : ((joinBlocks bs).drop (4*j)).take 4 =
    bs[j].toList := by
  induction bs generalizing j with
  | nil => simp at hj
  | cons b bs ih =>
    cases j with
    | zero => simp [joinBlocks, Block.toList]
    | succ j =>
      have := ih j (by simpa using hj)
      simp only [joinBlocks, List.flatMap_cons, Nat.mul_add, Nat.mul_one] at this ⊢
      rw [List.getElem_cons_succ, ← this]
      rw [Nat.add_comm, ← List.drop_drop]; rfl

theorem blockAt_ext {a b : Block} (h : a.toList = b.toList) : a = b := by
  cases a; cases b; simpa [Block.toList] using h

end Sys2Proof.Machine
end

