-- ==== Sys2Proof/Tests/Slice0.lean ====
section
/-! SUPPORT. Tests: ill-formed terms refused, words written out from the spec decoded, single steps with the results of
95_test_vectors.md (V<n>), and a witness for the hypotheses of every statement that has any. -/

-- Many kernel evaluations at once exhaust the threads of a small machine.
set_option Elab.async false

namespace Sys2Proof.Tests

open Sys2Proof Sys2Proof.Machine

/-! ### Well-formedness: an ill-formed term for each check (30_encoding.md R91, R98) -/

theorem test_wf_refuses_block :
    [Instr.rdblk 65536, .wrblk 65536, .apduRead 65536, .apduWrite 65536 ⟨0, 0, 0, 0⟩].all (fun i => !i.wellFormed) = true := by
  decide

theorem test_wf_refuses_selector :
    [Instr.fldRd 256, .fldDec 256, .fldEnc 256, .cfgReadall 256, .cfgMutate 256].all (fun i => !i.wellFormed) = true := by
  decide

theorem test_wf_accepts_edges :
    [Instr.rdblk 65535, .wrblk 49, .getuid, .crcCompute, .crcEnc, .crcDec, .crcValidate, .crcRecompute, .fldRd 255, .fldDec 0,
      .fldEnc 255, .cfgReadall 255, .cfgMutate 255, .cfgErase, .apduRead 65535, .apduWrite 65535 ⟨0, 0, 0, 0⟩,
      .apduGetuid].all Instr.wellFormed = true := by
  decide

/-! ### Decoding: words written out from 30_encoding.md R91, R92, R95 to R97 -/

/-- `op` in bits 31:24, `sel` in 23:16, `blk` in 15:0. -/
theorem test_decode_block_commands :
    decodeCmd 0b00000001_00000000_0000000000001011#32 = .ok (.rdblk 11) ∧
    decodeCmd 0b00000010_00000000_1000000000000001#32 = .ok (.wrblk 32769) := by
  decide

theorem test_decode_plain_commands :
    decodeCmd 0b00000011_00000000_0000000000000000#32 = .ok .getuid ∧
    decodeCmd 0b00010000_00000000_0000000000000000#32 = .ok .crcCompute ∧
    decodeCmd 0b00010001_00000000_0000000000000000#32 = .ok .crcEnc ∧
    decodeCmd 0b00010010_00000000_0000000000000000#32 = .ok .crcDec ∧
    decodeCmd 0b00010011_00000000_0000000000000000#32 = .ok .crcValidate ∧
    decodeCmd 0b00010100_00000000_0000000000000000#32 = .ok .crcRecompute ∧
    decodeCmd 0b00110010_00000000_0000000000000000#32 = .ok .cfgErase := by
  decide

theorem test_decode_field_commands :
    decodeCmd 0b00100000_00000010_0000000000000000#32 = .ok (.fldRd 2) ∧
    decodeCmd 0b00100001_10000001_0000000000000000#32 = .ok (.fldDec 129) ∧
    decodeCmd 0b00100010_11111111_0000000000000000#32 = .ok (.fldEnc 255) ∧
    decodeCmd 0b00110000_00000001_0000000000000000#32 = .ok (.cfgReadall 1) ∧
    decodeCmd 0b00110001_00000111_0000000000000000#32 = .ok (.cfgMutate 7) := by
  decide

/-- V11: the block number high byte first. -/
theorem test_decode_tag_commands :
    decodeApdu [0xFF#8, 0xB0#8, 0x01#8, 0x0B#8, 0x04#8] = .ok (.apduRead 267) ∧
    decodeApdu [0xFF#8, 0xD6#8, 0x00#8, 0x0C#8, 0x04#8, 0x00#8, 0x00#8, 0x0D#8, 0x27#8] = .ok (.apduWrite 12 ⟨0, 0, 0x0D, 0x27⟩) ∧
    decodeApdu [0xFF#8, 0xCA#8, 0x00#8, 0x00#8, 0x00#8] = .ok .apduGetuid := by
  decide

/-- V106: illegal words, by the reason. -/
theorem test_decode_illegal :
    decodeCmd 0x03000001#32 = .error .blockNotZero ∧ decodeCmd 0x01010000#32 = .error .selectorNotZero ∧
    decodeCmd 0x00000000#32 = .error .unknownOp ∧ decodeCmd 0x04000000#32 = .error .unknownOp ∧
    decodeCmd 0x15000000#32 = .error .unknownOp ∧ decodeCmd 0x23000000#32 = .error .unknownOp ∧
    decodeCmd 0x33000000#32 = .error .unknownOp ∧ decodeCmd 0xFF000000#32 = .error .unknownOp := by
  decide

theorem test_decode_no_tag_command :
    decodeApdu [0xFF#8, 0xB0#8, 0x00#8, 0x0B#8, 0x05#8] = .error .notATagCommand ∧
    decodeApdu [0xFF#8, 0xCA#8, 0x00#8, 0x01#8, 0x00#8] = .error .notATagCommand ∧
    decodeApdu [0xFF#8, 0xD6#8, 0x00#8, 0x0C#8, 0x04#8] = .error .notATagCommand ∧
    decodeApdu [] = .error .notATagCommand := by
  decide

/-- The numbering of the opcode table (log 17). -/
theorem test_table_word :
    decodeTableWord 32 0x0100000B = some (.rdblk 11) ∧ decodeTableWord 40 0x040B00B0FF = some (.apduRead 11) ∧
    decodeTableWord 72 0x270D0000040C00D6FF = some (.apduWrite 12 ⟨0, 0, 0x0D, 0x27⟩) ∧
    decodeTableWord 40 0x000000CAFF = some .apduGetuid ∧ decodeTableWord 40 0x040B00B1FF = none := by
  decide

/-! ### States for single steps -/

/-- A tag whose blocks are FFFFFFFF but for those given. -/
def tagOf (bs : List (Nat × Block)) : Memory := bs.foldl (fun m b => m.setBlock b.1 b.2) []

/-- The erased tag: all FF, block 48 = C3120000 (95_test_vectors.md, conventions). -/
def erased : State := { State.reset with tag := tagOf [(48, ⟨0xC3, 0x12, 0x00, 0x00⟩)] }

/-- The erased tag with the DevEUI of V1 in blocks 11 and 12. -/
def devEuiTag : State :=
  { erased with tag := (erased.tag.setBlock 11 ⟨0x0C, 0x1E, 0xF7, 0x00⟩).setBlock 12 ⟨0x00, 0x00, 0x0D, 0x27⟩ }

/-- `OP` and `OPLEN` loaded. -/
def withOp (n : Nat) (bs : List Byte) (s : State) : State :=
  { s with op := Vector.ofFn (fun k => bs.getD k.val 0), oplen := BitVec.ofNat 16 n }

/-- The DevEUI operand of V9. -/
def devEuiOp (s : State) : State := withOp 16 [0x0C, 0x1E, 0xF7, 0x00, 0x00, 0x00, 0x0D, 0x27] s

/-- The environment answers the coming exchanges so; a write that does not succeed leaves the block old. -/
def answering (ys : List Answer) (s : State) : State := { s with link := ys.map (fun y => ⟨[], .answers y .old⟩) }

/-- Rows of a field table for tests (95_test_vectors.md V52 to V73), `SLEEP_NIB = 3`. -/
def testParams : Params :=
  { Config.defaults with
    ftExt :=
      [(8, { kind := .enumb, blk0 := 7, nblk := 1, off := 0, len := 1, tbl := 3, strict := true }),
       (9, { kind := .ube, blk0 := 24, nblk := 1, off := 0, len := 2, writable := true }),
       (10, { kind := .ule16, blk0 := 25, nblk := 1, off := 0, len := 2, writable := true }),
       (11, { kind := .bias127, blk0 := 26, nblk := 1, off := 0, len := 1, writable := true }),
       (12, { kind := .s8, blk0 := 26, nblk := 1, off := 1, len := 1, writable := true }),
       (13, { kind := .nib, blk0 := 14, nblk := 1, off := 2, len := 1, writable := true }),
       (14, { kind := .bitgrp, blk0 := 15, nblk := 1, off := 0, len := 2, bit := 1, writable := true }),
       (15, { kind := .enumn, blk0 := 9, nblk := 1, off := 5, len := 1, tbl := 0, writable := true }),
       (16, { kind := .enumb, blk0 := 27, nblk := 1, off := 0, len := 1, tbl := 1, writable := true })]
    etRegion := [0, 1, 2, 5], etSku := [1, 2], sleepNib := 3
    sentinelRegion := .notSelected, sentinelPing := .unknown, sentinelSku := .notSelected }

/-- The row of field `f` of the test table. -/
def row (f : Nat) : Descriptor :=
  (desc testParams f).getD { kind := .raw, blk0 := 0, nblk := 1, off := 0, len := 1 }

/-- One step with a host write of `CMD` pending. -/
def command (w : BitVec 32) (s : State) : Host.Outcome State Fault Refusal :=
  step { s with inbox := [.host (.write (.cmd w))] }

/-- One step with the bytes of a tag command pending. -/
def onWire (bs : List Byte) (s : State) : Host.Outcome State Fault Refusal := step { s with inbox := [.wire bs] }

/-- The outcome is a next state that passes a check. -/
def passes (o : Host.Outcome State Fault Refusal) (p : State → Bool) : Bool :=
  match o with
  | .next t => p t
  | _ => false

/-- `STATUS`, `FAULTCODE`, `FAULTBLK`, `FAULTFLD`, `RESV`. -/
def ending (t : State) : Nat × Nat × Nat × Nat × Nat :=
  (t.status.toNat, t.faultcode.toNat, t.faultblk.toNat, t.faultfld.toNat, t.resv.toNat)

/-- A normal end with the given `STATUS` and `RESV`. -/
def normal (status resv : Nat) : Nat × Nat × Nat × Nat × Nat := (status, 0, 0xFFFF, 0xFF, resv)

/-! ### Single steps -/

/-- V17. -/
theorem test_rdblk : passes (command 0x0100000B devEuiTag) (fun t =>
    ending t == normal 0x02 0 && t.reslen == 8 && resBytes t == [0x0C#8, 0x1E#8, 0xF7#8, 0x00#8] &&
    sent t == [[0xFF#8, 0xB0#8, 0x00#8, 0x0B#8, 0x04#8]]) = true := by
  decide +kernel

/-- V100, V101: a bad status word; a status word with too little data. -/
theorem test_rdblk_bad_answer :
    passes (command 0x01000005 (answering [.resp [0x6A, 0x82]] erased)) (fun t => ending t == (0x06, 1, 5, 0xFF, 0)) = true ∧
    passes (command 0x01000005 (answering [.resp [1, 2, 3, 0x90, 0x00]] erased)) (fun t =>
      ending t == (0x06, 3, 5, 0xFF, 0)) = true := by
  decide +kernel

/-- V102. -/
theorem test_wrblk : passes (command 0x0200000C (withOp 8 [0x00, 0x00, 0x0D, 0x27] erased)) (fun t =>
    ending t == normal 0x02 0 && t.reslen == 0 && t.tag.blockAt 12 == ⟨0x00, 0x00, 0x0D, 0x27⟩ &&
    t.tag.blockAt 48 == ⟨0xC3, 0x12, 0x00, 0x00⟩ &&
    sent t == [[0xFF#8, 0xD6#8, 0x00#8, 0x0C#8, 0x04#8, 0x00#8, 0x00#8, 0x0D#8, 0x27#8]]) = true := by
  decide +kernel

/-- V103: a wrong length of a block the tag has (log 24); the length is checked first. -/
theorem test_wrblk_refused :
    passes (command 0x0200000C (withOp 6 [0x00, 0x00, 0x0D] erased)) (fun t =>
      ending t == (0x06, 2, 12, 0xFF, 0) && sent t == []) = true ∧
    passes (command 0x02000031 (withOp 6 [0x00, 0x00, 0x0D] erased)) (fun t =>
      ending t == (0x06, 2, 49, 0xFF, 0) && sent t == []) = true := by
  decide +kernel

/-- V105. -/
theorem test_getuid : passes (command 0x03000000 (answering [.resp [0x04, 0xA2, 0x3B, 0x1C, 0x90, 0x00]] erased)) (fun t =>
    ending t == normal 0x02 0 && t.reslen == 8 && resBytes t == [0x04#8, 0xA2#8, 0x3B#8, 0x1C#8] &&
    sent t == [[0xFF#8, 0xCA#8, 0x00#8, 0x00#8, 0x00#8]]) = true := by
  decide +kernel

/-- V105: a fault of `GETUID` names no block. -/
theorem test_getuid_refused : passes (command 0x03000000 (answering [.resp [0x6A, 0x81]] erased)) (fun t =>
    ending t == (0x06, 1, 0xFFFF, 0xFF, 0)) = true := by
  decide +kernel

/-- V24. -/
theorem test_crc_compute :
    passes (command 0x10000000 (withOp 384 ((List.range 192).map (BitVec.ofNat 8)) erased)) (fun t =>
      ending t == normal 0x02 0xF0C3 && t.crcreg == 0xF0C3#16 && sent t == []) = true := by
  decide +kernel

/-- V26. -/
theorem test_crc_compute_refused : passes (command 0x10000000 (withOp 383 [] erased)) (fun t =>
    ending t == (0x06, 2, 0xFFFF, 0xFF, 0) && t.crcreg == 0xFFFF#16) = true := by
  decide +kernel

/-- V30. -/
theorem test_crc_enc : passes (command 0x11000000 { erased with opv := 0x9AD1 }) (fun t =>
    ending t == normal 0x02 0 && t.reslen == 8 && resBytes t == [0xD1#8, 0x9A#8, 0x00#8, 0x00#8]) = true := by
  decide +kernel

/-- V31. -/
theorem test_crc_enc_refused :
    passes (command 0x11000000 { erased with opv := 0x10000 }) (fun t => t.faultcode == 2#8) = true ∧
    passes (command 0x11000000 { erased with opv := BitVec.ofInt 64 (-1) }) (fun t => t.faultcode == 2#8) = true := by
  decide +kernel

/-- V33: the padding is ignored. -/
theorem test_crc_dec : passes (command 0x12000000 (withOp 8 [0xC3, 0x12, 0xAB, 0xCD] erased)) (fun t =>
    ending t == normal 0x02 0x12C3 && t.reslen == 0) = true := by
  decide +kernel

/-- V34. -/
theorem test_crc_validate : passes (command 0x13000000 erased) (fun t =>
    ending t == normal 0x0A 0x12C3 && t.crcexp == 0x12C3#16 && t.crcact == 0x12C3#16 && t.crcreg == 0x12C3#16 &&
    t.trace.length == 49) = true := by
  decide +kernel

/-- V35. -/
theorem test_crc_validate_mismatch : passes (command 0x13000000 State.reset) (fun t =>
    ending t == (0x06, 4, 48, 0xFF, 0x12C3) && t.crcexp == 0x12C3#16 && t.crcact == 0xFFFF#16) = true := by
  decide +kernel

/-- P2, line 2: the last exchange of the mutation, as a recompute of its own. -/
theorem test_crc_recompute : passes (command 0x14000000 devEuiTag) (fun t =>
    ending t == normal 0x02 0x9AD1 && t.tag.blockAt 48 == ⟨0xD1, 0x9A, 0x00, 0x00⟩ && t.trace.length == 49 &&
    (sent t).head? == some [0xFF#8, 0xD6#8, 0x00#8, 0x30#8, 0x04#8, 0xD1#8, 0x9A#8, 0x00#8, 0x00#8]) = true := by
  decide +kernel

/-- V80. -/
theorem test_fld_rd : passes (command 0x20020000 devEuiTag) (fun t =>
    ending t == normal 0x02 0 && t.reslen == 16 &&
    resBytes t == [0x0C#8, 0x1E#8, 0xF7#8, 0x00#8, 0x00#8, 0x00#8, 0x0D#8, 0x27#8] && t.trace.length == 2) = true := by
  decide +kernel

/-- V73: the strict table misses. -/
theorem test_fld_rd_strict : passes (command 0x20080000 { erased with params := testParams }) (fun t =>
    ending t == (0x06, 5, 7, 8, 0) && t.trace.length == 1) = true := by
  decide +kernel

/-- V84: the snapshot is empty after reset. -/
theorem test_fld_dec_no_snapshot : passes (command 0x21020000 devEuiTag) (fun t =>
    ending t == (0x06, 2, 11, 2, 0) && sent t == []) = true := by
  decide +kernel

/-- V85: the snapshot, not the tag. -/
theorem test_fld_dec :
    passes (command 0x21020000 { devEuiTag with snapv := 0xFF00, snap := Vector.replicate 49 ⟨0xFF, 0xFF, 0xFF, 0xFF⟩ }) (fun t =>
      ending t == normal 0x02 0 && t.reslen == 16 && resBytes t == List.replicate 8 0xFF#8 && sent t == []) = true := by
  decide +kernel

/-- V46. -/
theorem test_fld_enc : passes (command 0x22020000 (devEuiOp erased)) (fun t =>
    ending t == normal 0x02 0 && t.reslen == 32 &&
    resBytes t == [0x0C#8, 0x1E#8, 0xF7#8, 0x00#8, 0x00#8, 0x00#8, 0x0D#8, 0x27#8] ++ List.replicate 8 0xFF#8) = true := by
  decide +kernel

/-- V45. -/
theorem test_fld_enc_read_only : passes (command 0x22030000 (devEuiOp erased)) (fun t =>
    ending t == (0x06, 2, 0xFFFF, 3, 0)) = true := by
  decide +kernel

/-- V90. -/
theorem test_cfg_readall : passes (command 0x30000000 devEuiTag) (fun t =>
    ending t == normal 0x02 0 && t.snapv == 0xFF00#49 && t.reslen == 64 &&
    resBytes t == List.replicate 12 0xFF#8 ++ [0x0C#8, 0x1E#8, 0xF7#8, 0x00#8, 0x00#8, 0x00#8, 0x0D#8, 0x27#8] ++
      List.replicate 12 0xFF#8 && t.trace.length == 8) = true := by
  decide +kernel

/-- V92: the old snapshot is gone. -/
theorem test_cfg_readall_failed :
    passes (command 0x30000000 { erased with
        snapv := 0xFF00
        link := List.replicate 4 ⟨[], .behaved⟩ ++ [⟨[], .answers (.resp [0x6A, 0x82]) .old⟩] }) (fun t =>
      ending t == (0x06, 1, 12, 0xFF, 0) && t.snapv == 0#49 && t.trace.length == 5) = true := by
  decide +kernel

/-- V63. -/
theorem test_cfg_mutate : passes (command 0x31070000 { erased with params := testParams, opv := 1 }) (fun t =>
    ending t == normal 0x02 0x83C3 && t.tag.blockAt 13 == ⟨0xFF, 0xF1, 0xFF, 0xFF⟩ &&
    t.tag.blockAt 48 == ⟨0xC3, 0x83, 0x00, 0x00⟩ && t.trace.length == 51) = true := by
  decide +kernel

/-- P3, line 2: the write of block 12 fails; block 11 is new, the stored CRC old. -/
theorem test_cfg_mutate_torn :
    passes (command 0x31020000 (answering [.resp [0x90, 0x00], .resp [0x63, 0x00]] (devEuiOp erased))) (fun t =>
      ending t == (0x06, 1, 12, 2, 0) && t.tag.blockAt 11 == ⟨0x0C, 0x1E, 0xF7, 0x00⟩ &&
      t.tag.blockAt 12 == ⟨0xFF, 0xFF, 0xFF, 0xFF⟩ && t.tag.blockAt 48 == ⟨0xC3, 0x12, 0x00, 0x00⟩ &&
      t.trace.length == 2) = true := by
  decide +kernel

/-- P1, line 1, with two blocks that are not erased. -/
theorem test_cfg_erase : passes (command 0x32000000 { devEuiTag with opv := 7 }) (fun t =>
    ending t == normal 0x0A 0x12C3 && t.tag == erased.tag && t.crcreg == 0x12C3#16 && t.trace.length == 146 &&
    t.opv == 7#64) = true := by
  decide +kernel

/-- V94. -/
theorem test_cfg_erase_failed :
    passes (command 0x32000000 { State.reset with
        tag := tagOf [(29, ⟨0, 0, 0, 0⟩), (30, ⟨0, 0, 0, 0⟩)]
        link := List.replicate 30 ⟨[], .behaved⟩ ++ [⟨[], .answers (.resp [0x63, 0x00]) .old⟩] }) (fun t =>
      ending t == (0x06, 1, 30, 0xFF, 0) && t.tag == tagOf [(30, ⟨0, 0, 0, 0⟩)] && t.trace.length == 31) = true := by
  decide +kernel

/-- 20_memory.md R65. -/
theorem test_apdu_read : passes (onWire [0xFF, 0xB0, 0x00, 0x30, 0x04] erased) (fun t =>
    t.trace.map (·.answer) == [some (.resp [0xC3#8, 0x12#8, 0x00#8, 0x00#8, 0x90#8, 0x00#8])]) = true := by
  decide +kernel

/-- The tag has no block 49 (log 9). -/
theorem test_apdu_read_49 :
    (match onWire [0xFF, 0xB0, 0x00, 0x31, 0x04] erased with
      | .fault .noSuchBlock => true
      | _ => false) = true := by
  decide +kernel

theorem test_apdu_write : passes (onWire [0xFF, 0xD6, 0x00, 0x14, 0x04, 0x12, 0x34, 0x56, 0x78] erased) (fun t =>
    t.tag.blockAt 20 == ⟨0x12, 0x34, 0x56, 0x78⟩ &&
    t.trace.map (·.answer) == [some (.resp [0x90#8, 0x00#8])]) = true := by
  decide +kernel

theorem test_apdu_getuid : passes (onWire [0xFF, 0xCA, 0x00, 0x00, 0x00] { erased with uid := [4, 2] }) (fun t =>
    t.trace.map (·.answer) == [some (.resp [0x04#8, 0x02#8, 0x90#8, 0x00#8])]) = true := by
  decide +kernel

/-- V106. -/
theorem test_illegal_word : passes (command 0x23000000 erased) (fun t =>
    ending t == (0x06, 2, 0xFFFF, 0xFF, 0) && t.cmd == 0x23000000#32 && sent t == []) = true := by
  decide +kernel

/-- V112: a write of `CMD` while an operation runs is ignored. -/
theorem test_cmd_while_busy :
    passes (command 0x32000000 { erased with
        link := [⟨[.write (.cmd 0x13000000), .read .status], .behaved⟩] }) (fun t =>
      t.cmd == 0x32000000#32 && t.hostRd == .bits 1 && t.trace.length == 146) = true := by
  decide +kernel

/-- V113: a reset between exchanges 2 and 3 of a mutation. -/
theorem test_reset_cuts :
    passes (command 0x31020000 { devEuiOp erased with
        link := [⟨[], .behaved⟩, ⟨[], .behaved⟩, ⟨[], .resetBefore⟩] }) (fun t =>
      ending t == (0, 0, 0xFFFF, 0xFF, 0) && t.cmd == 0#32 && t.oplen == 0#16 && t.crcreg == 0xFFFF#16 &&
      t.tag.blockAt 12 == ⟨0x00, 0x00, 0x0D, 0x27⟩ && t.tag.blockAt 48 == ⟨0xC3, 0x12, 0x00, 0x00⟩) = true := by
  decide +kernel

/-! ### Field kinds (95_test_vectors.md V40 to V73) -/

/-- What `enc` gives for an integer operand. -/
def encInt (f : Nat) (v : Int) : Option (List Byte × List Byte) := encodeField testParams (row f) ⟨BitVec.ofInt 64 v, 0, []⟩

/-- What `enc` gives for an operand of `n` digits. -/
def encStr (f n : Nat) (bs : List Byte) : Option (List Byte × List Byte) :=
  encodeField testParams (row f) ⟨0, n, bs ++ List.replicate (192 - bs.length) 0⟩

/-- What `dec` gives. -/
def decAt (f : Nat) (bs : List Byte) : DecVal := decodeBytes testParams (row f) bs

/-- V43: short operands, an odd number of digits. V44. -/
theorem test_raw_enc :
    (encStr 1 4 [0xAA, 0xBB]).map (·.1) = some ([0xAA, 0xBB] ++ List.replicate 14 0) ∧
    (encStr 1 3 [0xAB, 0xC7]).map (·.1) = some ([0xAB, 0xC0] ++ List.replicate 14 0) ∧
    (encStr 1 0 []).map (·.1) = some (List.replicate 16 0) ∧
    (encStr 1 32 (List.replicate 16 0x11)).map (·.1) = some (List.replicate 16 0x11) ∧ encStr 1 33 [] = none := by
  decide +kernel

/-- V47. -/
theorem test_mac_enc :
    encStr 2 15 [0x0C] = none ∧ encStr 2 17 [0x0C] = none ∧ encStr 2 0 [] = none ∧
    encStr 2 16 [0x0C, 0x1E, 0xF7, 0x00, 0x00, 0x00, 0x0D, 0x27] =
      some ([0x0C, 0x1E, 0xF7, 0x00, 0x00, 0x00, 0x0D, 0x27], List.replicate 8 0xFF) := by
  decide +kernel

/-- V48. -/
theorem test_ascii_dec :
    decAt 5 [0x44, 0x69, 0x74, 0x74, 0x6F, 0, 0, 0] = .bytes [0x44, 0x69, 0x74, 0x74, 0x6F] ∧
    decAt 5 (List.replicate 8 0) = .bytes [] ∧ decAt 5 (List.replicate 8 0xFF) = .bytes (List.replicate 8 0xFF) ∧
    decAt 5 [0x44, 0x00, 0x69, 0x00, 0, 0, 0, 0] = .bytes [0x44, 0x00, 0x69] := by
  decide +kernel

/-- V49, V50. -/
theorem test_ascii_enc :
    encStr 5 10 [0x44, 0x69, 0x74, 0x74, 0x6F] =
      some ([0x44, 0x69, 0x74, 0x74, 0x6F, 0, 0, 0], List.replicate 8 0xFF) ∧
    encStr 5 18 [] = none ∧ encStr 5 9 [] = none ∧ encStr 5 4 [0x44, 0xE9] = none ∧
    (encStr 5 0 []).map (·.1) = some (List.replicate 8 0) := by
  decide +kernel

/-- V51. -/
theorem test_utf16_dec :
    decAt 6 [0x44, 0x69, 0x74, 0x74, 0x6F, 0, 0, 0] = .bytes [0x44, 0x69, 0x74, 0x74, 0x6F, 0x00] ∧
    decAt 6 [0x00, 0x44, 0x00, 0x69, 0, 0, 0, 0] = .bytes [0x00, 0x44, 0x00, 0x69] ∧
    decAt 6 (List.replicate 8 0) = .bytes [] ∧ decAt 6 [0xD8, 0x3D, 0xDE, 0x00, 0, 0, 0, 0] = .bytes [0xD8, 0x3D, 0xDE, 0x00] := by
  decide +kernel

/-- V52. -/
theorem test_ube :
    decAt 9 [0x01, 0x2C, 0, 0] = .num 300 false ∧ decAt 9 [0xFF, 0xFF, 0, 0] = .num 65535 false ∧
    encInt 9 300 = some ([0x01, 0x2C, 0, 0], [0xFF, 0xFF, 0, 0]) ∧ encInt 9 65536 = none ∧ encInt 9 (-1) = none := by
  decide +kernel

/-- V53. -/
theorem test_ule16 :
    decAt 10 [0x40, 0x06, 0, 0] = .num 1600 false ∧ decAt 10 [0x00, 0x01, 0, 0] = .num 256 false ∧
    (encInt 10 1600).map (·.1) = some [0x40, 0x06, 0, 0] ∧ encInt 10 65536 = none ∧ encInt 10 (-1) = none := by
  decide +kernel

/-- V54 (and V2). -/
theorem test_bias127 :
    decAt 11 [0x7F, 0, 0, 0] = .num 0 false ∧ decAt 11 [0x00, 0, 0, 0] = .num (-127) false ∧
    decAt 11 [0xFF, 0, 0, 0] = .num 128 false ∧ (encInt 11 (-127)).map (·.1) = some [0x00, 0, 0, 0] ∧
    (encInt 11 128).map (·.1) = some [0xFF, 0, 0, 0] ∧ encInt 11 (-128) = none ∧ encInt 11 129 = none := by
  decide +kernel

/-- V55. -/
theorem test_s8 :
    decAt 12 [0, 0x7F, 0, 0] = .num 127 false ∧ decAt 12 [0, 0x80, 0, 0] = .num (-128) false ∧
    decAt 12 [0, 0xD8, 0, 0] = .num (-40) false ∧ (encInt 12 (-40)).map (·.1) = some [0, 0xD8, 0, 0] ∧
    encInt 12 128 = none ∧ encInt 12 (-129) = none := by
  decide +kernel

/-- V56. -/
theorem test_nib :
    decAt 13 [0x00, 0xA1, 0, 0] = .num 10 false ∧
    encInt 13 1 = some ([0x00, 0x10, 0, 0], [0x00, 0xF0, 0, 0]) ∧ encInt 13 16 = none ∧ encInt 13 (-1) = none ∧
    decodeBytes testParams { row 13 with off := 3 } [0x00, 0xA1, 0, 0] = .num 1 false := by
  decide +kernel

/-- V60, V61. -/
theorem test_flagnib :
    decAt 7 [0x00, 0x01, 0, 0] = .num 1 false ∧ decAt 7 [0xFF, 0xFF, 0xFF, 0xFF] = .num 0 false ∧
    decAt 7 [0x00, 0x02, 0, 0] = .num 0 false ∧ encInt 7 1 = some ([0, 0x01, 0, 0], [0, 0x0F, 0, 0]) ∧
    encInt 7 0 = some ([0, 0, 0, 0], [0, 0x0F, 0, 0]) ∧ encInt 7 2 = none ∧ encInt 7 (-1) = none := by
  decide +kernel

/-- V64, V65. -/
theorem test_bitgrp :
    decAt 14 [0x06, 0, 0, 0] = .num 3 false ∧
    decodeBytes testParams { row 14 with bit := 2 } [0xB4, 0, 0, 0] = .num 1 false ∧
    decodeBytes testParams { row 14 with bit := 7, len := 1 } [0x80, 0, 0, 0] = .num 1 false ∧
    encInt 14 3 = some ([0x06, 0, 0, 0], [0x06, 0, 0, 0]) ∧ encInt 14 4 = none ∧
    mergeBytes [0x80, 0xFF, 0xFF, 0xFF] [0x06, 0, 0, 0] [0x06, 0, 0, 0] = [0x86, 0xFF, 0xFF, 0xFF] := by
  decide +kernel

/-- V70, V72. -/
theorem test_enums :
    decAt 15 [0, 0, 0x05, 0] = .num 5 false ∧ decAt 15 [0, 0, 0x07, 0] = .num 7 true ∧
    encInt 15 5 = some ([0, 0, 0x05, 0], [0, 0, 0x0F, 0]) ∧ encInt 15 7 = none ∧ encInt 15 16 = none ∧
    decAt 16 [0xD8, 0, 0, 0] = .num 0xD8 false ∧ decAt 16 [0xD9, 0, 0, 0] = .num 0xD9 true ∧
    encInt 16 0xD8 = some ([0xD8, 0, 0, 0], [0xFF, 0, 0, 0]) ∧ encInt 16 0xD9 = none := by
  decide +kernel

/-- V1, V4, V5: the host-side renderings; the sentinels that are arguments (00_scope.md R10). -/
theorem test_renderings :
    macChars [0x0C, 0x1E, 0xF7, 0x00, 0x00, 0x00, 0x0D, 0x27] = "0C:1E:F7:00:00:00:0D:27".toList ∧
    enumText testParams 1 0xD8 false = "-40dBm" ∧ enumText testParams 1 0xD9 true = "Unknown" ∧
    enumText testParams 0 0x07 true = "Not Selected" ∧ enumText testParams 2 0x07 true = "Unknown" ∧
    enumText testParams 3 0x07 true = "Not Selected" := by
  decide +kernel

/-- Raw block values of V1 (30_encoding.md R101): 8 characters, none of them lower-case. -/
theorem test_raw_block_values :
    blockOfHex "0C1EF700".toList = some ⟨0x0C, 0x1E, 0xF7, 0x00⟩ ∧
    Block.hex ⟨0x00, 0x00, 0x0D, 0x27⟩ = "00000D27".toList ∧
    ["0c1ef700", "0C1EF70", "0C1EF7000", "0C1EF70G", "0C1EF700 ", ""].all (fun t => (blockOfHex t.toList).isNone) = true := by
  decide +kernel

/-! ### Witnesses: a state and operands that meet the hypotheses of each statement, clause by clause -/

theorem witness_DecodeEncodeRoundTrip :
    (Instr.rdblk 65535).wellFormed = true ∧ (Instr.fldRd 255).wellFormed = true ∧
    (Instr.apduWrite 65535 ⟨1, 2, 3, 4⟩).wellFormed = true := by
  decide

theorem witness_EncodeDecodeRoundTrip :
    decode (.cmd 0x0100FFFF) = .ok (.rdblk 65535) ∧ decode (.cmd 0x31FF0000) = .ok (.cfgMutate 255) ∧
    decode (.apdu [0xFF, 0xB0, 0xFF, 0xFF, 0x04]) = .ok (.apduRead 65535) := by
  decide

theorem witness_TagCommandBytes : (0 : Nat) < 65536 ∧ (65535 : Nat) < 65536 := by decide

/-- The erased tag with one event to come. -/
def withEvent (e : Event) : State := { erased with inbox := [e] }

theorem witness_StepRunsDecodedInstruction :
    ((withEvent (.host (.write (.cmd 0x0100000B)))).inbox = [.host (.write (.cmd 0x0100000B))] ∧
      statusBusy (withEvent (.host (.write (.cmd 0x0100000B)))).status = false ∧
      decode (.cmd 0x0100000B) = .ok (.rdblk 11)) ∧
    ((withEvent (.wire [0xFF, 0xCA, 0x00, 0x00, 0x00])).inbox = [.wire [0xFF, 0xCA, 0x00, 0x00, 0x00]] ∧
      decode (.apdu [0xFF, 0xCA, 0x00, 0x00, 0x00]) = .ok .apduGetuid) := by
  decide +kernel

theorem witness_IllegalWordRaisesEncodingFault :
    (withEvent (.host (.write (.cmd 0x01010000)))).inbox = [.host (.write (.cmd 0x01010000))] ∧
    statusBusy (withEvent (.host (.write (.cmd 0x01010000)))).status = false ∧
    (∀ r ∈ opRows, r.selects 0x01010000 = false) ∧ (∀ r ∈ opRows, r.selects 0x03000001 = false) ∧
    (∀ r ∈ opRows, r.selects 0 = false) := by
  decide +kernel

/-- A state in which an operation runs. -/
def busy (e : Event) : State := acceptCmd 0x32000000 (withEvent e)

theorem witness_HostAccessWhileBusy :
    statusBusy (busy (.host (.write (.opv 1)))).status = true ∧
    (busy (.host (.write (.opv 1)))).inbox = [.host (.write (.opv 1))] ∧
    (busy (.host (.read .status))).inbox = [.host (.read .status)] ∧ Reg.trueWhileBusy .status = true ∧
    Reg.trueWhileBusy .resv = false ∧
    [HostAct.read .resv, .read (.op 191), .write (.oplen 3), .write (.op 0 1)] =
      [HostAct.read .resv] ++ .read (.op 191) :: [.write (.oplen 3), .write (.op 0 1)] ∧ Reg.trueWhileBusy (.op 191) = true ∧
    (∀ a ∈ [HostAct.write (.oplen 3), .write (.op 0 1)], ∃ w, a = HostAct.write w) := by
  refine ⟨by decide +kernel, rfl, rfl, rfl, rfl, rfl, rfl, ?_⟩
  intro a ha
  rcases List.mem_cons.mp ha with rfl | ha
  · exact ⟨_, rfl⟩
  · rcases List.mem_cons.mp ha with rfl | ha
    · exact ⟨_, rfl⟩
    · cases ha

theorem witness_HostAccessWhileIdle :
    statusBusy erased.status = false ∧ erased.inbox = [] ∧
    (withEvent (.host (.write (.opv 1)))).inbox = [.host (.write (.opv 1))] ∧
    (withEvent (.host (.write (.oplen 16)))).inbox = [.host (.write (.oplen 16))] ∧
    (withEvent (.host (.write (.op 191 7)))).inbox = [.host (.write (.op 191 7))] ∧
    (withEvent (.host (.write (.readOnly .resv)))).inbox = [.host (.write (.readOnly .resv))] ∧
    (withEvent (.host (.read (.snap 48)))).inbox = [.host (.read (.snap 48))] := by
  refine ⟨by decide +kernel, rfl, rfl, rfl, rfl, rfl, rfl⟩

theorem witness_ResetGivesTheResetValues : (withEvent .reset).inbox = [.reset] := rfl

theorem witness_RdblkDeliversTheBlock : erased.link = [] ∧ (0 : Nat) ≤ 48 ∧ (48 : Nat) ≤ 48 := ⟨rfl, by decide, by decide⟩

/-- The coming exchange is answered with `y`. -/
def oneAnswer (y : Answer) (s : State) : State := answering [y] s

theorem witness_RdblkByAnswer :
    (oneAnswer (.resp [1, 2, 3, 4, 0x90, 0x00]) erased).link = [⟨[], .answers (.resp [1, 2, 3, 4, 0x90, 0x00]) .old⟩] ∧
    (48 : Nat) ≤ 48 ∧
    (Answer.resp [1, 2, 3, 4, 0x90, 0x00] = .resp ([1, 2, 3, 4] ++ [0x90#8, 0x00#8]) ∧ [1, 2, 3, 4].length = 4) ∧
    (Answer.resp [1, 2, 3, 0x90, 0x00] = .resp ([1, 2, 3] ++ [0x90#8, 0x00#8]) ∧ [1, 2, 3].length ≠ 4) ∧
    (Answer.resp [0x90, 0x00] = .resp ([] ++ [0x90#8, 0x00#8]) ∧ ([] : List Byte).length ≠ 4) ∧
    ¬Answered (.resp [0x6A, 0x82]) ∧ ¬Answered (.resp [0x90]) ∧ ¬Answered .err := by
  simp only [answered_iff]
  exact ⟨rfl, by decide, by decide, by decide, by decide, by decide, by decide, by decide⟩

theorem witness_BlockCommandsRefuseBadOperands :
    (49 : Nat) < 65536 ∧ (48 : Nat) < 49 ∧ (65535 : Nat) < 65536 ∧ (48 : Nat) < 65535 ∧ (withOp 7 [] erased).oplen ≠ 8 ∧
    (withOp 9 [] erased).oplen ≠ 8 := by
  decide +kernel

theorem witness_WrblkWritesTheBlock :
    (withOp 8 [1, 2, 3, 4] erased).link = [] ∧ Memory.wf (withOp 8 [1, 2, 3, 4] erased).tag = true ∧
    (withOp 8 [1, 2, 3, 4] erased).oplen = 8 ∧ (48 : Nat) ≤ 48 := by
  decide +kernel

theorem witness_WrblkByAnswer :
    (oneAnswer .err (withOp 8 [1, 2, 3, 4] erased)).link = [⟨[], .answers .err .old⟩] ∧
    Memory.wf (oneAnswer .err (withOp 8 [1, 2, 3, 4] erased)).tag = true ∧
    (oneAnswer .err (withOp 8 [1, 2, 3, 4] erased)).oplen = 8 ∧ (48 : Nat) ≤ 48 ∧
    Answered (.resp [0xAA, 0xBB, 0x90, 0x00]) ∧ ¬Answered .err ∧ ¬Answered (.resp [0x63, 0x00]) ∧
    erased.params.tornWrite = .oldOrNew := by
  simp only [answered_iff]
  decide +kernel

/-- The test parameters with `UID_LEN = 4`. -/
def uid4 : Params := { testParams with uidLen := some 4 }

theorem witness_GetuidByAnswer :
    (erased.link = [] ∧ Answer.resp ([] ++ [0x90#8, 0x00#8]) = .resp (erased.uid ++ [0x90#8, 0x00#8])) ∧
    (oneAnswer .err erased).link = ⟨[], .answers .err .old⟩ :: [] ∧
    ((List.replicate 192 (1 : Byte)).length ≤ 192 ∧ ∀ n, erased.params.uidLen = some n → 192 = n) ∧
    (∀ n, uid4.uidLen = some n → [1, 2, 3, 4].length = n) ∧
    192 < (List.replicate 193 (1 : Byte)).length ∧ (uid4.uidLen = some 4 ∧ [1, 2, 3].length ≠ 4) ∧
    ¬Answered .err := by
  refine ⟨⟨rfl, rfl⟩, rfl, ⟨List.length_replicate.le, fun n h => by cases h⟩, fun n h => by cases h; rfl,
    by rw [List.length_replicate]; decide, ⟨rfl, by decide⟩, ?_⟩
  rw [answered_iff]
  decide

theorem witness_TagExecutesItsCommands : erased.link = [] ∧ Memory.wf erased.tag = true ∧ (0 : Nat) ≤ 48 ∧ (48 : Nat) ≤ 48 := by
  decide +kernel

theorem witness_TagCommandBeyondBlock48 :
    (48 : Nat) < 49 ∧ erased.link = [] ∧ (oneAnswer .err erased).link = ⟨[], .answers .err .old⟩ :: [] := by
  decide +kernel

theorem witness_CrcDetectsEveryByteChange : (0x00 : Byte) ≠ 0x01 := by decide

theorem witness_StoredCrcRoundTrip :
    ((⟨0xC3, 0x12, 0, 0⟩ : Block).b2 = 0 ∧ (⟨0xC3, 0x12, 0, 0⟩ : Block).b3 = 0) ∧
    encStore (decStore ⟨0xC3, 0x12, 0x55, 0xAA⟩) ≠ ⟨0xC3, 0x12, 0x55, 0xAA⟩ := by
  decide +kernel

theorem witness_CrcComputeResult : (withOp 384 [] erased).oplen = 384 ∧ (withOp 383 [] erased).oplen ≠ 384 := by
  decide +kernel

/-- `OPV` loaded. -/
def withOpv (v : Int) (s : State) : State := { s with opv := BitVec.ofInt 64 v }

theorem witness_CrcEncResult :
    (0 ≤ (withOpv 0 erased).opv.toInt ∧ (withOpv 0 erased).opv.toInt ≤ 0xFFFF) ∧
    (0 ≤ (withOpv 0xFFFF erased).opv.toInt ∧ (withOpv 0xFFFF erased).opv.toInt ≤ 0xFFFF) ∧
    (withOpv (-1) erased).opv.toInt < 0 ∧ 0xFFFF < (withOpv 0x10000 erased).opv.toInt := by
  decide +kernel

theorem witness_CrcDecResult :
    (withOp 8 [] erased).oplen = 8 ∧ (withOp 7 [] erased).oplen ≠ 8 ∧ (withOp 9 [] erased).oplen ≠ 8 := by
  decide +kernel

theorem witness_ValidateComparesTheCrcs :
    erased.link = [] ∧ StoredCrcCurrent erased.tag ∧ State.reset.link = [] ∧ ¬StoredCrcCurrent State.reset.tag := by
  unfold StoredCrcCurrent
  decide +kernel

/-- All good, `k` times, then the answer `y`. -/
def failingAt (k : Nat) (y : Answer) (s : State) : State :=
  { s with link := List.replicate k ⟨[], .behaved⟩ ++ [⟨[], .answers y .old⟩] }

theorem witness_ReadsStopAtTheFirstFailure :
    (List.range 49)[48]? = some 48 ∧ (List.range 48)[0]? = some 0 ∧
    (view 1 = some [7, 8, 9, 13, 14, 15, 19, 20, 21, 24, 25, 26, 27, 28, 29, 30, 31] ∧
      [7, 8, 9, 13, 14, 15, 19, 20, 21, 24, 25, 26, 27, 28, 29, 30, 31][16]? = some 31) ∧
    (desc erased.params 2 = some { kind := .mac, blk0 := 11, nblk := 2, off := 0, len := 8, writable := true
                                   mindig := 16, maxdig := 16 } ∧ ((List.range 2).map (11 + ·))[1]? = some 12) ∧
    (∀ data, Answer.err = .resp (data ++ [0x90#8, 0x00#8]) → data.length ≠ 4) ∧ ¬Answered .err ∧
    (∀ data, Answer.resp [1, 2, 3, 0x90, 0x00] = .resp (data ++ [0x90#8, 0x00#8]) → data.length ≠ 4) ∧
    Answered (.resp [1, 2, 3, 0x90, 0x00]) ∧
    (failingAt 1 .err erased).link = List.replicate 1 ⟨[], .behaved⟩ ++ ⟨[], .answers .err .old⟩ :: [] := by
  refine ⟨by decide, by decide, ⟨rfl, rfl⟩, ⟨rfl, by decide⟩, ?_, ?_, ?_, ?_, rfl⟩
  · intro data h
    cases h
  · rw [answered_iff]; decide
  · intro data h
    have h' := congrArg List.length (Answer.resp.inj h)
    simp at h'
    omega
  · rw [answered_iff]; decide

theorem witness_RecomputeStampsBlock48 : devEuiTag.link = [] ∧ Memory.wf devEuiTag.tag = true := by
  decide +kernel

theorem witness_ValidateSucceedsAfterRecompute :
    devEuiTag.link = [] ∧ Memory.wf devEuiTag.tag = true ∧
    ∃ t u, exec .crcRecompute devEuiTag = .next t ∧ exec .crcValidate (acceptCmd 0x13000000 t) = .next u := by
  refine ⟨by decide +kernel, by decide +kernel, ?_⟩
  obtain ⟨t, ht⟩ := toOutcome_next ((recompute 0xFF devEuiTag).andThen fun c s => .ok { resv := c.setWidth 64 } s)
  obtain ⟨u, hu⟩ := toOutcome_next (validate (acceptCmd 0x13000000 t))
  exact ⟨t, u, ht, hu⟩

/-- The erased tag under the test parameters. -/
def tested : State := { erased with params := testParams }

/-- One field of each way to be delivered: bytes, a number, an unmapped code, the miss of the strict table. -/
theorem witness_FldRdDeliversTheField :
    tested.link = [] ∧ desc tested.params 2 = some (row 2) ∧ desc tested.params 9 = some (row 9) ∧
    desc tested.params 15 = some (row 15) ∧ desc tested.params 8 = some (row 8) ∧
    decodeBytes tested.params (row 2) (tagCat tested.tag 11 2) = .bytes (List.replicate 8 0xFF) ∧
    decodeBytes tested.params (row 9) (tagCat tested.tag 24 1) = .num 65535 false ∧
    decodeBytes tested.params (row 15) (tagCat tested.tag 9 1) = .num 15 true ∧
    decodeBytes tested.params (row 8) (tagCat tested.tag 7 1) = .unmapped := by
  decide +kernel

theorem witness_FldRdDevEui : devEuiTag.link = [] ∧ ((2 : Nat) = 2 ∨ (2 : Nat) = 3) ∧ ((3 : Nat) = 2 ∨ (3 : Nat) = 3) :=
  ⟨rfl, .inl rfl, .inr rfl⟩

theorem witness_UnmappedCodesAreFatalOnlyInTheStrictTable :
    tested.link = [] ∧ desc tested.params 8 = some (row 8) ∧ (row 8).kind = .enumb ∧ (row 8).strict = true ∧
    mapped tested.params (row 8).tbl ((tagCat tested.tag 7 1).getD 0 0) = false ∧
    desc tested.params 16 = some (row 16) ∧ (row 16).kind = .enumb ∧ (row 16).strict = false ∧
    mapped tested.params (row 16).tbl ((tagCat tested.tag 27 1).getD 0 0) = false ∧
    desc tested.params 15 = some (row 15) ∧ (row 15).kind = .enumn ∧ (row 15).strict = false ∧
    mapped tested.params (row 15).tbl (digit (tagCat tested.tag 9 1) (row 15).off) = false := by
  decide +kernel

theorem witness_UndefinedFieldRaises : desc erased.params 8 = none ∧ desc tested.params 17 = none ∧ desc tested.params 0xFF = none := by
  decide +kernel

/-- A snapshot of the view `LORA` of the erased tag. -/
def snapped : State := { tested with snapv := 0xFF00, snap := Vector.replicate 49 ⟨0xFF, 0xFF, 0xFF, 0xFF⟩ }

theorem witness_FldDecDecodesTheSnapshot :
    (desc snapped.params 2 = some (row 2) ∧ (∀ j < (row 2).nblk, snapped.snapv.getLsbD ((row 2).blk0 + j) = true) ∧
      decodeField snapped.params (row 2) snapped.snap = .bytes (List.replicate 8 0xFF)) ∧
    (desc snapped.params 13 = some (row 13) ∧ (∀ j < (row 13).nblk, snapped.snapv.getLsbD ((row 13).blk0 + j) = true) ∧
      decodeField snapped.params (row 13) snapped.snap = .num 15 false) ∧
    (desc snapped.params 5 = some (row 5) ∧ (0 : Nat) < (row 5).nblk ∧ snapped.snapv.getLsbD ((row 5).blk0 + 0) = false) ∧
    (desc snapped.params 2 = some (row 2) ∧ (1 : Nat) < (row 2).nblk ∧
      (0x00000800 : BitVec 49).getLsbD ((row 2).blk0 + 1) = false ∧ (0x00000800 : BitVec 49).getLsbD ((row 2).blk0 + 0) = true) := by
  decide +kernel

theorem witness_FldDecDependsOnTheSnapshotOnly :
    tested.snap = { tested with tag := devEuiTag.tag }.snap ∧ tested.snapv = { tested with tag := devEuiTag.tag }.snapv ∧
    tested.params = { tested with tag := devEuiTag.tag }.params ∧
    ∃ t t', exec (.fldDec 2) tested = .next t ∧ exec (.fldDec 2) { tested with tag := devEuiTag.tag } = .next t' := by
  refine ⟨rfl, rfl, rfl, ?_⟩
  obtain ⟨t, ht⟩ := toOutcome_next (fldDecRun 2 tested)
  obtain ⟨u, hu⟩ := toOutcome_next (fldDecRun 2 { tested with tag := devEuiTag.tag })
  exact ⟨t, u, ht, hu⟩

theorem witness_FldEncDeliversDataAndMask :
    desc (devEuiOp tested).params 2 = some (row 2) ∧
    encodeField (devEuiOp tested).params (row 2) (operandOf (devEuiOp tested)) =
      some ([0x0C, 0x1E, 0xF7, 0x00, 0x00, 0x00, 0x0D, 0x27], List.replicate 8 0xFF) ∧
    encodeField tested.params (row 2) (operandOf tested) = none ∧
    desc tested.params 3 = some (row 3) ∧ (row 3).writable = false := by
  decide +kernel

theorem witness_FieldTable :
    (testParams.joinkeyShort = .zeroFillRight → (0 : Nat) = 0) ∧ (testParams.joinkeyShort = .reject → (0 : Nat) = 32) ∧
    (255 : Nat) ≤ 255 ∧ desc testParams 16 = some (row 16) := by
  decide +kernel

/-- A tag operand that fits `n` digits of 0x11. -/
def operandOf11 (n : Nat) : Operand := ⟨BitVec.ofInt 64 1, n, List.replicate 192 0x11⟩

theorem witness_EncodeStaysInsideItsMask :
    descWf (row 14) = true ∧ (operandOf11 0).op.length = 192 ∧
    encodeField testParams (row 14) (operandOf11 0) = some ([0x02, 0, 0, 0], [0x06, 0, 0, 0]) := by
  decide +kernel

theorem witness_BitGroupReadsLeastSignificantFirst :
    (row 14).kind = .bitgrp ∧ (row 14).bit + (row 14).len ≤ 8 ∧ { row 14 with bit := 6 }.bit + { row 14 with bit := 6 }.len ≤ 8 := by
  decide +kernel

/-- A field of each kind, read from the tag; two of them in the snapshot. -/
theorem witness_DecodedValueOfEachKind :
    tested.link = [] ∧
    [(5, Kind.ascii), (6, .utf16be), (9, .ube), (10, .ule16), (11, .bias127), (12, .s8), (13, .nib), (7, .flagnib)].all
      (fun e => desc tested.params e.1 == some (row e.1) && (row e.1).kind == e.2) = true ∧
    (∀ j < (row 13).nblk, snapped.snapv.getLsbD ((row 13).blk0 + j) = true) ∧
    (∀ j < (row 7).nblk, snapped.snapv.getLsbD ((row 7).blk0 + j) = true) ∧ (row 13).off % 2 = 0 ∧ (row 7).off % 2 = 1 := by
  decide +kernel

/-- A field of each clause: an integer, a raw string of an odd number of digits, a name shorter than its field. -/
theorem witness_FieldEncodeThenDecode :
    (descWf (row 7) = true ∧ Kind.takesOp (row 7).kind = false ∧
      encodeField testParams (row 7) (operandOf11 0) = some ([0, 0x01, 0, 0], [0, 0x0F, 0, 0])) ∧
    (descWf (row 1) = true ∧ (row 1).kind = .raw ∧ (encodeField testParams (row 1) (operandOf11 31)).isSome = true) ∧
    (descWf (row 5) = true ∧ (row 5).kind = .ascii ∧ (encodeField testParams (row 5) (operandOf11 8)).isSome = true) ∧
    (List.replicate 16 (0xFF : Byte)).length = 4 * (row 1).nblk ∧ (List.replicate 4 (0xFF : Byte)).length = 4 * (row 7).nblk ∧
    (List.replicate 8 (0xFF : Byte)).length = 4 * (row 5).nblk ∧ (operandOf11 31).op.length = 192 := by
  decide +kernel

theorem witness_FieldDecodeThenEncode :
    (descWf (row 12) = true ∧ (row 12).writable = true ∧ decodeBytes testParams (row 12) [0, 0xFF, 0, 0] = .num (-1) false ∧
      (row 12).kind ≠ .flagnib) ∧
    (descWf (row 7) = true ∧ (row 7).writable = true ∧ decodeBytes testParams (row 7) [0, 0x01, 0, 0] = .num 1 false ∧
      (digit [0, 0x01, 0, 0] (row 7).off).toNat ≤ 1 ∧ (operandOf11 0).opv = BitVec.ofInt 64 1) ∧
    (descWf (row 5) = true ∧ (row 5).writable = true ∧
      decodeBytes testParams (row 5) [0x11, 0x11, 0, 0, 0, 0, 0, 0] = .bytes [0x11, 0x11] ∧
      (∀ b ∈ ([0x11, 0x11] : List Byte), b.toNat ≤ 0x7F) ∧ (operandOf11 4).oplen = 2 * [0x11, 0x11].length ∧
      (operandOf11 4).op.take 2 = [0x11, 0x11] ∧ (row 5).mindig ≤ 4 ∧ 4 ≤ (row 5).maxdig) ∧
    (operandOf11 4).op.length = 192 := by
  decide +kernel

/-- View 0 of the erased tag delivers; view 1 reads field 8, whose strict table misses; no field before it does. -/
theorem witness_ReadallDeliversTheSnapshot :
    tested.link = [] ∧ erased.link = [] ∧
    (∀ f < 255, ∀ d, desc erased.params f = some d →
      decodeBytes erased.params d (tagCat erased.tag d.blk0 d.nblk) ≠ .unmapped) ∧
    desc tested.params 8 = some (row 8) ∧
    (∀ j < (row 8).nblk, (row 8).blk0 + j ∈ [7, 8, 9, 13, 14, 15, 19, 20, 21, 24, 25, 26, 27, 28, 29, 30, 31]) ∧
    decodeBytes tested.params (row 8) (tagCat tested.tag (row 8).blk0 (row 8).nblk) = .unmapped ∧
    (∀ g < 8, ∀ e, desc tested.params g = some e →
      decodeBytes tested.params e (tagCat tested.tag e.blk0 e.nblk) ≠ .unmapped) := by
  have key : ∀ (p : Params) (m : Memory) (g : Nat),
      (match desc p g with | some e => decide (decodeBytes p e (tagCat m e.blk0 e.nblk) ≠ .unmapped) | none => true) = true →
      ∀ e, desc p g = some e → decodeBytes p e (tagCat m e.blk0 e.nblk) ≠ .unmapped := by
    intro p m g h e he
    rw [he] at h
    exact of_decide_eq_true h
  have none_ext : ∀ f, 8 ≤ f → desc erased.params f = none := by
    intro f hf
    unfold desc
    rw [if_neg (by omega)]
    split <;> rfl
  refine ⟨rfl, rfl, fun f _ => ?_, by decide +kernel, by decide +kernel, by decide +kernel, fun g hg => key _ _ g ?_⟩
  · intro d hd
    by_cases h8 : f < 8
    · refine key _ _ f ?_ d hd
      interval_cases f <;> decide +kernel
    · rw [none_ext f (by omega)] at hd
      cases hd
  · interval_cases g <;> decide +kernel

theorem witness_NoPartialSnapshot :
    (∃ t, exec (.cfgReadall 0) erased = .next t) ∧ (2 : Nat) ≤ 2 ∧ (2 : Nat) ≤ 255 :=
  ⟨toOutcome_next (readallRun 0 erased), by decide, by decide⟩

/-- No reset is to come where no exchange is scripted. -/
theorem noReset_erased : NoReset erased := fun e h => by cases h

theorem witness_SnapshotChangesOnlyInReadall :
    NoReset erased ∧ (∀ v, Instr.cfgErase ≠ .cfgReadall v) ∧ ∃ t, exec .cfgErase erased = .next t :=
  ⟨noReset_erased, (by simp), toOutcome_next (eraseRun erased)⟩

/-- A field whose mask is full, and one whose mask is not. -/
theorem witness_MutateWritesTheFieldAndStamps :
    (devEuiOp tested).link = [] ∧ Memory.wf (devEuiOp tested).tag = true ∧ desc (devEuiOp tested).params 2 = some (row 2) ∧
    encodeField (devEuiOp tested).params (row 2) (operandOf (devEuiOp tested)) =
      some ([0x0C, 0x1E, 0xF7, 0x00, 0x00, 0x00, 0x0D, 0x27], List.replicate 8 0xFF) ∧
    desc tested.params 7 = some (row 7) ∧
    encodeField tested.params (row 7) (operandOf tested) = some ([0, 0, 0, 0], [0, 0x0F, 0, 0]) := by
  decide +kernel

theorem witness_MutateRefusesBadOperands :
    (desc tested.params 3 = some (row 3) ∧ (row 3).writable = false) ∧
    (desc tested.params 2 = some (row 2) ∧ encodeField tested.params (row 2) (operandOf tested) = none) ∧
    (desc tested.params 1 = some (row 1) ∧ 32 < (withOp 33 [] tested).oplen.toNat) := by
  decide +kernel

/-- The first and the last write of the DevEUI; the write of the sleep flag, after its one read. -/
theorem witness_MutateStopsAtTheFirstFailedWrite :
    Memory.wf (devEuiOp tested).tag = true ∧ desc (devEuiOp tested).params 2 = some (row 2) ∧
    encodeField (devEuiOp tested).params (row 2) (operandOf (devEuiOp tested)) =
      some ([0x0C, 0x1E, 0xF7, 0x00, 0x00, 0x00, 0x0D, 0x27], List.replicate 8 0xFF) ∧
    (0 : Nat) < (row 2).nblk ∧ (1 : Nat) < (row 2).nblk ∧ ¬Answered (.resp [0x63, 0x00]) ∧
    (List.range 2).filter (fun j => decide (((List.replicate 8 (0xFF : Byte)).drop (4 * j)).take 4 ≠
      List.replicate 4 0xFF#8)) = [] ∧
    (∀ j ≤ 1, (if j = 0 then (⟨0x0C, 0x1E, 0xF7, 0x00⟩ : Block) else ⟨0x00, 0x00, 0x0D, 0x27⟩).toList =
      ((mergeBytes (tagCat tested.tag 11 2) [0x0C, 0x1E, 0xF7, 0x00, 0x00, 0x00, 0x0D, 0x27]
        (List.replicate 8 0xFF)).drop (4 * j)).take 4) ∧
    (failingAt 1 (.resp [0x63, 0x00]) (devEuiOp tested)).link =
      List.replicate (([] : List Nat).length + 1) ⟨[], .behaved⟩ ++ ⟨[], .answers (.resp [0x63, 0x00]) .old⟩ :: [] ∧
    (List.range 1).filter (fun j => decide ((([0, 0x0F, 0, 0] : List Byte).drop (4 * j)).take 4 ≠
      List.replicate 4 0xFF#8)) = [0] ∧
    (failingAt 1 .err tested).link =
      List.replicate ([0].length + 0) ⟨[], .behaved⟩ ++ ⟨[], .answers .err .old⟩ :: [] ∧
    tested.params.tornWrite = .oldOrNew := by
  rw [answered_iff]
  decide +kernel

/-- The second write of a mutation fails: the operation ends in a fault about block 12. -/
theorem witness_FailedMutationLeavesStoredCrc :
    NoReset (failingAt 1 .err (devEuiOp tested)) ∧ desc (failingAt 1 .err (devEuiOp tested)).params 2 = some (row 2) ∧
    ∃ t, exec (.cfgMutate 2) (failingAt 1 .err (devEuiOp tested)) = .next t ∧ t.faultcode ≠ 0 ∧ t.faultblk ≠ 48 := by
  refine ⟨fun e h => ?_, by decide +kernel, ?_⟩
  · rcases List.mem_cons.mp h with rfl | h
    · exact ⟨by decide, fun fate => by simp⟩
    · rcases List.mem_cons.mp h with rfl | h
      · exact ⟨by decide, fun fate => by simp⟩
      · cases h
  · have h : passes (exec (.cfgMutate 2) (failingAt 1 .err (devEuiOp tested)))
        (fun t => decide (t.faultcode ≠ 0 ∧ t.faultblk ≠ 48)) = true := by decide +kernel
    obtain ⟨t, ht⟩ := toOutcome_next (mutateRun 2 (failingAt 1 .err (devEuiOp tested)))
    have ht' : exec (.cfgMutate 2) (failingAt 1 .err (devEuiOp tested)) = .next t := ht
    rw [ht'] at h
    exact ⟨t, ht', of_decide_eq_true h⟩

theorem witness_EraseFillsAndValidates : devEuiTag.link = [] ∧ Memory.wf devEuiTag.tag = true := by
  decide +kernel

theorem witness_MutateThenReadBack :
    (devEuiOp tested).link = [] ∧ Memory.wf (devEuiOp tested).tag = true ∧ desc (devEuiOp tested).params 2 = some (row 2) ∧
    encodeField (devEuiOp tested).params (row 2) (operandOf (devEuiOp tested)) ≠ none ∧
    (row 2).kind = .mac ∧ (desc tested.params 7 = some (row 7) ∧ Kind.takesOp (row 7).kind = false) ∧
    (desc tested.params 5 = some (row 5) ∧ (row 5).kind = .ascii ∧
      encodeField tested.params (row 5) (operandOf tested) ≠ none) ∧
    ∃ t u, exec (.cfgMutate 2) (devEuiOp tested) = .next t ∧ exec (.fldRd 2) (acceptCmd 0x20020000 t) = .next u := by
  refine ⟨rfl, by decide +kernel, by decide +kernel, by decide +kernel, rfl, by decide +kernel, by decide +kernel, ?_⟩
  obtain ⟨t, ht⟩ := toOutcome_next (mutateRun 2 (devEuiOp tested))
  obtain ⟨u, hu⟩ := toOutcome_next (fldRdRun 2 (acceptCmd 0x20020000 t))
  exact ⟨t, u, ht, hu⟩

theorem witness_HostCommandsAlwaysEnd :
    Instr.isHostCommand (.rdblk 0) = true ∧ Instr.isHostCommand .cfgErase = true := ⟨rfl, rfl⟩

theorem witness_EncodingFaultMeansNoExchange :
    Instr.isHostCommand (.rdblk 49) = true ∧ ∃ t, exec (.rdblk 49) erased = .next t ∧ t.faultcode = 2 := ⟨rfl, _, rfl, rfl⟩

theorem witness_OperandsNeverWritten : NoReset erased ∧ ∃ t, exec (.cfgMutate 2) erased = .next t :=
  ⟨noReset_erased, toOutcome_next (mutateRun 2 erased)⟩

theorem witness_ReadingCommandsKeepTheTag :
    (∃ t, exec .crcValidate erased = .next t) ∧ ∃ t, exec (.apduRead 48) erased = .next t :=
  ⟨toOutcome_next (validate erased), _, rfl⟩

theorem witness_CrcRegistersChangeOnlyWhereSaid : NoReset erased ∧ ∃ t, exec (.rdblk 48) erased = .next t :=
  ⟨noReset_erased, toOutcome_next (rdblkRun 48 erased)⟩

theorem witness_ParametersAndUidNeverChange : ∃ t, step (withEvent .reset) = .next t := ⟨_, rfl⟩

/-- A state that meets the invariant: the erased tag, nothing in the snapshot. -/
theorem inv_withEvent (e : Event) : Inv (withEvent e) := by
  have h : Memory.wf erased.tag = true ∧ Memory.inTag erased.tag = true := by decide +kernel
  refine ⟨h, ⟨?_, ?_, rfl, ?_, ?_, fun _ => rfl, fun _ => rfl⟩, .inl rfl, fun f d hd h => ?_, ?_⟩
  · show statusReserved 0 = 0
    decide
  · show statusBusy 0 = false
    decide
  · show statusFault 0 = true ↔ (0 : BitVec 8) ≠ 0
    decide
  · show (0 : BitVec 8).toNat ≤ 5
    decide
  · have h0 := h 0 (desc_blocks hd).1
    simp [withEvent, erased, State.reset] at h0
  · show (0 : BitVec 16).toNat ≤ 384 ∧ (0 : BitVec 16).toNat % 2 = 0
    decide

theorem witness_FldDecNeverMisses : Inv (withEvent .reset) := inv_withEvent .reset

theorem witness_StepKeepsInv :
    Inv (withEvent (.host (.write (.cmd 0x32000000)))) ∧ ∃ t, step (withEvent (.host (.write (.cmd 0x32000000)))) = .next t :=
  ⟨inv_withEvent _, toOutcome_next (eraseRun (acceptCmd 0x32000000 { erased with inbox := [] }))⟩

end Sys2Proof.Tests
end

/-! ## The state: what every step keeps, and the host's accesses

The invariant and the frames of the whole machine are read off one inversion of `exec` (`exec_cases`) and one of `step`
(`step_cases`). -/

namespace Sys2Proof.Machine

/-! ### What a running operation keeps -/

/-- The part of the invariant that holds inside an operation too: it says nothing of `STATUS`, `SEQ` or the result. -/
def StoreInv (s : State) : Prop := TagInv s ∧ SnapshotInv s ∧ SnapshotDecodes s

theorem Inv.storeInv {s : State} (h : Inv s) : StoreInv s := by
  obtain ⟨htag, -, hsnap, hdec, -⟩ := h
  exact ⟨htag, hsnap, hdec⟩

/-- Exchanges move neither snapshot nor parameters, and keep the canonical form of the tag. -/
theorem Moves.storeInv {W : Nat → Prop} {C : Prop} {s t : State} (h : Moves W C s t) (hs : StoreInv s) : StoreInv t := by
  obtain ⟨htag, hsnap, hdec⟩ := hs
  refine ⟨h.tagInv htag, ?_, hdec.kept h.snapshot h.outside.2.1⟩
  unfold SnapshotInv
  rw [h.snapshot.2]
  exact hsnap

/-- `CFG.READALL` starts by dropping the snapshot, and no snapshot meets the invariant (R231). -/
theorem storeInv_noSnapshot {s : State} (h : StoreInv s) : StoreInv (noSnapshot s) :=
  ⟨h.1, .inl rfl, snapshotDecodes_empty rfl⟩

/-- The mask of a view is one of the two values `SNAPV` may hold beside 0 (R33, R38). -/
theorem blockMask_view {v : Nat} {bs : List Nat} (h : view v = some bs) :
    blockMask bs = 0xFF00 ∨ blockMask bs = 0xFF38E380 := by
  unfold view at h
  split at h <;> simp only [Option.some.injEq, reduceCtorEq] at h <;> subst h
  · exact .inl (by decide)
  · exact .inr (by decide)

/-- A part of an operation that compares CRCs only if `P` and computes one only if `C`: what it leaves as it was. -/
structure Progress (P C : Prop) (s t : State) : Prop where
  operands : OperandsKept s t
  outside  : OutsideKept s t
  pair     : ¬P → CrcPairKept s t
  crcreg   : ¬C → t.crcreg = s.crcreg
  storeInv : StoreInv s → StoreInv t

theorem Moves.progress {W : Nat → Prop} {P C : Prop} {s t : State} (h : Moves W C s t) : Progress P C s t :=
  ⟨h.operands, h.outside, fun _ => h.pair, h.crcreg, h.storeInv⟩

/-- A comparison moves the three CRC registers and nothing else. -/
theorem Moves.progress_compared {W : Nat → Prop} {C : Prop} {s u : State} (h : Moves W C s u) (c e : BitVec 16) :
    Progress True True s (compared c e u) :=
  ⟨h.operands, h.outside, fun hP => absurd trivial hP, fun hC => absurd trivial hC, h.storeInv⟩

theorem Moves.progress_noSnapshot {W : Nat → Prop} {P : Prop} {s t : State} (h : Moves W False (noSnapshot s) t) :
    Progress P False s t :=
  ⟨h.operands, h.outside, fun _ => h.pair, h.crcreg, fun hs => h.storeInv (storeInv_noSnapshot hs)⟩

theorem Progress.finish {P C : Prop} {s t : State} (h : Progress P C s t) (r : Result) :
    Progress P C s (finish r t) :=
  ⟨h.operands, h.outside, h.pair, h.crcreg, h.storeInv⟩

theorem Progress.raiseFault {P C : Prop} {s t : State} (h : Progress P C s t) (f : FaultKind) (blk : BitVec 16)
    (fld : BitVec 8) : Progress P C s (raiseFault f blk fld t) :=
  ⟨h.operands, h.outside, h.pair, h.crcreg, h.storeInv⟩

/-! ### How a host command ends -/

/-- How every host command ends: it has progressed without touching operands or the outside, `CRCOK` comes with equal CRCs,
and the result fits `RES`; or a reset cut it. -/
def Lawful (P C : Prop) (s : State) (r : Run Result) : Prop :=
  r.Ends (fun a t => Progress P C s t ∧ (a.crcok = true → t.crcexp = t.crcact) ∧ a.bytes.length ≤ 192)
    (fun _ _ _ t => Progress P C s t) (CutBy (fun _ => True) s)

theorem Ordinary.lawful {W : Nat → Prop} {P C : Prop} {s : State} {r : Run Result} (h : Ordinary W C s r) :
    Lawful P C s r :=
  Run.Ends.mono h (fun _ _ ⟨hm, hc, hb⟩ => ⟨hm.progress, fun hok => absurd hok (by simp [hc]), hb⟩)
    (fun _ _ _ _ ⟨hm, _⟩ => hm.progress) (fun _ hc => hc.mono fun _ _ => trivial)

theorem validate_lawful (s : State) : Lawful True True s (validate s) := by
  refine (validate_ends s).mono ?_ ?_ fun _ hc => hc.mono fun _ _ => trivial
  · rintro r t ⟨u, c, hm, rfl, rfl⟩
    exact ⟨hm.progress_compared c c, fun _ => rfl, by simp⟩
  · rintro f blk fld t (⟨hm, -⟩ | ⟨u, c, e, -, hm, rfl, -⟩)
    · exact (hm.mono (W' := noBlock) (fun _ h => h) False.elim).progress
    · exact hm.progress_compared c e

theorem eraseRun_lawful (s : State) : Lawful True True s (eraseRun s) := by
  refine (eraseRun_ends s).mono ?_ ?_ fun _ hc => hc.mono fun _ _ => trivial
  · rintro r t ⟨u, c, hm, rfl, rfl⟩
    exact ⟨hm.progress_compared c c, fun _ => rfl, by simp⟩
  · rintro f blk fld t (⟨hm, -⟩ | ⟨u, c, e, -, hm, rfl, -⟩)
    · exact hm.progress
    · exact hm.progress_compared c e

/-- The snapshot of `CFG.READALL` is a whole view of blocks that all decode (R231). -/
theorem storeInv_snapTake {v : Nat} {bs : List Nat} {u : State} (hv : view v = some bs)
    (hdec : firstUnmapped u.params bs u.buf (List.range 255) = none) (htag : TagInv u) :
    StoreInv { u with snap := snapTake bs u.buf u.snap, snapv := blockMask bs } :=
  ⟨htag, .inr (blockMask_view hv), snapshotDecodes_taken hv rfl rfl rfl hdec⟩

theorem readallRun_lawful {P : Prop} (v : Nat) (s : State) : Lawful P False s (readallRun v s) := by
  refine (readallRun_ends v s).mono ?_ ?_ fun _ hc => hc.mono fun _ _ => trivial
  · rintro r t ⟨bs, u, hv, hm, hdec, rfl, rfl⟩
    have hp : Progress P False s u := hm.progress_noSnapshot
    have hlen := view_length hv
    refine ⟨⟨hp.operands, hp.outside, hp.pair, hp.crcreg, fun hs => ?_⟩, nofun, ?_⟩
    · exact storeInv_snapTake hv hdec (hp.storeInv hs).1
    · rw [blocks_length]
      omega
  · rintro f blk fld t ⟨hm, -⟩
    exact hm.progress_noSnapshot

theorem mutateRun_lawful {P : Prop} (f : Nat) (s : State) : Lawful P True s (mutateRun f s) := by
  cases hd : desc s.params f with
  | some d => exact (mutateRun_ends hd).lawful
  | none =>
    unfold mutateRun
    rw [withDesc_none hd]
    exact (Moves.refl noBlock True s).progress

/-- The commands that compare two CRCs (R28). -/
def Instr.comparesCrc : Instr → Prop
  | .crcValidate | .cfgErase => True
  | _ => False

/-- The commands that compute a CRC into `CRCREG` (R29). -/
def Instr.computesCrc : Instr → Prop
  | .crcCompute | .crcValidate | .crcRecompute | .cfgMutate _ | .cfgErase => True
  | _ => False

/-- Every host command is a lawful run, up to its end. -/
theorem exec_hostCommand (i : Instr) (s : State) (h : Instr.isHostCommand i = true) :
    ∃ r, exec i s = r.toOutcome ∧ Lawful (Instr.comparesCrc i) (Instr.computesCrc i) s r := by
  cases i with
  | rdblk blk => exact ⟨_, rfl, (rdblkRun_ends blk s).lawful⟩
  | wrblk blk => exact ⟨_, rfl, (wrblkRun_ends blk s).lawful⟩
  | getuid => exact ⟨_, rfl, (getuidRun_ends s).lawful⟩
  | crcCompute => exact ⟨_, rfl, (crcComputeRun_ends s).lawful⟩
  | crcEnc => exact ⟨_, rfl, (crcEncRun_ends s).lawful⟩
  | crcDec => exact ⟨_, rfl, (crcDecRun_ends s).lawful⟩
  | crcValidate => exact ⟨_, rfl, validate_lawful s⟩
  | crcRecompute => exact ⟨_, rfl, (crcRecomputeRun_ends s).lawful⟩
  | fldRd sel => exact ⟨_, rfl, (fldRdRun_ends sel s).lawful⟩
  | fldDec sel => exact ⟨_, rfl, (fldDecRun_ends sel s).lawful⟩
  | fldEnc sel => exact ⟨_, rfl, (fldEncRun_ends sel s).lawful⟩
  | cfgReadall sel => exact ⟨_, rfl, readallRun_lawful sel s⟩
  | cfgMutate sel => exact ⟨_, rfl, mutateRun_lawful sel s⟩
  | cfgErase => exact ⟨_, rfl, eraseRun_lawful s⟩
  | apduRead n => cases h
  | apduWrite n d => cases h
  | apduGetuid => cases h

/-! ### The tag's side of one exchange -/

/-- What a raw exchange with the tag leaves: the tag, the environment's lists and the record moved, no register (log 9). -/
def OnlyTag (s t : State) : Prop :=
  ∃ m ib es tr, t = { s with tag := m, inbox := ib, link := es, trace := tr } ∧ (TagInv s → TagInv t)

/-- What a reset in a raw exchange leaves (R283). -/
structure TagCut (s t : State) : Prop where
  atReset : AtReset t
  uid     : t.uid = s.uid
  params  : t.params = s.params
  tagInv  : TagInv s → TagInv t
  reset   : ¬NoReset s

theorem not_noReset {s : State} {e : LinkEvent} {es : List LinkEvent} (h : s.link = e :: es)
    (he : e.outcome = .resetBefore ∨ ∃ fate, e.outcome = .resetDuring fate) : ¬NoReset s := by
  intro hn
  obtain ⟨hb, hd⟩ := hn e (h ▸ List.mem_cons_self)
  exact he.elim hb fun ⟨fate, hf⟩ => hd fate hf

/-- A raw exchange is answered, and moves the tag alone, or a reset falls in it. -/
theorem tagExchange_after (c : TagCmd) (s : State) :
    OnlyTag s (tagExchange c s).after ∨ TagCut s (tagExchange c s).after := by
  unfold tagExchange
  split
  · exact .inl ⟨_, _, _, _, rfl, tagAfter_inv c s⟩
  · rename_i e es hl
    cases he : e.outcome with
    | behaved => exact .inl ⟨_, _, _, _, rfl, tagAfter_inv c s⟩
    | answers y fate =>
      refine .inl ⟨_, _, _, _, rfl, fun hi => ?_⟩
      simp only [TagInv, settle, after_ok]
      split
      · exact tagAfter_inv c _ hi
      · exact tagAfterFailure_inv c fate _ hi
    | resetBefore => exact .inr ⟨atReset_resetPulse _, rfl, rfl, id, not_noReset hl (.inl he)⟩
    | resetDuring fate =>
      exact .inr ⟨atReset_resetPulse _, rfl, rfl, tagAfterFailure_inv c fate _, not_noReset hl (.inr ⟨fate, he⟩)⟩

/-- A tag command that is answered at all is one raw exchange. -/
theorem tagRun_next {c : TagCmd} {s t : State} (h : tagRun c s = .next t) : OnlyTag s t ∨ TagCut s t := by
  unfold tagRun at h
  split at h
  · cases h
  · obtain rfl : (tagExchange c s).after = t := by simpa using h
    exact tagExchange_after c s

/-! ### What executing an instruction can do -/

/-- Every instruction that answers is a lawful run to its end, or a raw exchange with the tag. -/
theorem exec_cases {i : Instr} {s t : State} (h : exec i s = .next t) :
    (Instr.isHostCommand i = true ∧
      ∃ r : Run Result, Lawful (Instr.comparesCrc i) (Instr.computesCrc i) s r ∧ r.toOutcome = .next t) ∨
    (Instr.isHostCommand i = false ∧ (OnlyTag s t ∨ TagCut s t)) := by
  cases hi : Instr.isHostCommand i with
  | true =>
    obtain ⟨r, he, hr⟩ := exec_hostCommand i s hi
    exact .inl ⟨rfl, r, hr, he ▸ h⟩
  | false =>
    refine .inr ⟨rfl, ?_⟩
    cases i with
    | apduRead n => exact tagRun_next h
    | apduWrite n d => exact tagRun_next h
    | apduGetuid => exact tagRun_next (c := .getUid) h
    | _ => cases hi

/-- A lawful run that no reset cuts has progressed to its next state. -/
theorem Lawful.next {P C : Prop} {s t : State} {r : Run Result} (h : Lawful P C s r) (ht : r.toOutcome = .next t) :
    Progress P C s t ∨ CutBy (fun _ => True) s t := by
  obtain ⟨a, u, ⟨hp, -, -⟩, rfl⟩ | ⟨f, blk, fld, u, hp, rfl⟩ | hc := Run.Ends.next h ht
  · exact .inl (hp.finish a)
  · exact .inl (hp.raiseFault f blk fld)
  · exact .inr hc

/-- The next state of a lawful run meets the invariant: a normal end, a faulted end, or the registers at reset. -/
theorem Lawful.inv {P C : Prop} {s t : State} {r : Run Result} (h : Lawful P C s r) (hs : StoreInv s)
    (ht : r.toOutcome = .next t) : Inv t := by
  obtain ⟨a, u, ⟨hp, hok, hlen⟩, rfl⟩ | ⟨f, blk, fld, u, hp, rfl⟩ | hc := Run.Ends.next h ht
  · obtain ⟨htag, hsnap, hdec⟩ := hp.storeInv hs
    exact inv_finish htag hsnap hdec hok hlen
  · obtain ⟨htag, hsnap, hdec⟩ := hp.storeInv hs
    exact inv_raiseFault htag hsnap hdec
  · exact inv_atReset hc.atReset (hc.tagInv hs.1)

theorem OnlyTag.inv {s t : State} (h : OnlyTag s t) (hs : Inv s) : Inv t := by
  obtain ⟨m, ib, es, tr, rfl, htag⟩ := h
  exact ⟨htag hs.1, hs.2⟩

theorem TagCut.inv {s t : State} (h : TagCut s t) (hs : Inv s) : Inv t := inv_atReset h.atReset (h.tagInv hs.1)

theorem OnlyTag.frame {s t : State} (h : OnlyTag s t) :
    OperandsKept s t ∧ CrcPairKept s t ∧ t.crcreg = s.crcreg ∧ t.params = s.params ∧ t.uid = s.uid := by
  obtain ⟨m, ib, es, tr, rfl, -⟩ := h
  exact ⟨⟨rfl, rfl, rfl, rfl⟩, ⟨rfl, rfl⟩, rfl, rfl, rfl⟩

/-- Where no reset falls, an instruction keeps the operands, and the CRC registers but for the commands that name them. -/
theorem exec_frame {i : Instr} {s t : State} (hn : NoReset s) (h : exec i s = .next t) :
    OperandsKept s t ∧ (¬Instr.comparesCrc i → CrcPairKept s t) ∧ (¬Instr.computesCrc i → t.crcreg = s.crcreg) := by
  obtain ⟨-, r, hr, ht⟩ | ⟨-, htag | hcut⟩ := exec_cases h
  · rcases hr.next ht with hp | hc
    · exact ⟨hp.operands, hp.pair, hp.crcreg⟩
    · exact absurd hn hc.reset
  · obtain ⟨hops, hpair, hcrc, -⟩ := htag.frame
    exact ⟨hops, fun _ => hpair, fun _ => hcrc⟩
  · exact absurd hn hcut.reset

/-- No instruction changes the parameters or the UID, whatever the environment does. -/
theorem exec_params_uid {i : Instr} {s t : State} (h : exec i s = .next t) : t.params = s.params ∧ t.uid = s.uid := by
  obtain ⟨-, r, hr, ht⟩ | ⟨-, htag | hcut⟩ := exec_cases h
  · obtain ⟨huid, hparams, -⟩ : OutsideKept s t := (hr.next ht).elim (·.outside) (·.outside)
    exact ⟨hparams, huid⟩
  · exact htag.frame.2.2.2
  · exact ⟨hcut.params, hcut.uid⟩

/-! ### What a step can do -/

/-- What a step makes of the event it took, in the state `s` that holds the rest of the events. -/
inductive Taken (s : State) : Event → State → Prop
  /-- A write of `CMD` starts the operation its word decodes to (R25). -/
  | command {w : BitVec 32} {i : Instr} {t : State} (idle : statusBusy s.status = false) (dec : decodeCmd w = .ok i)
      (run : exec i (acceptCmd w s) = .next t) : Taken s (.host (.write (.cmd w))) t
  /-- A write of `CMD` with an illegal word (R94). -/
  | illegal {w : BitVec 32} (idle : statusBusy s.status = false) (dec : ∀ i, decodeCmd w ≠ .ok i) :
      Taken s (.host (.write (.cmd w))) (raiseFault .encodingFault 0xFFFF 0xFF (acceptCmd w s))
  /-- A host access while an operation runs (R44). -/
  | busy {a : HostAct} (busy : statusBusy s.status = true) : Taken s (.host a) (hostBusy a s)
  /-- A host access other than a write of `CMD` while none runs (R30). -/
  | idle {a : HostAct} (idle : statusBusy s.status = false) (notCmd : ∀ w, a ≠ .write (.cmd w)) :
      Taken s (.host a) (hostIdle a s)
  /-- A pulse of the reset input (R280). -/
  | reset : Taken s .reset (resetPulse s)
  /-- The bytes of a tag command (log 9). -/
  | wire {bs : List Byte} {i : Instr} {t : State} (dec : decodeApdu bs = .ok i) (run : exec i s = .next t) :
      Taken s (.wire bs) t

/-- The outcome of a step once its event is fetched. -/
def Fetched.outcome : Fetched → Host.Outcome State Fault Refusal
  | .run i s => exec i s
  | .done s => .next s
  | .refuse r => .refused r

theorem step_of_inbox {s : State} {e : Event} {es : List Event} (h : s.inbox = e :: es) :
    step s = (fetchEvent e { s with inbox := es }).outcome := by
  have hf : fetch s = fetchEvent e { s with inbox := es } := by simp [fetch, h]
  unfold step
  rw [hf]
  cases fetchEvent e { s with inbox := es } <;> rfl

theorem step_of_inbox_nil {s : State} (h : s.inbox = []) : step s = .next s := by
  simp [step, fetch, h]

theorem fetchEvent_host {a : HostAct} (ha : ∀ w, a ≠ .write (.cmd w)) (s : State) :
    fetchEvent (.host a) s = .done (hostAccess a s) := by
  rw [fetchEvent]
  exact ha

/-- While an operation runs every host access, a write of `CMD` too, goes by the rules of R44. -/
theorem fetchEvent_busy {s : State} (h : statusBusy s.status = true) (a : HostAct) :
    fetchEvent (.host a) s = .done (hostBusy a s) := by
  by_cases ha : ∃ w, a = .write (.cmd w)
  · obtain ⟨w, rfl⟩ := ha
    simp [fetchEvent, fetchCmd, hostBusy, h]
  · simp [fetchEvent_host (not_exists.mp ha), hostAccess, h]

/-- A write of `CMD` accepted while no operation runs. -/
theorem fetchEvent_cmd {s : State} (h : statusBusy s.status = false) (w : BitVec 32) :
    fetchEvent (.host (.write (.cmd w))) s =
      match decodeCmd w with
      | .ok i => .run i (acceptCmd w s)
      | .error _ => .done (raiseFault .encodingFault 0xFFFF 0xFF (acceptCmd w s)) := by
  simp only [fetchEvent, fetchCmd, h]
  rfl

/-- While no operation runs a host access other than a write of `CMD` goes by the rules of R30. -/
theorem fetchEvent_idle {s : State} (h : statusBusy s.status = false) {a : HostAct} (ha : ∀ w, a ≠ .write (.cmd w)) :
    fetchEvent (.host a) s = .done (hostIdle a s) := by
  simp [fetchEvent_host ha, hostAccess, h]

theorem fetchEvent_taken {s t : State} {e : Event} (h : (fetchEvent e s).outcome = .next t) : Taken s e t := by
  cases e with
  | reset =>
    obtain rfl : resetPulse s = t := by simpa [fetchEvent, Fetched.outcome] using h
    exact .reset
  | wire bs =>
    cases hd : decodeApdu bs with
    | ok i => exact .wire hd (by simpa [fetchEvent, fetchWire, hd, Fetched.outcome] using h)
    | error r => simp [fetchEvent, fetchWire, hd, Fetched.outcome] at h
  | host a =>
    cases hb : statusBusy s.status with
    | true =>
      obtain rfl : hostBusy a s = t := by simpa [fetchEvent_busy hb, Fetched.outcome] using h
      exact .busy hb
    | false =>
      by_cases ha : ∃ w, a = .write (.cmd w)
      · obtain ⟨w, rfl⟩ := ha
        rw [fetchEvent_cmd hb] at h
        cases hd : decodeCmd w with
        | ok i => exact .command hb hd (by simpa [hd, Fetched.outcome] using h)
        | error r =>
          obtain rfl : raiseFault .encodingFault 0xFFFF 0xFF (acceptCmd w s) = t := by
            simpa [hd, Fetched.outcome] using h
          exact .illegal hb (by simp [hd])
      · obtain rfl : hostIdle a s = t := by
          simpa [fetchEvent_idle hb (not_exists.mp ha), Fetched.outcome] using h
        exact .idle hb (not_exists.mp ha)

/-- A step with nothing to come stays where it is; else it takes the first event. -/
theorem step_cases {s t : State} (h : step s = .next t) :
    (s.inbox = [] ∧ t = s) ∨ ∃ e es, s.inbox = e :: es ∧ Taken { s with inbox := es } e t := by
  cases hi : s.inbox with
  | nil =>
    obtain rfl : s = t := by simpa [step_of_inbox_nil hi] using h
    exact .inl ⟨rfl, rfl⟩
  | cons e es => exact .inr ⟨e, es, rfl, fetchEvent_taken (step_of_inbox hi ▸ h)⟩

/-! ### The invariant -/

/-- A host access while no operation runs writes the operands and what the host read, nothing else (R30). -/
theorem hostIdle_eq (a : HostAct) (s : State) :
    ∃ v n o rd, hostIdle a s = { s with opv := v, oplen := n, op := o, hostRd := rd } := by
  match a with
  | .write (.cmd w) => exact ⟨_, _, _, _, rfl⟩
  | .write (.opv v) => exact ⟨_, _, _, _, rfl⟩
  | .write (.oplen n) => exact ⟨_, _, _, _, rfl⟩
  | .write (.op k b) => exact ⟨_, _, _, _, rfl⟩
  | .write (.readOnly r) => exact ⟨_, _, _, _, rfl⟩
  | .read r => exact ⟨_, _, _, _, rfl⟩

theorem inv_hostIdle {s : State} (h : Inv s) (a : HostAct) : Inv (hostIdle a s) := by
  obtain ⟨v, n, o, rd, he⟩ := hostIdle_eq a s
  rw [he]
  exact h

/-- The bytes on the wire decode to no host command. -/
theorem decodeApdu_not_isHostCommand {bs : List Byte} {i : Instr} (h : decodeApdu bs = .ok i) :
    Instr.isHostCommand i = false := by
  obtain ⟨p, q, -, rfl⟩ | ⟨p, q, d, -, rfl⟩ | ⟨-, rfl⟩ := decodeApdu_ok h <;> rfl

theorem Taken.inv {s t : State} {e : Event} (h : Taken s e t) (hs : Inv s) : Inv t := by
  cases h with
  | @command w i t _ dec run =>
    obtain ⟨-, r, hr, ht⟩ | ⟨hi, -⟩ := exec_cases run
    · exact hr.inv (s := acceptCmd w s) hs.storeInv ht
    · exact absurd (decodeCmd_isHostCommand dec) (by simp [hi])
  | illegal _ _ =>
    obtain ⟨htag, hsnap, hdec⟩ := hs.storeInv
    exact inv_raiseFault htag hsnap hdec
  | busy hb =>
    obtain ⟨-, ⟨-, hidle, -⟩, -⟩ := hs
    exact absurd hb (by simp [hidle])
  | idle _ _ => exact inv_hostIdle hs _
  | reset => exact inv_atReset (atReset_resetPulse s) hs.1
  | wire dec run =>
    obtain ⟨hi, -⟩ | ⟨-, htag | hcut⟩ := exec_cases run
    · exact absurd hi (by simp [decodeApdu_not_isHostCommand dec])
    · exact htag.inv hs
    · exact hcut.inv hs

/-- Settles O60: by the event the step took; an operation meets the invariant at each of its three ends. -/
theorem stepKeepsInv : Obligations.StepKeepsInv := by
  intro s t hs h
  obtain ⟨-, rfl⟩ | ⟨e, es, -, ht⟩ := step_cases h
  · exact hs
  · exact ht.inv hs

theorem atReset_reset : AtReset State.reset := ⟨rfl, rfl, rfl, rfl, rfl, rfl, rfl, rfl, rfl, rfl, rfl, rfl, rfl, rfl⟩

/-- Settles O59: the registers are at their reset values, and the tag lists nothing. -/
theorem invHoldsAtReset : Obligations.InvHoldsAtReset := inv_atReset atReset_reset ⟨rfl, rfl⟩

/-! ### What no step or instruction changes -/

/-- Settles O54, by the frame of `exec`. -/
theorem operandsNeverWritten : Obligations.OperandsNeverWritten := fun _ _ _ hn h => (exec_frame hn h).1

theorem comparesCrc_iff (i : Instr) : Instr.comparesCrc i ↔ i = .crcValidate ∨ i = .cfgErase := by
  cases i <;> simp [Instr.comparesCrc]

theorem computesCrc_iff (i : Instr) : Instr.computesCrc i ↔
    i = .crcCompute ∨ i = .crcValidate ∨ i = .crcRecompute ∨ (∃ f, i = .cfgMutate f) ∨ i = .cfgErase := by
  cases i <;> simp [Instr.computesCrc]

/-- Settles O56, by the frame of `exec`. -/
theorem crcRegistersChangeOnlyWhereSaid : Obligations.CrcRegistersChangeOnlyWhereSaid := by
  intro i s t hn h
  obtain ⟨-, hpair, hcrc⟩ := exec_frame hn h
  rw [comparesCrc_iff] at hpair
  rw [computesCrc_iff] at hcrc
  exact ⟨fun h1 h2 => hpair (by simp [h1, h2]), fun h1 h2 h3 h4 h5 => hcrc (by simp [h1, h2, h3, h4, h5])⟩

theorem hostBusy_params_uid (a : HostAct) (s : State) :
    (hostBusy a s).params = s.params ∧ (hostBusy a s).uid = s.uid := by
  obtain ⟨v, c, h⟩ := hostBusy_eq a s
  rw [h]
  exact ⟨rfl, rfl⟩

theorem hostIdle_params_uid (a : HostAct) (s : State) :
    (hostIdle a s).params = s.params ∧ (hostIdle a s).uid = s.uid := by
  obtain ⟨v, n, o, rd, h⟩ := hostIdle_eq a s
  rw [h]
  exact ⟨rfl, rfl⟩

theorem Taken.params_uid {s t : State} {e : Event} (h : Taken s e t) : t.params = s.params ∧ t.uid = s.uid := by
  cases h with
  | command _ _ run => exact exec_params_uid (s := acceptCmd _ s) run
  | illegal _ _ => exact ⟨rfl, rfl⟩
  | busy _ => exact hostBusy_params_uid _ s
  | idle _ _ => exact hostIdle_params_uid _ s
  | reset => exact ⟨rfl, rfl⟩
  | wire _ run => exact exec_params_uid run

/-- Settles O57, by the event the step took. -/
theorem parametersAndUidNeverChange : Obligations.ParametersAndUidNeverChange := by
  intro s t h
  obtain ⟨-, rfl⟩ | ⟨e, es, -, ht⟩ := step_cases h
  · exact ⟨rfl, rfl⟩
  · exact ht.params_uid

/-! ### Single steps -/

theorem statusAccepted_eq : statusAccepted = 0x00000001#32 := by decide

/-- Settles O6: fetching hands the decoded instruction to `exec`. -/
theorem stepRunsDecodedInstruction : Obligations.StepRunsDecodedInstruction := by
  intro s es i
  refine ⟨fun w hin hb hd => ?_, fun bs hin hd => ?_⟩
  · have hd' : decodeCmd w = .ok i := hd
    rw [step_of_inbox hin, fetchEvent_cmd (s := { s with inbox := es }) hb, hd', ← statusAccepted_eq]
    rfl
  · have hd' : decodeApdu bs = .ok i := hd
    rw [step_of_inbox hin]
    simp [fetchEvent, fetchWire, hd', Fetched.outcome]

/-- What a register holds does not depend on what the host read last, nor on the counter of free values. -/
@[simp] theorem regValue_hostRd_fresh (s : State) (v : HostVal) (c : Nat) (r : Reg) :
    regValue { s with hostRd := v, fresh := c } r = regValue s r := by
  cases r <;> rfl

theorem hostBusyAll_append (as bs : List HostAct) (s : State) :
    hostBusyAll (as ++ bs) s = hostBusyAll bs (hostBusyAll as s) := by
  induction as generalizing s with
  | nil => rfl
  | cons a as ih => exact ih (hostBusy a s)

/-- Writes beside an exchange are ignored (R44). -/
theorem hostBusyAll_writes {as : List HostAct} (h : ∀ a ∈ as, ∃ w, a = .write w) (s : State) : hostBusyAll as s = s := by
  induction as with
  | nil => rfl
  | cons a as ih =>
    obtain ⟨w, rfl⟩ := h a List.mem_cons_self
    exact ih fun b hb => h b (List.mem_cons_of_mem _ hb)

theorem hostBusy_read {r : Reg} (h : r.trueWhileBusy = true) (s : State) :
    hostBusy (.read r) s = { s with hostRd := regValue s r } := if_pos h

/-- After the accesses beside an exchange the host holds the register its last read named, if that reads truly (R44). -/
theorem hostBusyAll_lastRead {r : Reg} (h : r.trueWhileBusy = true) (before : List HostAct) {after : List HostAct}
    (ha : ∀ a ∈ after, ∃ w, a = .write w) (s : State) :
    (hostBusyAll (before ++ .read r :: after) s).hostRd = regValue s r := by
  obtain ⟨v, c, hbefore⟩ := hostBusyAll_eq before s
  rw [hostBusyAll_append, hbefore, hostBusyAll, hostBusyAll_writes ha, hostBusy_read h]
  exact regValue_hostRd_fresh s v c r

/-- Settles O8: one access by its kind, the accesses beside an exchange by the last read among them. -/
theorem hostAccessWhileBusy : Obligations.HostAccessWhileBusy := by
  refine ⟨fun s es a hin hb => ?_, fun s as => ⟨hostBusyAll_eq as s, fun h => hostBusyAll_writes h s, ?_⟩⟩
  · rw [step_of_inbox hin, fetchEvent_busy (s := { s with inbox := es }) hb]
    cases a with
    | write w => exact ⟨s.hostRd, s.fresh, rfl, fun _ _ => rfl, nofun⟩
    | read r =>
      cases ht : r.trueWhileBusy with
      | true =>
        rw [hostBusy_read ht]
        refine ⟨regValue s r, s.fresh, rfl, nofun, ?_⟩
        rintro r' ⟨⟩ -
        rfl
      | false =>
        refine ⟨_, _, by simp only [hostBusy, ht]; rfl, nofun, ?_⟩
        rintro r' ⟨⟩ ht'
        exact absurd ht' (by simp [ht])
  · rintro before after r rfl ha hr
    exact hostBusyAll_lastRead hr before ha s

/-- A step that takes a host access other than a write of `CMD` while no operation runs. -/
theorem step_hostIdle {s : State} {es : List Event} {a : HostAct} (hb : statusBusy s.status = false)
    (ha : ∀ w, a ≠ .write (.cmd w)) (hin : s.inbox = .host a :: es) :
    step s = .next (hostIdle a { s with inbox := es }) := by
  rw [step_of_inbox hin, fetchEvent_idle (s := { s with inbox := es }) hb ha]
  rfl

/-- Settles O9: each access by the register it names. -/
theorem hostAccessWhileIdle : Obligations.HostAccessWhileIdle := by
  intro s es hb
  refine ⟨fun v => step_hostIdle hb (by simp), fun n => step_hostIdle hb (by simp), fun k b hin => ?_,
    fun r => step_hostIdle hb (by simp), fun r hin => ?_, step_of_inbox_nil⟩
  · refine ⟨s.op.set k.val b, step_hostIdle hb (by simp) hin, Vector.getElem_set_self _, fun j hj => ?_⟩
    exact Vector.getElem_set_ne _ _ fun h => hj (Fin.ext h.symm)
  · rw [step_hostIdle hb (by simp) hin]
    cases r <;> rfl

/-- Settles O10: the reset state and a reset pulse, field by field. -/
theorem resetGivesTheResetValues : Obligations.ResetGivesTheResetValues := by
  refine ⟨atReset_reset, fun s es hin => ?_⟩
  exact ⟨_, step_of_inbox hin, atReset_resetPulse _, rfl, rfl, rfl, rfl, rfl, rfl⟩

/-- Settles O36: the fixed rows by definition, the bounds from the well-formedness of every defined field. -/
theorem fieldTable : Obligations.FieldTable := by
  intro p
  refine ⟨rfl, fun least hfill hreject => ?_, rfl, rfl, rfl, rfl, rfl, rfl, fun f hf => ?_, fun f d hd => ?_⟩
  · cases hj : p.joinkeyShort with
    | zeroFillRight => simp [desc, fixedDesc, hj, hfill hj]
    | reject => simp [desc, fixedDesc, hj, hreject hj]
  · refine Option.eq_none_iff_forall_ne_some.mpr fun d hd => ?_
    have := desc_lt hd
    omega
  · obtain ⟨h1, -, h48⟩ := desc_blocks hd
    exact ⟨h1, h48⟩

end Sys2Proof.Machine

/-! ## The tag: its three commands, and what leaves it as it was

A raw tag command is one exchange (log 9): `tagRun` has one lemma per way it is answered. That a command keeps the tag is read
off how its run can end (`Laws/Commands.lean`, `Laws/Aggregate.lean`). -/

namespace Sys2Proof.Machine

/-! ### A raw tag command by its answer -/

/-- A block the tag has, or no block, and no entry in `link`: the well-behaved tag answers (R65). -/
theorem tagRun_behaved {c : TagCmd} {s : State} (hc : tagCmdInRange c = true) (hl : s.link = []) :
    tagRun c s = .next { s with
      tag := tagAfter c s
      trace := ⟨s.seq, c.bytes, some (behavedAnswer c s)⟩ :: s.trace } := by
  simp [tagRun, tagExchange, settle, hc, hl]

/-- A block the tag does not have, and no entry in `link`: the model stops (log 9). -/
theorem tagRun_noSuchBlock {c : TagCmd} {s : State} (hc : tagCmdInRange c = false) (hl : s.link = []) :
    tagRun c s = .fault .noSuchBlock := by
  simp [tagRun, nextBehaved, hc, hl]

/-- The environment's answer is given (R64): the exchange is made for every block. -/
theorem tagRun_answers (c : TagCmd) {s : State} {y : Answer} {fate : WriteFate} {es : List LinkEvent}
    (hl : s.link = ⟨[], .answers y fate⟩ :: es) :
    tagRun c s = .next { s with
      tag := if y.success then tagAfter c s else tagAfterFailure c fate s
      link := es
      trace := ⟨s.seq, c.bytes, some y⟩ :: s.trace } := by
  have hb : nextBehaved s = false := by simp [nextBehaved, hl]
  have he : tagExchange c s = settle c (.answers y fate) { s with link := es } := by simp [tagExchange, hl]
  rw [tagRun, hb, he]
  cases c <;> simp [settle, tagAfter, tagAfterFailure]

/-- Settles O17: each command is one exchange that the well-behaved tag answers; only the write moves the tag. -/
theorem tagExecutesItsCommands : Obligations.TagExecutesItsCommands := by
  intro s n d hl hwf hn
  have hr : tagCmdInRange (.read n) = true := decide_eq_true hn
  have hw : tagCmdInRange (.write n d) = true := decide_eq_true hn
  have hstore : tagAfter (.write n d) s = s.tag.setBlock n d := tagStore_of_le hn s.tag d
  refine ⟨⟨_, tagRun_behaved hr hl, rfl⟩, ⟨_, tagRun_behaved hw hl, rfl, ?_, keptBut_store rfl⟩,
    ⟨_, tagRun_behaved (c := .getUid) rfl hl, rfl⟩⟩
  simp only [hstore]
  exact blockAt_setBlock_same hwf n d

/-! ### A block the tag does not have -/

theorem tagStore_of_gt {n : Nat} (hn : 48 < n) (m : Memory) (d : Block) : tagStore m n d = m :=
  if_neg (Nat.not_le.mpr hn)

/-- The tag stores nothing for a command that names a block it does not have (log 7). -/
theorem tagAfter_of_not_inRange {c : TagCmd} (hc : tagCmdInRange c = false) (s : State) : tagAfter c s = s.tag := by
  cases c with
  | read n => rfl
  | write n d => exact tagStore_of_gt (Nat.not_le.mp (of_decide_eq_false hc)) s.tag d
  | getUid => rfl

theorem tagAfterFailure_of_not_inRange {c : TagCmd} (hc : tagCmdInRange c = false) (fate : WriteFate) (s : State) :
    tagAfterFailure c fate s = s.tag := by
  cases c with
  | read n => rfl
  | write n d => exact tagStore_of_gt (Nat.not_le.mp (of_decide_eq_false hc)) s.tag _
  | getUid => rfl

/-- A command beyond block 48 whose answer is given is one exchange that leaves the tag. -/
theorem tagRun_answers_of_not_inRange {c : TagCmd} (hc : tagCmdInRange c = false) {s : State} {y : Answer}
    {fate : WriteFate} {es : List LinkEvent} (hl : s.link = ⟨[], .answers y fate⟩ :: es) :
    ∃ t, tagRun c s = .next t ∧ t.tag = s.tag ∧ sent t = c.bytes :: sent s :=
  ⟨_, tagRun_answers c hl, by simp [tagAfter_of_not_inRange hc, tagAfterFailure_of_not_inRange hc], rfl⟩

/-- Settles O18: without an answer the range check stops the model, with one the exchange is made and nothing is stored. -/
theorem tagCommandBeyondBlock48 : Obligations.TagCommandBeyondBlock48 := by
  intro s n d hn
  have hr : tagCmdInRange (.read n) = false := decide_eq_false (Nat.not_le.mpr hn)
  have hw : tagCmdInRange (.write n d) = false := decide_eq_false (Nat.not_le.mpr hn)
  exact ⟨fun hl => ⟨tagRun_noSuchBlock hr hl, tagRun_noSuchBlock hw hl⟩,
    fun _ _ _ hl => ⟨tagRun_answers_of_not_inRange hr hl, tagRun_answers_of_not_inRange hw hl⟩⟩

/-! ### What leaves every byte of the tag -/

/-- An exchange, however the environment settles it, leaves every byte outside the block its command writes. -/
theorem settle_bytes (c : TagCmd) (o : LinkOutcome) (s : State) {a : Nat} (ha : ¬writesOf c (a / 4)) :
    (settle c o s).after.tag.byteAt a = s.tag.byteAt a := by
  cases o with
  | behaved => exact tagAfter_bytes c s a ha
  | answers y fate =>
    simp only [settle, after_ok]
    split
    · exact tagAfter_bytes c s a ha
    · exact tagAfterFailure_bytes c fate s a ha
  | resetBefore => rfl
  | resetDuring fate => exact tagAfterFailure_bytes c fate s a ha

theorem tagExchange_bytes (c : TagCmd) (s : State) {a : Nat} (ha : ¬writesOf c (a / 4)) :
    (tagExchange c s).after.tag.byteAt a = s.tag.byteAt a := by
  unfold tagExchange
  split
  · exact settle_bytes c _ s ha
  · exact settle_bytes c _ _ ha

/-- A raw command that writes no block keeps the tag. -/
theorem tagRun_tagKept {c : TagCmd} {s t : State} (hc : ∀ n, ¬writesOf c n) (h : tagRun c s = .next t) : TagKept s t := by
  intro a
  unfold tagRun at h
  split at h
  · cases h
  · obtain rfl : (tagExchange c s).after = t := by simpa using h
    exact tagExchange_bytes c s (hc _)

/-- The end of an operation leaves the tag as the run left it. -/
theorem toOutcome_tag {r : Run Result} {t : State} (h : r.toOutcome = .next t) : t.tag = r.after.tag := by
  cases r <;> cases h <;> rfl

theorem TagKept.toOutcome {r : Run Result} {s t : State} (hr : TagKept s r.after) (h : r.toOutcome = .next t) :
    TagKept s t := by
  intro a
  rw [toOutcome_tag h]
  exact hr a

/-- A run keeps the tag if it does so at each of its three ends. -/
theorem Run.Ends.tagKept {s : State} {r : Run Result}
    (h : r.Ends (fun _ t => TagKept s t) (fun _ _ _ t => TagKept s t) (TagKept s)) : TagKept s r.after := by
  cases r <;> exact h

theorem Ordinary.tagKept {C : Prop} {s : State} {r : Run Result} (h : Ordinary noBlock C s r) : TagKept s r.after :=
  Run.Ends.tagKept (Run.Ends.mono h (fun _ _ ⟨hm, _⟩ => hm.tagKept) (fun _ _ _ _ ⟨hm, _⟩ => hm.tagKept)
    fun _ hc => hc.tagKept)

theorem validate_tagKept (s : State) : TagKept s (validate s).after := by
  refine Run.Ends.tagKept ((validate_ends s).mono ?_ ?_ fun _ hc => hc.tagKept)
  · rintro r t ⟨u, c, hm, rfl, -⟩
    exact hm.tagKept
  · rintro f blk fld t (⟨hm, -⟩ | ⟨u, c, e, -, hm, rfl, -⟩)
    · exact hm.tagKept
    · exact hm.tagKept

theorem readallRun_tagKept (v : Nat) (s : State) : TagKept s (readallRun v s).after := by
  refine Run.Ends.tagKept ((readallRun_ends v s).mono ?_ ?_ fun _ hc => hc.tagKept)
  · rintro r t ⟨bs, u, -, hm, -, rfl, -⟩
    exact hm.tagKept
  · rintro f blk fld t ⟨hm, -⟩
    exact hm.tagKept

/-- Settles O55: by the instruction, each through how its run can end. -/
theorem readingCommandsKeepTheTag : Obligations.ReadingCommandsKeepTheTag := by
  intro i s t hi h
  cases i with
  | rdblk blk => exact (rdblkRun_ends blk s).tagKept.toOutcome h
  | getuid => exact (getuidRun_ends s).tagKept.toOutcome h
  | crcCompute => exact (crcComputeRun_ends s).tagKept.toOutcome h
  | crcEnc => exact (crcEncRun_ends s).tagKept.toOutcome h
  | crcDec => exact (crcDecRun_ends s).tagKept.toOutcome h
  | crcValidate => exact (validate_tagKept s).toOutcome h
  | fldRd sel => exact (fldRdRun_ends sel s).tagKept.toOutcome h
  | fldDec sel => exact (fldDecRun_ends sel s).tagKept.toOutcome h
  | fldEnc sel => exact (fldEncRun_ends sel s).tagKept.toOutcome h
  | cfgReadall sel => exact (readallRun_tagKept sel s).toOutcome h
  | apduRead n => exact tagRun_tagKept (c := .read n) (fun _ => id) h
  | apduGetuid => exact tagRun_tagKept (c := .getUid) (fun _ => id) h
  | wrblk | crcRecompute | cfgMutate | cfgErase | apduWrite => cases hi

end Sys2Proof.Machine

/-! ## The encoding: decoder, encoder and opcode map agree

The encoder is followed through the decoder by the fields a row uses (`withBlk`, `withSel`, `withNone`), the decoder back
through `decodeCmd_ok` and `decodeApdu_ok`. The opcode map is compared with the decoder line by line: a row of another
operation does not select the word. -/

namespace Sys2Proof

/-! ### From the instruction to its code and back -/

theorem fitsBlk_iff {n : Nat} : fitsBlk n = true ↔ n < 65536 := decide_eq_true_iff

theorem fitsSel_iff {f : Nat} : fitsSel f = true ↔ f < 256 := decide_eq_true_iff

theorem withBlk_cmdWord (op : BitVec 8) (mk : Nat → Instr) {n : Nat} (h : fitsBlk n = true) :
    withBlk (cmdWord op 0#8 (BitVec.ofNat 16 n)) mk = .ok (mk n) := by
  refine withBlk_ok.mpr ⟨cmdSel_cmdWord _ _ _, ?_⟩
  rw [cmdBlk_cmdWord, BitVec.toNat_ofNat, Nat.mod_eq_of_lt (fitsBlk_iff.mp h)]

theorem withSel_cmdWord (op : BitVec 8) (mk : Nat → Instr) {f : Nat} (h : fitsSel f = true) :
    withSel (cmdWord op (BitVec.ofNat 8 f) 0#16) mk = .ok (mk f) := by
  refine withSel_ok.mpr ⟨cmdBlk_cmdWord _ _ _, ?_⟩
  rw [cmdSel_cmdWord, BitVec.toNat_ofNat, Nat.mod_eq_of_lt (fitsSel_iff.mp h)]

/-- A read command decodes to its block (R95). -/
theorem decodeApdu_read (p q : Byte) : decodeApdu [0xFF, 0xB0, p, q, 0x04] = .ok (.apduRead (blockNumber p q)) := rfl

/-- A write command decodes to its block and payload (R96). -/
theorem decodeApdu_write (p q : Byte) (d : Block) :
    decodeApdu [0xFF, 0xD6, p, q, 0x04, d.b0, d.b1, d.b2, d.b3] = .ok (.apduWrite (blockNumber p q) d) := rfl

/-- Settles O1: by the instruction, through the fields its row uses. -/
theorem decodeEncodeRoundTrip : Obligations.DecodeEncodeRoundTrip := by
  intro i h
  cases i with
  | rdblk n | wrblk n => simp [encode, decode, decodeCmd, cmdOp_cmdWord, withBlk_cmdWord _ _ h]
  | fldRd f | fldDec f | fldEnc f | cfgReadall f | cfgMutate f =>
    simp [encode, decode, decodeCmd, cmdOp_cmdWord, withSel_cmdWord _ _ h]
  | getuid | crcCompute | crcEnc | crcDec | crcValidate | crcRecompute | cfgErase | apduGetuid => rfl
  | apduRead n => exact (decodeApdu_read _ _).trans (by rw [blockNumber_hiByte_loByte (fitsBlk_iff.mp h)])
  | apduWrite n d => exact (decodeApdu_write _ _ d).trans (by rw [blockNumber_hiByte_loByte (fitsBlk_iff.mp h)])

/-! ### From the code to the instruction and back -/

/-- A word is told by its three fields (R91). -/
theorem cmdWord_eq {w : BitVec 32} {op sel : BitVec 8} {blk : BitVec 16} (hop : cmdOp w = op) (hsel : cmdSel w = sel)
    (hblk : cmdBlk w = blk) : cmdWord op sel blk = w := by
  rw [← hop, ← hsel, ← hblk, cmdWord_fields]

theorem fitsBlk_toNat (b : BitVec 16) : fitsBlk b.toNat = true := fitsBlk_iff.mpr b.isLt

theorem fitsSel_toNat (f : BitVec 8) : fitsSel f.toNat = true := fitsSel_iff.mpr f.isLt

theorem fitsBlk_blockNumber (p q : Byte) : fitsBlk (blockNumber p q) = true := by
  have hp := p.isLt
  have hq := q.isLt
  rw [fitsBlk_iff, blockNumber]
  omega

/-- A word that decodes is the encoding of a well-formed host command (R91, R92). -/
theorem encode_decodeCmd {w : BitVec 32} {i : Instr} (h : decodeCmd w = .ok i) :
    i.wellFormed = true ∧ encode i = .cmd w := by
  have rows := decodeCmd_ok h
  cases i with
  | rdblk n | wrblk n =>
    obtain ⟨hop, hsel, rfl⟩ := by simpa using rows
    exact ⟨fitsBlk_toNat _, congrArg Code.cmd (cmdWord_eq hop hsel (by simp))⟩
  | fldRd f | fldDec f | fldEnc f | cfgReadall f | cfgMutate f =>
    obtain ⟨hop, hblk, rfl⟩ := by simpa using rows
    exact ⟨fitsSel_toNat _, congrArg Code.cmd (cmdWord_eq hop (by simp) hblk)⟩
  | getuid | crcCompute | crcEnc | crcDec | crcValidate | crcRecompute | cfgErase =>
    obtain ⟨hop, hsel, hblk⟩ := by simpa using rows
    exact ⟨rfl, congrArg Code.cmd (cmdWord_eq hop hsel hblk)⟩
  | apduRead | apduWrite | apduGetuid => simp at rows

/-- A byte string that decodes is the encoding of a well-formed tag command (R95 to R98). -/
theorem encode_decodeApdu {bs : List Byte} {i : Instr} (h : decodeApdu bs = .ok i) :
    i.wellFormed = true ∧ encode i = .apdu bs := by
  obtain ⟨p, q, rfl, rfl⟩ | ⟨p, q, d, rfl, rfl⟩ | ⟨rfl, rfl⟩ := decodeApdu_ok h
  · exact ⟨fitsBlk_blockNumber p q, by rw [encode, TagCmd.bytes, hiByte_blockNumber, loByte_blockNumber]⟩
  · exact ⟨fitsBlk_blockNumber p q, by rw [encode, TagCmd.bytes, hiByte_blockNumber, loByte_blockNumber]⟩
  · exact ⟨rfl, rfl⟩

/-- Settles O2: by the encoding space of the code. -/
theorem encodeDecodeRoundTrip : Obligations.EncodeDecodeRoundTrip := by
  intro c i h
  cases c with
  | cmd w => exact encode_decodeCmd h
  | apdu bs => exact encode_decodeApdu h

/-! ### The opcode map -/

/-- The mnemonics of the rows that select a word (R92). -/
def selectedBy (rows : List OpRow) (w : BitVec 32) : List String := (rows.filter (fun r => r.selects w)).map (·.mnemonic)

/-- The mnemonic of what was decoded; none for a rejected code. -/
def decodedMnemonics : Except Reject Instr → List String
  | .ok i => [i.mnemonic]
  | .error _ => []

/-- A row whose mask covers `op` selects words of its own operation only (R92). -/
theorem selects_op {r : OpRow} {w : BitVec 32} (hmask : cmdOp r.mask = 0xFF) (h : r.selects w = true) :
    cmdOp r.bits = cmdOp w := by
  have hbits : w &&& r.mask = r.bits := eq_of_beq h
  have hand : cmdOp (w &&& r.mask) = cmdOp w &&& cmdOp r.mask := BitVec.extractLsb'_and
  rw [← hbits, hand, hmask]
  exact BitVec.and_allOnes

theorem selectedBy_eq_nil {rows : List OpRow} {w : BitVec 32}
    (h : ∀ r ∈ rows, cmdOp r.mask = 0xFF ∧ cmdOp r.bits ≠ cmdOp w) : selectedBy rows w = [] := by
  refine List.map_eq_nil_iff.mpr (List.filter_eq_nil_iff.mpr fun r hr hsel => ?_)
  obtain ⟨hmask, hne⟩ := h r hr
  exact hne (selects_op hmask hsel)

theorem selectedBy_cons (r : OpRow) (rows : List OpRow) (w : BitVec 32) :
    selectedBy (r :: rows) w = if r.selects w then r.mnemonic :: selectedBy rows w else selectedBy rows w := by
  unfold selectedBy
  rw [List.filter_cons]
  split <;> rfl

theorem decodedMnemonics_withBlk (w : BitVec 32) {mk : Nat → Instr} {m : String} (hm : ∀ n, (mk n).mnemonic = m) :
    decodedMnemonics (withBlk w mk) = if decide (cmdSel w = 0) then [m] else [] := by
  unfold withBlk
  split <;> simp_all [decodedMnemonics]

theorem decodedMnemonics_withSel (w : BitVec 32) {mk : Nat → Instr} {m : String} (hm : ∀ f, (mk f).mnemonic = m) :
    decodedMnemonics (withSel w mk) = if decide (cmdBlk w = 0) then [m] else [] := by
  unfold withSel
  split <;> simp_all [decodedMnemonics]

theorem decodedMnemonics_withNone (w : BitVec 32) {i : Instr} {m : String} (hm : i.mnemonic = m) :
    decodedMnemonics (withNone w i) = if decide (cmdSel w = 0) && decide (cmdBlk w = 0) then [m] else [] := by
  unfold withNone
  split
  · simp_all [decodedMnemonics]
  · split <;> simp_all [decodedMnemonics]

section
variable {w : BitVec 32} {r : OpRow} {rows : List OpRow} {op : BitVec 8} {m : String} {below : Except Reject Instr}
  (hrows : ∀ r ∈ rows, cmdOp r.mask = 0xFF ∧ cmdOp r.bits ≠ op) (hbelow : selectedBy rows w = decodedMnemonics below)
include hrows hbelow

/-- One line of the map: its row selects the words of its operation that the line decodes, the rows below have other
operations and agree with the lines below. -/
theorem mapLine {fits : Bool} {here : Except Reject Instr} (hr : r.selects w = (decide (cmdOp w = op) && fits))
    (hhere : decodedMnemonics here = if fits then [r.mnemonic] else []) :
    selectedBy (r :: rows) w = decodedMnemonics (if cmdOp w = op then here else below) := by
  rw [selectedBy_cons, hr]
  by_cases hop : cmdOp w = op
  · rw [if_pos hop, hhere, selectedBy_eq_nil (hop ▸ hrows), decide_eq_true hop, Bool.true_and]
  · rw [if_neg hop, hbelow, decide_eq_false hop, Bool.false_and]
    rfl

theorem mapLine_blk {mk : Nat → Instr} (hm : ∀ n, (mk n).mnemonic = m) :
    selectedBy (⟨m, cmdWord op 0 0, cmdWord 0xFF 0xFF 0⟩ :: rows) w =
      decodedMnemonics (if cmdOp w = op then withBlk w mk else below) :=
  mapLine hrows hbelow (selects_blk m op w) (decodedMnemonics_withBlk w hm)

theorem mapLine_sel {mk : Nat → Instr} (hm : ∀ f, (mk f).mnemonic = m) :
    selectedBy (⟨m, cmdWord op 0 0, cmdWord 0xFF 0 0xFFFF⟩ :: rows) w =
      decodedMnemonics (if cmdOp w = op then withSel w mk else below) :=
  mapLine hrows hbelow (selects_sel m op w) (decodedMnemonics_withSel w hm)

theorem mapLine_none {i : Instr} (hm : i.mnemonic = m) :
    selectedBy (⟨m, cmdWord op 0 0, cmdWord 0xFF 0xFF 0xFFFF⟩ :: rows) w =
      decodedMnemonics (if cmdOp w = op then withNone w i else below) :=
  mapLine hrows hbelow (selects_none m op w) (decodedMnemonics_withNone w hm)

end

/-- The rows that select a word are the row of what it decodes to, or none (R92, R94). -/
theorem selectedBy_opRows (w : BitVec 32) : selectedBy opRows w = decodedMnemonics (decodeCmd w) := by
  rw [opRows_eq]
  unfold decodeCmd
  refine mapLine_blk (by decide) ?_ fun _ => rfl
  refine mapLine_blk (by decide) ?_ fun _ => rfl
  refine mapLine_none (by decide) ?_ rfl
  refine mapLine_none (by decide) ?_ rfl
  refine mapLine_none (by decide) ?_ rfl
  refine mapLine_none (by decide) ?_ rfl
  refine mapLine_none (by decide) ?_ rfl
  refine mapLine_none (by decide) ?_ rfl
  refine mapLine_sel (by decide) ?_ fun _ => rfl
  refine mapLine_sel (by decide) ?_ fun _ => rfl
  refine mapLine_sel (by decide) ?_ fun _ => rfl
  refine mapLine_sel (by decide) ?_ fun _ => rfl
  refine mapLine_sel (by decide) ?_ fun _ => rfl
  exact mapLine_none (by decide) rfl rfl

/-- Settles O3: the map line by line. -/
theorem opcodeMapIsTheDecoder : Obligations.OpcodeMapIsTheDecoder := by
  intro w
  refine (selectedBy_opRows w).trans ?_
  cases decodeCmd w <;> rfl

/-! ### Words and bytes the spec writes out -/

/-- Settles O4: the decoder evaluated on each of them. -/
theorem specWordsDecode : Obligations.SpecWordsDecode := by
  unfold Obligations.SpecWordsDecode
  decide

theorem toNat_hiByte {n : Nat} (h : n < 65536) : (hiByte n).toNat = n / 256 := by
  rw [hiByte, BitVec.toNat_ofNat]
  omega

theorem toNat_loByte (n : Nat) : (loByte n).toNat = n % 256 := BitVec.toNat_ofNat n 8

/-- Settles O5: the two bytes of the block number are `hiByte` and `loByte`. -/
theorem tagCommandBytes : Obligations.TagCommandBytes :=
  fun n _ hn => ⟨hiByte n, loByte n, toNat_hiByte hn, toNat_loByte n, rfl, rfl, rfl⟩

end Sys2Proof

/-! ## An illegal word -/

namespace Sys2Proof.Machine

/-- A word that no row selects is rejected (R94). -/
theorem decodeCmd_error_of_not_selects {w : BitVec 32} (h : ∀ r ∈ opRows, r.selects w = false) :
    ∃ e, decodeCmd w = .error e := by
  have hnone : selectedBy opRows w = [] :=
    List.map_eq_nil_iff.mpr (List.filter_eq_nil_iff.mpr fun r hr => by simp [h r hr])
  rw [selectedBy_opRows] at hnone
  cases hd : decodeCmd w with
  | ok i => simp [hd, decodedMnemonics] at hnone
  | error e => exact ⟨e, rfl⟩

/-- A step that takes an illegal word raises its fault at once (R94). -/
theorem step_illegal {s : State} {es : List Event} {w : BitVec 32} {e : Reject}
    (hin : s.inbox = .host (.write (.cmd w)) :: es) (hb : statusBusy s.status = false) (hd : decodeCmd w = .error e) :
    step s = .next (raiseFault .encodingFault 0xFFFF 0xFF (acceptCmd w { s with inbox := es })) := by
  rw [step_of_inbox hin, fetchEvent_cmd (s := { s with inbox := es }) hb, hd]
  rfl

/-- Settles O7: no row selects the word, so it is rejected; what `raiseFault` and `acceptCmd` leave is as before. -/
theorem illegalWordRaisesEncodingFault : Obligations.IllegalWordRaisesEncodingFault := by
  intro s es w hin hb hrows
  obtain ⟨e, hd⟩ := decodeCmd_error_of_not_selects hrows
  exact ⟨_, step_illegal hin hb hd, faultedEnd_raise (by decide) _ _ _, rfl, rfl, rfl, rfl, ⟨rfl, rfl⟩, ⟨rfl, rfl⟩, rfl,
    rfl, rfl, rfl, rfl, rfl, fun _ => rfl⟩

end Sys2Proof.Machine

/-! ## Block transport: `RDBLK`, `WRBLK`, `GETUID`

Each command is refused, or is one exchange. What that exchange gives is said once for the well-behaved tag
(`Laws/Behaved.lean`) and once for any answer (`Laws/Scripted.lean`); here the commands are read off those. -/

namespace Sys2Proof.Machine

/-! ### Refused commands -/

theorem readBlock_of_gt (q : Seq) {n : Nat} (hn : 48 < n) (fld : BitVec 8) (s : State) :
    readBlock q n fld s = .raised .encodingFault (BitVec.ofNat 16 n) fld s := if_pos hn

theorem writeBlock_of_gt (q : Seq) {n : Nat} (hn : 48 < n) (d : Block) (fld : BitVec 8) (s : State) :
    writeBlock q n d fld s = .raised .encodingFault (BitVec.ofNat 16 n) fld s := if_pos hn

theorem rdblkRun_of_gt {blk : Nat} (hn : 48 < blk) (s : State) :
    rdblkRun blk s = .raised .encodingFault (BitVec.ofNat 16 blk) 0xFF s := by
  rw [rdblkRun, readBlock_of_gt _ hn, andThen_raised]

/-- The block of `OP[0..4]` that `WRBLK` sends (R126). -/
def opBlock (s : State) : Block := ⟨s.op[0], s.op[1], s.op[2], s.op[3]⟩

theorem opBlock_toList (s : State) : (opBlock s).toList = s.op.toList.take 4 := (take4 s.op).symm

/-- With an operand of 8 digits `WRBLK` is a block write of `OP[0..4]` (R126). -/
theorem wrblkRun_eq {s : State} (hop : s.oplen = 8) (blk : Nat) :
    wrblkRun blk s = (writeBlock (.pos .write 0) blk (opBlock s) 0xFF s).andThen fun _ u => .ok {} u :=
  if_neg (not_not_intro hop)

/-- `WRBLK` refuses a wrong length and a block above 48 with the same record (R126; log 24). -/
theorem wrblkRun_refused {blk : Nat} {s : State} (h : 48 < blk ∨ s.oplen ≠ 8) :
    wrblkRun blk s = .raised .encodingFault (BitVec.ofNat 16 blk) 0xFF s := by
  by_cases hop : s.oplen = 8
  · have hn : 48 < blk := h.resolve_right (not_not_intro hop)
    rw [wrblkRun_eq hop, writeBlock_of_gt _ hn, andThen_raised]
  · exact if_pos hop

/-- A command refused before its first exchange changes nothing but its result, status and fault record. -/
theorem completes_refused {i : Instr} {s : State} {r : Run Result} {blk : BitVec 16} {fld : BitVec 8}
    (hi : exec i s = r.toOutcome) (hr : r = .raised .encodingFault blk fld s) :
    Completes i s fun t => FaultedEnd t 2 blk fld 0 ∧ sent t = sent s ∧ OnlyResult s t ∧ TagKept s t := by
  subst hr
  exact ⟨_, hi, faultedEnd_raise (by decide) blk fld s, rfl, (OnlyResult.refl s).raise, fun _ => rfl⟩

/-- Settles O13: both commands are refused before their exchange. -/
theorem blockCommandsRefuseBadOperands : Obligations.BlockCommandsRefuseBadOperands :=
  fun s _ _ => ⟨fun hn => completes_refused rfl (rdblkRun_of_gt hn s),
    fun h => completes_refused rfl (wrblkRun_refused h)⟩

/-! ### `RDBLK` -/

/-- `RDBLK` with a block the read delivered (R124). -/
theorem exec_rdblk_of_ok {blk : Nat} {s u : State} {b : Block} (h : readBlock (.pos .fieldRead 0) blk 0xFF s = .ok b u) :
    exec (.rdblk blk) s = .next (finish { bytes := b.toList } u) := by
  show (rdblkRun blk s).toOutcome = _
  rw [rdblkRun, h, andThen_ok, toOutcome_ok]

/-- `RDBLK` with a fault of the read (R260). -/
theorem exec_rdblk_of_raised {blk : Nat} {s u : State} {f : FaultKind} {b : BitVec 16} {fld : BitVec 8}
    (h : readBlock (.pos .fieldRead 0) blk 0xFF s = .raised f b fld u) :
    exec (.rdblk blk) s = .next (raiseFault f b fld u) := by
  show (rdblkRun blk s).toOutcome = _
  rw [rdblkRun, h, andThen_raised, toOutcome_raised]

/-- A delivered block: its 4 bytes, 8 digits, no value (R124). -/
theorem finish_block (b : Block) (u : State) :
    NormalEnd (finish { bytes := b.toList } u) false false ∧ resBytes (finish { bytes := b.toList } u) = b.toList ∧
      (finish { bytes := b.toList } u).reslen = 8 ∧ (finish { bytes := b.toList } u).resv = 0 :=
  ⟨normalEnd_finish _ u, resBytes_finish _ u (by simp [Block.toList]), rfl, rfl⟩

/-- Settles O11: the well-behaved tag answers with the block. -/
theorem rdblkDeliversTheBlock : Obligations.RdblkDeliversTheBlock := by
  intro s blk hl hn
  obtain ⟨hend, hbytes, hlen, hval⟩ := finish_block (s.tag.blockAt blk) (readState (.pos .fieldRead 0) blk s)
  exact ⟨_, exec_rdblk_of_ok (readBlock_behaved _ hn 0xFF hl), hend, hbytes, hlen, hval, rfl, OnlyResult.refl s,
    fun _ => rfl⟩

/-- The data of an answer with 90 00 is determined by it (R99). -/
theorem resp_status_inj {a b : List Byte}
    (h : Answer.resp (a ++ [0x90#8, 0x00#8]) = .resp (b ++ [0x90#8, 0x00#8])) : a = b :=
  List.append_cancel_right (Answer.resp.inj h)

/-- Settles O12: by how a read with that answer ends, no status, other than 4 bytes, or 4 bytes. -/
theorem rdblkByAnswer : Obligations.RdblkByAnswer := by
  intro s es y fate blk hl hn
  obtain ⟨u, hu, hcase⟩ := readBlock_answers (.pos .fieldRead 0) hn 0xFF hl
  obtain ⟨hframe, htag⟩ : OnlyResult s u ∧ TagKept s u := OnlyReads.onlyResult ⟨_, _, _, _, hu⟩
  have hsent : sent u = TagCmd.bytes (.read blk) :: sent s := by rw [hu]; rfl
  rcases hcase with ⟨hno, hr⟩ | ⟨data, rfl, hdata, hr⟩ | ⟨_, b, rfl, rfl, hr⟩
  · exact ⟨_, exec_rdblk_of_raised hr, fun data h => absurd ⟨data, h⟩ hno, fun data h => absurd ⟨data, h⟩ hno,
      fun _ => faultedEnd_raise (by decide) _ _ u, hsent, hframe.raise, htag⟩
  · exact ⟨_, exec_rdblk_of_raised hr, fun _ h h4 => absurd (resp_status_inj h ▸ h4) hdata,
      fun _ _ _ => faultedEnd_raise (by decide) _ _ u, fun h => absurd ⟨data, rfl⟩ h, hsent, hframe.raise, htag⟩
  · refine ⟨_, exec_rdblk_of_ok hr, fun data h _ => ?_, fun data h h4 => ?_, fun h => absurd ⟨_, rfl⟩ h, hsent,
      hframe.finish, htag⟩
    · rw [← resp_status_inj h]
      exact finish_block b _
    · rw [← resp_status_inj h] at h4
      exact absurd rfl h4

/-! ### `WRBLK` -/

theorem exec_wrblk_of_ok {blk : Nat} {s u : State} (hop : s.oplen = 8)
    (h : writeBlock (.pos .write 0) blk (opBlock s) 0xFF s = .ok () u) :
    exec (.wrblk blk) s = .next (finish {} u) := by
  show (wrblkRun blk s).toOutcome = _
  rw [wrblkRun_eq hop, h, andThen_ok, toOutcome_ok]

theorem exec_wrblk_of_raised {blk : Nat} {s u : State} {f : FaultKind} {b : BitVec 16} {fld : BitVec 8}
    (hop : s.oplen = 8) (h : writeBlock (.pos .write 0) blk (opBlock s) 0xFF s = .raised f b fld u) :
    exec (.wrblk blk) s = .next (raiseFault f b fld u) := by
  show (wrblkRun blk s).toOutcome = _
  rw [wrblkRun_eq hop, h, andThen_raised, toOutcome_raised]

theorem blockAt_tagStore_same {m : Memory} (h : Memory.wf m = true) {n : Nat} (hn : n ≤ 48) (d : Block) :
    (tagStore m n d).blockAt n = d := by
  rw [tagStore_of_le hn, blockAt_setBlock_same h]

/-- A block that holds `OP[0..4]` after the store (R62). -/
theorem toList_blockAt_stored {s u : State} (hwf : Memory.wf s.tag = true) {n : Nat} (hn : n ≤ 48)
    (hu : u.tag = tagStore s.tag n (opBlock s)) : (u.tag.blockAt n).toList = s.op.toList.take 4 := by
  rw [hu, blockAt_tagStore_same hwf hn, opBlock_toList]

/-- Settles O14: the well-behaved tag stores the operand. -/
theorem wrblkWritesTheBlock : Obligations.WrblkWritesTheBlock := by
  intro s blk hl hwf hop hn
  have hw := writeBlock_behaved (.pos .write 0) hn (opBlock s) 0xFF hl
  exact ⟨_, exec_wrblk_of_ok hop hw, normalEnd_finish {} _, rfl, rfl, toList_blockAt_stored hwf hn rfl,
    keptBut_store rfl, rfl, OnlyResult.refl s⟩

/-- With `TORN_WRITE = old_or_new` a write that did not succeed leaves the old block or the payload (R77). -/
theorem fateBlock_oldOrNew {p : Params} (hp : p.tornWrite = .oldOrNew) (fate : WriteFate) (old payload : Block) :
    fateBlock p fate old payload = old ∨ fateBlock p fate old payload = payload := by
  cases fate with
  | old => exact .inl rfl
  | new => exact .inr rfl
  | torn b => exact .inl (by simp [fateBlock, hp])

/-- Settles O15: with 90 00 the operand is stored, with another answer what `fate` says. -/
theorem wrblkByAnswer : Obligations.WrblkByAnswer := by
  intro s es y fate blk hl hwf hop hn
  obtain ⟨u, hu, hcase⟩ := writeBlock_answers (.pos .write 0) hn (opBlock s) 0xFF hl
  have hframe : OnlyResult s u := hu ▸ OnlyResult.refl s
  rcases hcase with ⟨hno, hw⟩ | ⟨hyes, hw⟩
  · have htag : u.tag = tagStore s.tag blk (fateBlock s.params fate (s.tag.blockAt blk) (opBlock s)) := by
      rw [answered_iff] at hno
      rw [hu]
      exact if_neg hno
    refine ⟨_, exec_wrblk_of_raised hop hw, fun h => absurd h hno,
      fun _ => ⟨faultedEnd_raise (by decide) _ _ u, fun hp => ?_⟩, keptBut_store htag, hframe.raise⟩
    rw [raiseFault_tag, htag, blockAt_tagStore_same hwf hn, ← opBlock_toList]
    exact (fateBlock_oldOrNew hp fate _ _).imp_right (congrArg Block.toList)
  · have htag : u.tag = tagStore s.tag blk (opBlock s) := by
      rw [answered_iff] at hyes
      rw [hu]
      exact if_pos hyes
    exact ⟨_, exec_wrblk_of_ok hop hw, fun _ => ⟨normalEnd_finish {} u, rfl, rfl, toList_blockAt_stored hwf hn htag⟩,
      fun h => absurd hyes h, keptBut_store htag, hframe.finish⟩

/-! ### `GETUID` -/

/-- The lengths `GETUID` delivers (R128). -/
theorem uidLengthOk_iff {p : Params} {len : Nat} :
    uidLengthOk p len = true ↔ len ≤ 192 ∧ ∀ n, p.uidLen = some n → len = n := by
  cases h : p.uidLen <;> simp [uidLengthOk, h]

/-- A get-UID made next, with no host access beside it, is answered with `y`: as the environment says (R64), or by the
well-behaved tag (R65). -/
def UidAnswer (s : State) (y : Answer) : Prop :=
  s.link = [] ∧ y = .resp (s.uid ++ [0x90#8, 0x00#8]) ∨ ∃ fate es, s.link = ⟨[], .answers y fate⟩ :: es

theorem OnlyReads.params {s u : State} (h : OnlyReads s u) : u.params = s.params := by
  obtain ⟨q, b, e, l, rfl⟩ := h
  rfl

/-- One get-UID exchange with a known answer: only the record moves. -/
theorem transmit_getUid (q : Seq) {s : State} {y : Answer} (h : UidAnswer s y) :
    ∃ u, transmit q .getUid s = .ok y u ∧ OnlyReads s u ∧ sent u = TagCmd.bytes .getUid :: sent s := by
  obtain ⟨hl, rfl⟩ | ⟨fate, es, hl⟩ := h
  · exact ⟨_, transmit_behaved q .getUid hl, ⟨q, _, _, _, rfl⟩, rfl⟩
  · have htag : (if y.success then tagAfter .getUid s else tagAfterFailure .getUid fate s) = s.tag := ite_self _
    refine ⟨_, transmit_answers q .getUid hl, ?_, rfl⟩
    rw [htag]
    exact ⟨q, _, _, _, rfl⟩

theorem exec_getuid_of_answered {s u : State} {data : List Byte}
    (h : transmit (.pos .fieldRead 0) .getUid s = .ok (.resp (data ++ [0x90#8, 0x00#8])) u) :
    exec .getuid s = if uidLengthOk u.params data.length then .next (finish { bytes := data } u)
      else .next (raiseFault .decodeFault 0xFFFF 0xFF u) := by
  show (getuidRun s).toOutcome = _
  rw [getuidRun, getUid, h, andThen_ok, checkStatus_good, andThen_ok, apply_ite Run.toOutcome, toOutcome_ok,
    toOutcome_raised]

theorem exec_getuid_of_not_answered {s u : State} {y : Answer} (hno : ¬Answered y)
    (h : transmit (.pos .fieldRead 0) .getUid s = .ok y u) :
    exec .getuid s = .next (raiseFault .transportFault 0xFFFF 0xFF u) := by
  show (getuidRun s).toOutcome = _
  rw [getuidRun, getUid, h, andThen_ok, checkStatus_bad hno, andThen_raised, toOutcome_raised]

/-- Settles O16: no status, or data of a length that is delivered, or of another length. -/
theorem getuidByAnswer : Obligations.GetuidByAnswer := by
  intro s y hy
  obtain ⟨u, htr, hreads, hsent⟩ := transmit_getUid (.pos .fieldRead 0) hy
  obtain ⟨hframe, htag⟩ := hreads.onlyResult
  by_cases hans : Answered y
  · obtain ⟨data, rfl⟩ := hans
    have hexec := exec_getuid_of_answered htr
    rw [hreads.params] at hexec
    by_cases hlen : uidLengthOk s.params data.length = true
    · rw [if_pos hlen] at hexec
      obtain ⟨h192, huid⟩ := uidLengthOk_iff.mp hlen
      refine ⟨_, hexec, fun d h _ => ?_, fun d h hbad => ?_, fun h => absurd ⟨data, rfl⟩ h, hsent, hframe.finish, htag⟩
      · obtain rfl := resp_status_inj h
        exact ⟨normalEnd_finish _ u, resBytes_finish _ u h192, reslen_finish _ u h192, rfl⟩
      · obtain rfl := resp_status_inj h
        obtain hbig | ⟨n, hn, hne⟩ := hbad
        · exact absurd h192 (Nat.not_le.mpr hbig)
        · exact absurd (huid n hn) hne
    · rw [if_neg hlen] at hexec
      refine ⟨_, hexec, fun d h hok => ?_, fun _ _ _ => faultedEnd_raise (by decide) _ _ u,
        fun h => absurd ⟨data, rfl⟩ h, hsent, hframe.raise, htag⟩
      obtain rfl := resp_status_inj h
      exact absurd (uidLengthOk_iff.mpr hok) hlen
  · exact ⟨_, exec_getuid_of_not_answered hans htr, fun d h => absurd ⟨d, h⟩ hans, fun d h => absurd ⟨d, h⟩ hans,
      fun _ => faultedEnd_raise (by decide) _ _ u, hsent, hframe.raise, htag⟩

end Sys2Proof.Machine

/-! ## The CRC engine

The checksum tells every change of one byte because each of its byte steps is injective. The commands that run by themselves
are read off their definitions, those that read the tag off `Laws/Crc.lean` for the well-behaved tag, and off the first read
that fails for any other. -/

namespace Sys2Proof.Machine

/-! ### The checksum and its storage encoding -/

/-- Settles O19: the checksum evaluated at each of them. -/
theorem crcCheckValues : Obligations.CrcCheckValues := by
  unfold Obligations.CrcCheckValues
  decide +kernel

/-- The polynomial is odd, so a shift leaves the bit it shifted out in bit 0 (R142). -/
theorem crcShift_getLsbD_zero (c : BitVec 16) : (crcShift c).getLsbD 0 = c.msb := by
  cases h : c.msb <;> simp [crcShift, h, Config.crcPoly]

theorem crcShift_injective : Function.Injective crcShift := by
  intro c d h
  have hmsb : c.msb = d.msb := by rw [← crcShift_getLsbD_zero c, h, crcShift_getLsbD_zero]
  have hshl : c <<< 1 = d <<< 1 := by
    unfold crcShift at h
    rw [hmsb] at h
    split at h
    · exact (BitVec.xor_left_inj _).mp h
    · exact h
  simp only [BitVec.msb_eq_decide, decide_eq_decide] at hmsb
  bv_omega

theorem crcByte_eq_iterate (c : BitVec 16) (b : Byte) : crcByte c b = crcShift^[8] (c ^^^ (b.setWidth 16 <<< 8)) := rfl

/-- Two register values stay apart under the same byte. -/
theorem crcByte_injective_left (b : Byte) : Function.Injective (crcByte · b) := by
  intro c d h
  simp only [crcByte_eq_iterate] at h
  exact (BitVec.xor_left_inj _).mp (crcShift_injective.iterate 8 h)

/-- Two bytes take one register value to two. -/
theorem crcByte_injective_right (c : BitVec 16) : Function.Injective (crcByte c) := by
  intro a b h
  simp only [crcByte_eq_iterate] at h
  have hshl : a.setWidth 16 <<< 8 = b.setWidth 16 <<< 8 := (BitVec.xor_right_inj _).mp (crcShift_injective.iterate 8 h)
  bv_omega

/-- Two register values stay apart under the same string. -/
theorem crcFrom_injective (bs : List Byte) : Function.Injective (crcFrom · bs) := by
  induction bs with
  | nil => exact Function.injective_id
  | cons b bs ih =>
    intro c d h
    simp only [crcFrom, computed_eq] at h
    exact crcByte_injective_left b (ih h)

theorem crc16_append_cons (before after : List Byte) (b : Byte) :
    crc16 (before ++ b :: after) = crcFrom (crcByte (crc16 before) b) after := by
  simp only [crc16, crcFrom_eq_foldl, List.foldl_append, List.foldl_cons]

/-- Settles O20: the byte that differs separates the register values, and the bytes after it keep them apart. -/
theorem crcDetectsEveryByteChange : Obligations.CrcDetectsEveryByteChange := by
  intro before after a b hab h
  rw [crc16_append_cons, crc16_append_cons] at h
  exact hab (crcByte_injective_right _ (crcFrom_injective after h))

@[simp] theorem decStore_encStore (c : BitVec 16) : decStore (encStore c) = c := BitVec.extractLsb'_append_extractLsb'

theorem encStore_decStore (b : Block) : encStore (decStore b) = ⟨b.b0, b.b1, 0, 0⟩ := by
  simp only [encStore, decStore, BitVec.extractLsb'_append_eq_right, BitVec.extractLsb'_append_eq_left]

/-- Settles O21: decoding reads back both bytes, and bytes 2 and 3 come back as 0. -/
theorem storedCrcRoundTrip : Obligations.StoredCrcRoundTrip := by
  refine ⟨decStore_encStore, fun b => ?_⟩
  rw [encStore_decStore]
  obtain ⟨b0, b1, b2, b3⟩ := b
  simp only [Block.mk.injEq, true_and]
  rw [eq_comm (b := b2), eq_comm (b := b3)]

/-! ### `CRC.COMPUTE`, `CRC.ENC`, `CRC.DEC` -/

/-- A CRC in `RESV` is its number. -/
theorem toNat_crc_resv (c : BitVec 16) : (c.setWidth 64).toNat = c.toNat := BitVec.toNat_setWidth_of_le (by omega)

/-- Settles O22: by the length of the operand; a good one moves `CRCREG` alone. -/
theorem crcComputeResult : Obligations.CrcComputeResult := by
  intro s
  by_cases h : s.oplen = 384
  · have hm := Moves.crcreg_set noBlock (crc16 s.op.toList) s
    exact ⟨_, congrArg Run.toOutcome (if_neg (not_not_intro h)),
      fun _ => ⟨normalEnd_finish _ _, rfl, toNat_crc_resv _, rfl⟩, fun hne => absurd h hne, rfl, hm.operands, hm.outside,
      hm.snapshot, hm.pair, hm.tagKept⟩
  · obtain ⟨t, ht, hend, hsent, ⟨hops, hout, hsnap, hpair, hcrc⟩, htag⟩ :=
      completes_refused (i := .crcCompute) rfl (if_pos h)
    exact ⟨t, ht, fun he => absurd he h, fun _ => ⟨hend, hcrc⟩, hsent, hops, hout, hsnap, hpair, htag⟩

/-- A signed operand that is a `u16` is the same number unsigned (R23). -/
theorem toNat_le_of_toInt {v : BitVec 64} (h0 : 0 ≤ v.toInt) (h1 : v.toInt ≤ 0xFFFF) : v.toNat ≤ 0xFFFF := by
  have := v.isLt
  rw [BitVec.toInt_eq_toNat_cond] at h0 h1
  split at h1 <;> omega

/-- The encoding of a `u16` operand, byte by byte (R143). -/
theorem encStore_toNat {v : BitVec 64} (h : v.toNat ≤ 0xFFFF) :
    (encStore (v.setWidth 16)).toList.map (·.toNat) = [v.toNat % 256, v.toNat / 256, 0, 0] := by
  have hlow : v.toNat % 65536 = v.toNat := Nat.mod_eq_of_lt (by omega)
  have hhigh : v.toNat / 256 % 256 = v.toNat / 256 := Nat.mod_eq_of_lt (by omega)
  simp [encStore, Block.toList, Nat.shiftRight_eq_div_pow, hlow, hhigh]

/-- Settles O23: by the range of the operand. -/
theorem crcEncResult : Obligations.CrcEncResult := by
  intro s
  by_cases h : s.opv.toInt < 0 ∨ s.opv.toInt > 0xFFFF
  · obtain ⟨t, ht, hend, hkept⟩ := completes_refused (i := .crcEnc) rfl (if_pos h)
    exact ⟨t, ht, fun hin => absurd h (by omega), fun _ => hend, hkept⟩
  · refine ⟨_, congrArg Run.toOutcome (if_neg h), fun hin => ⟨normalEnd_finish _ s, rfl, rfl, ?_⟩, fun hout => absurd hout h,
      rfl, (OnlyResult.refl s).finish, fun _ => rfl⟩
    rw [resBytes_finish _ s (by simp [Block.toList])]
    exact encStore_toNat (toNat_le_of_toInt hin.1 hin.2)

/-- The number of a stored CRC: low byte first (R144). -/
theorem toNat_decStore (b : Block) : (decStore b).toNat = b.b0.toNat + 256 * b.b1.toNat := by
  have := b.b0.isLt
  rw [decStore, BitVec.toNat_append, ← Nat.shiftLeft_add_eq_or_of_lt this, Nat.shiftLeft_eq]
  omega

/-- Settles O24: by the length of the operand. -/
theorem crcDecResult : Obligations.CrcDecResult := by
  intro s
  by_cases h : s.oplen = 8
  · exact ⟨_, congrArg Run.toOutcome (if_neg (not_not_intro h)),
      fun _ => ⟨normalEnd_finish _ s, rfl, (toNat_crc_resv _).trans (toNat_decStore _)⟩, fun hne => absurd h hne, rfl,
      (OnlyResult.refl s).finish, fun _ => rfl⟩
  · obtain ⟨t, ht, hend, hkept⟩ := completes_refused (i := .crcDec) rfl (if_pos h)
    exact ⟨t, ht, fun he => absurd he h, fun _ => hend, hkept⟩

/-! ### `CRC.VALIDATE` and `CRC.RECOMPUTE` with the well-behaved tag -/

theorem sent_of_trace_append {s t : State} {l : List Exchange} (h : t.trace = l ++ s.trace) :
    sent t = l.map (·.cmd) ++ sent s := by
  simp only [sent, h, List.map_append]

/-- Settles O25: after the 49 reads the comparison ends it, one way or the other. -/
theorem validateComparesTheCrcs : Obligations.ValidateComparesTheCrcs := by
  intro s hl
  obtain ⟨q, b, l, hreads, hv⟩ := validate_behaved hl
  rw [crcCompare_eq] at hv
  have hsent : l.map (·.cmd) ++ sent s = readsOf (List.range 49) ++ sent s := by rw [hreads]
  by_cases hc : crc16 (region s.tag) = decStore (s.tag.blockAt 48)
  · rw [if_pos hc] at hv
    exact ⟨_, congrArg Run.toOutcome hv, rfl, rfl, rfl, rfl, rfl, fun _ => normalEnd_finish _ _,
      fun hne => absurd hc.symm hne, (sent_of_trace_append rfl).trans hsent, ⟨rfl, rfl, rfl, rfl⟩, ⟨rfl, rfl, rfl⟩,
      ⟨rfl, rfl⟩, fun _ => rfl⟩
  · rw [if_neg hc] at hv
    exact ⟨_, congrArg Run.toOutcome hv, rfl, rfl, rfl, rfl, rfl, fun he => absurd he.symm hc,
      fun _ => faultedEnd_crcMismatch 48 0xFF _, (sent_of_trace_append rfl).trans hsent, ⟨rfl, rfl, rfl, rfl⟩,
      ⟨rfl, rfl, rfl⟩, ⟨rfl, rfl⟩, fun _ => rfl⟩

/-- A write of block 48 is outside the region. -/
theorem region_setBlock_48 (m : Memory) (d : Block) : region (m.setBlock 48 d) = region m := by
  unfold region tagCat
  refine List.flatMap_congr fun j hj => ?_
  have := List.mem_range.mp hj
  rw [blockAt_setBlock_other m d (by omega)]

/-- A block 48 stamped with the CRC of the region makes the stored CRC current (R71). -/
theorem storedCrcCurrent_stamped {m : Memory} (h : Memory.wf m = true) :
    StoredCrcCurrent (m.setBlock 48 (encStore (crc16 (region m)))) := by
  rw [StoredCrcCurrent, blockAt_setBlock_same h, decStore_encStore, region_setBlock_48]

theorem exec_crcRecompute_behaved {s : State} (h : s.link = []) :
    exec .crcRecompute s = .next (finish { resv := (crc16 (region s.tag)).setWidth 64 } (recomputed s)) := by
  show ((recompute 0xFF s).andThen _).toOutcome = _
  rw [recompute_behaved 0xFF h, andThen_ok, toOutcome_ok]

/-- Settles O27: by what a good recompute changes. -/
theorem recomputeStampsBlock48 : Obligations.RecomputeStampsBlock48 := by
  intro s hl hwf
  obtain ⟨b, l, hr, hsent⟩ := recomputed_eq s
  have hexec := exec_crcRecompute_behaved hl
  rw [hr] at hexec
  refine ⟨_, hexec, normalEnd_finish _ _, rfl, rfl, rfl, blockAt_setBlock_same hwf 48 _,
    keptBut_store (tagStore_of_le (le_refl 48) _ _).symm, storedCrcCurrent_stamped hwf, ?_, ⟨rfl, rfl, rfl, rfl⟩,
    ⟨rfl, rfl, rfl⟩, ⟨rfl, rfl⟩, ⟨rfl, rfl⟩⟩
  rw [sent_of_trace_append (s := s) (l := l) rfl, hsent, List.cons_append]

/-- After a good recompute the stored CRC is current, and the tag still well-behaved. -/
theorem recomputed_current {s : State} (h : s.link = []) (hwf : Memory.wf s.tag = true) :
    (recomputed s).link = [] ∧ StoredCrcCurrent (recomputed s).tag := by
  obtain ⟨b, l, hr, -⟩ := recomputed_eq s
  rw [hr]
  exact ⟨h, storedCrcCurrent_stamped hwf⟩

/-- Settles O28: the recompute leaves the stored CRC current, and an accepted command moves neither tag nor environment. -/
theorem validateSucceedsAfterRecompute : Obligations.ValidateSucceedsAfterRecompute := by
  intro s t u w hl hwf ht hu
  obtain ⟨hlink, hcur⟩ := recomputed_current hl hwf
  cases (exec_crcRecompute_behaved hl).symm.trans ht
  obtain ⟨u', hu', -, hexp, hact, -, -, hend, -⟩ := validateComparesTheCrcs (acceptCmd w (finish _ (recomputed s))) hlink
  cases hu'.symm.trans hu
  exact ⟨hend hcur, hexp.trans (hcur.symm.trans hact.symm)⟩

/-! ### The first read that fails -/

theorem OnlyReads.trans {s t u : State} (h : OnlyReads s t) (k : OnlyReads t u) : OnlyReads s u := by
  obtain ⟨q, b, e, l, rfl⟩ := h
  obtain ⟨q', b', e', l', rfl⟩ := k
  exact ⟨q', b', e', l', rfl⟩

theorem readsOf_append (ns ms : List Nat) : readsOf (ns ++ ms) = readsOf ms ++ readsOf ns := by
  simp only [readsOf, List.map_append, List.reverse_append]

/-- A list of good reads. -/
theorem readBlocks_allGood (ph : Phase) (fld : BitVec 8) {ns : List Nat} (hn : ∀ n ∈ ns, n ≤ 48) (i : Nat) {s : State}
    (h : AllGood ns.length s) :
    ∃ u, readBlocks ph fld ns i s = .ok () u ∧ OnlyReads s u ∧ u.link = s.link.drop ns.length ∧
      sent u = readsOf ns ++ sent s := by
  induction ns generalizing i s with
  | nil => exact ⟨s, rfl, ⟨_, _, _, _, rfl⟩, rfl, rfl⟩
  | cons n ns ih =>
    obtain ⟨u, hu, hreads, hlink, hsent⟩ := ih (fun m hm => hn m (List.mem_cons_of_mem _ hm)) (i + 1)
      (s := { readState (.pos ph i) n s with link := s.link.drop 1 }) (h.tail rfl)
    refine ⟨u, ?_, OnlyReads.trans ⟨_, _, _, _, rfl⟩ hreads, ?_, ?_⟩
    · rw [readBlocks, readBlock_allGood _ (hn n List.mem_cons_self) fld h.head, andThen_ok, hu]
    · rw [hlink, List.drop_drop, List.length_cons, Nat.add_comm]
    · rw [hsent, ← List.singleton_append (l := ns), readsOf_append, List.append_assoc]
      rfl

/-- A part of an operation ended at its read of block `blk`, which failed with answer `y`: the reads `made` were the only
exchanges, and nothing else happened. -/
def StopsAt {α : Type} (blk : Nat) (fld : BitVec 8) (y : Answer) (made : List Nat) (es : List LinkEvent) (s : State)
    (r : Run α) : Prop :=
  ∃ f u, r = .raised f (BitVec.ofNat 16 blk) fld u ∧ (¬Answered y → f = .transportFault) ∧
    (Answered y → f = .decodeFault) ∧ OnlyReads s u ∧ u.link = es ∧ sent u = readsOf made ++ sent s

section
variable {α β : Type} {blk : Nat} {fld : BitVec 8} {y : Answer} {made before : List Nat} {es : List LinkEvent}
  {s t : State} {r : Run α}

/-- What would follow is not done (R260). -/
theorem StopsAt.andThen (h : StopsAt blk fld y made es s r) (k : α → State → Run β) :
    StopsAt blk fld y made es s (r.andThen k) := by
  obtain ⟨f, u, rfl, hrest⟩ := h
  exact ⟨f, u, rfl, hrest⟩

/-- The reads made before count too. -/
theorem StopsAt.after (h : StopsAt blk fld y made es t r) (hreads : OnlyReads s t)
    (hsent : sent t = readsOf before ++ sent s) : StopsAt blk fld y (before ++ made) es s r := by
  obtain ⟨f, u, hr, hno, hyes, hu, hlink, hs⟩ := h
  refine ⟨f, u, hr, hno, hyes, hreads.trans hu, hlink, ?_⟩
  rw [hs, hsent, readsOf_append, List.append_assoc]

/-- The next state: the fault of the read, and all but result, status and fault record as before. -/
theorem StopsAt.next {r : Run Result} (h : StopsAt blk fld y made es s r) :
    ∃ t, r.toOutcome = .next t ∧ (¬Answered y → FaultedEnd t 1 (BitVec.ofNat 16 blk) fld 0) ∧
      (Answered y → FaultedEnd t 3 (BitVec.ofNat 16 blk) fld 0) ∧ sent t = readsOf made ++ sent s ∧ t.link = es ∧
      OnlyResult s t ∧ TagKept s t := by
  obtain ⟨f, u, rfl, hno, hyes, hreads, hlink, hsent⟩ := h
  obtain ⟨hframe, htag⟩ := hreads.onlyResult
  refine ⟨_, rfl, fun hy => ?_, fun hy => ?_, hsent, hlink, hframe.raise, htag⟩
  · obtain rfl := hno hy
    exact faultedEnd_raise (by decide) _ fld u
  · obtain rfl := hyes hy
    exact faultedEnd_raise (by decide) _ fld u

end

/-- The answer is not that of a good read (R123). -/
abbrev FailsRead (y : Answer) : Prop := ∀ data, y = .resp (data ++ [0x90#8, 0x00#8]) → data.length ≠ 4

/-- The next `k` exchanges are good, the one after them is answered with `y`. -/
abbrev FailsAfter (k : Nat) (y : Answer) (fate : WriteFate) (es : List LinkEvent) (s : State) : Prop :=
  s.link = List.replicate k good ++ ⟨[], .answers y fate⟩ :: es

section
variable {y : Answer} {fate : WriteFate} {es : List LinkEvent} {s : State}

theorem FailsAfter.allGood {k : Nat} (h : FailsAfter k y fate es s) : AllGood k s := by
  intro e he
  rw [h, List.take_left' List.length_replicate] at he
  exact List.eq_of_mem_replicate he

/-- One read that fails. -/
theorem readBlock_stopsAt (q : Seq) {n : Nat} (hn : n ≤ 48) (fld : BitVec 8) (hy : FailsRead y)
    (hl : s.link = ⟨[], .answers y fate⟩ :: es) : StopsAt n fld y [n] es s (readBlock q n fld s) := by
  obtain ⟨u, rfl, hcase⟩ := readBlock_answers q hn fld hl
  obtain ⟨hno, hr⟩ | ⟨data, rfl, -, hr⟩ | ⟨_, b, rfl, rfl, -⟩ := hcase
  · exact ⟨_, _, hr, fun _ => rfl, fun h => absurd h hno, ⟨_, _, _, _, rfl⟩, rfl, rfl⟩
  · exact ⟨_, _, hr, fun h => absurd ⟨data, rfl⟩ h, fun _ => rfl, ⟨_, _, _, _, rfl⟩, rfl, rfl⟩
  · exact absurd rfl (hy _ rfl)

/-- The region's reads, one of which fails (R149). -/
theorem readRegion_stopsAt {k : Nat} (hk : k < 48) (fld : BitVec 8) (hy : FailsRead y) (hl : FailsAfter k y fate es s) :
    StopsAt k fld y ((List.range 48).take (k + 1)) es s (readRegion fld s) :=
  StopsAt.andThen (readBlocks_fail .regionRead fld range48 0 k k s (List.getElem?_range hk) hy hl) _

/-- The region read well (R149). -/
theorem readRegion_allGood (fld : BitVec 8) (h : AllGood 48 s) :
    ∃ c u, readRegion fld s = .ok c u ∧ OnlyReads s u ∧ u.link = s.link.drop 48 ∧
      sent u = readsOf (List.range 48) ++ sent s := by
  obtain ⟨u, hu, hrest⟩ := readBlocks_allGood .regionRead fld range48 0 h
  exact ⟨cat u.buf 0 48, u, by rw [readRegion, hu, andThen_ok]; rfl, hrest⟩

/-- `CRC.VALIDATE` with a read that fails: one of the region's, or that of block 48 (R150). -/
theorem validate_stopsAt {k : Nat} (hk : k < 49) (hy : FailsRead y) (hl : FailsAfter k y fate es s) :
    StopsAt k 0xFF y ((List.range 49).take (k + 1)) es s (validate s) := by
  obtain hk48 | rfl : k < 48 ∨ k = 48 := by omega
  · have htake : (List.range 49).take (k + 1) = (List.range 48).take (k + 1) := by
      rw [List.take_range, List.take_range, min_eq_left (by omega), min_eq_left (by omega)]
    rw [htake]
    exact (readRegion_stopsAt hk48 0xFF hy hl).andThen _
  · obtain ⟨c, u, hu, hreads, hlink, hsent⟩ := readRegion_allGood 0xFF hl.allGood
    rw [hl, List.drop_left' List.length_replicate] at hlink
    rw [validate, hu, andThen_ok]
    exact ((readBlock_stopsAt (.pos .crcRead 0) (le_refl 48) 0xFF hy hlink).andThen _).after hreads hsent

/-- `CFG.READALL` with a read that fails: the old snapshot is gone already (R231). -/
theorem readallRun_stopsAt {v k blk : Nat} {bs : List Nat} (hv : view v = some bs) (hk : bs[k]? = some blk)
    (hy : FailsRead y) (hl : FailsAfter k y fate es s) :
    StopsAt blk 0xFF y (bs.take (k + 1)) es (noSnapshot s) (readallRun v s) := by
  rw [readallRun, hv]
  exact StopsAt.andThen (readBlocks_fail .viewRead 0xFF (fun n hn => (view_le hv n hn).trans (by omega)) 0 k blk
    (noSnapshot s) hk hy hl) _

/-- `FLD.RD` with a read that fails (R202). -/
theorem fldRdRun_stopsAt {f k blk : Nat} {d : Descriptor} (hd : desc s.params f = some d)
    (hk : ((List.range d.nblk).map (d.blk0 + ·))[k]? = some blk) (hy : FailsRead y) (hl : FailsAfter k y fate es s) :
    StopsAt blk (fldId f) y (((List.range d.nblk).map (d.blk0 + ·)).take (k + 1)) es s (fldRdRun f s) := by
  obtain ⟨-, -, h48⟩ := desc_blocks hd
  rw [fldRdRun, withDesc_some hd]
  exact StopsAt.andThen (readBlocks_fail .fieldRead (fldId f) (field_blocks h48) 0 k blk s hk hy hl) _

end

/-- The element at index `k` of the numbers below `n` is `k`. -/
theorem getElem?_range_eq_some {n k m : Nat} (h : (List.range n)[k]? = some m) : k < n ∧ k = m := by
  obtain ⟨hk, rfl⟩ := List.getElem?_eq_some_iff.mp h
  exact ⟨List.length_range (n := n) ▸ hk, (List.getElem_range hk).symm⟩

/-- Settles O26: the operation stops in its list of reads; `CFG.READALL` has dropped the snapshot before. -/
theorem readsStopAtTheFirstFailure : Obligations.ReadsStopAtTheFirstFailure := by
  intro s i ns fld k blk y fate es hi hk hy hl
  have stops : (∃ r : Run Result, exec i s = r.toOutcome ∧ StopsAt blk fld y (ns.take (k + 1)) es s r ∧
        ∀ v, i ≠ .cfgReadall v) ∨
      ∃ r : Run Result, exec i s = r.toOutcome ∧ StopsAt blk fld y (ns.take (k + 1)) es (noSnapshot s) r ∧
        ∃ v, i = .cfgReadall v := by
    rcases hi with ⟨rfl, rfl, rfl⟩ | ⟨rfl, rfl, rfl⟩ | ⟨v, rfl, hv, rfl⟩ | ⟨f, d, rfl, hd, rfl, rfl⟩
    · obtain ⟨hlt, rfl⟩ := getElem?_range_eq_some hk
      exact .inl ⟨_, rfl, validate_stopsAt hlt hy hl, nofun⟩
    · obtain ⟨hlt, rfl⟩ := getElem?_range_eq_some hk
      exact .inl ⟨_, rfl, (StopsAt.andThen (readRegion_stopsAt hlt 0xFF hy hl) _).andThen _, nofun⟩
    · exact .inr ⟨_, rfl, readallRun_stopsAt hv hk hy hl, v, rfl⟩
    · exact .inl ⟨_, rfl, fldRdRun_stopsAt hd hk hy hl, nofun⟩
  rcases stops with ⟨r, hexec, hstop, hne⟩ | ⟨r, hexec, hstop, hreadall⟩
  · obtain ⟨t, ht, hno, hyes, hsent, hlink, ⟨hops, hout, hsnap, hpair, hcrc⟩, htag⟩ := hstop.next
    exact ⟨t, hexec.trans ht, hno, hyes, hsent, hlink, hops, hout, hpair, hcrc, htag, fun _ => hsnap,
      fun ⟨v, hv⟩ => absurd hv (hne v)⟩
  · obtain ⟨t, ht, hno, hyes, hsent, hlink, ⟨hops, hout, ⟨-, hsnapv⟩, hpair, hcrc⟩, htag⟩ := hstop.next
    obtain ⟨v, hv⟩ := hreadall
    exact ⟨t, hexec.trans ht, hno, hyes, hsent, hlink, hops, hout, hpair, hcrc, htag, fun hne => absurd hv (hne v),
      fun _ => hsnapv⟩

end Sys2Proof.Machine

/-! ## The codec: decode and encode of every field kind

Data and mask have one of three shapes: whole bytes, one digit of a byte, a group of bits of a byte. What is merged in with a
shape is read back by `Laws/Merge.lean` and `Laws/Digits.lean`; each kind adds how its value becomes bytes. -/

namespace Sys2Proof.Machine

/-! ### The places of a descriptor -/

/-- The kinds whose field is one byte (R176, R179, R187). -/
def Kind.isOneByte : Kind → Bool
  | .bias127 | .s8 | .enumb => true
  | _ => false

/-- The kinds whose field is one digit (R181, R183, R187). -/
def Kind.isDigit : Kind → Bool
  | .nib | .flagnib | .enumn => true
  | _ => false

/-- The kinds whose field is `len` bytes (R161). -/
def Kind.isBytes : Kind → Bool
  | .nib | .flagnib | .enumn | .bitgrp => false
  | _ => true

section
variable {d : Descriptor} (hwf : descWf d = true)
include hwf

theorem descWf_kind_bytes (hk : Kind.isBytes d.kind = true) : 1 ≤ d.len ∧ d.off + d.len ≤ 4 * d.nblk := by
  cases hkd : d.kind <;> simp only [hkd, Kind.isBytes, Bool.false_eq_true] at hk <;>
    simp only [descWf, hkd, bytesFit, Bool.and_eq_true, decide_eq_true_eq] at hwf <;> omega

theorem descWf_kind_oneByte (hk : Kind.isOneByte d.kind = true) : d.len = 1 ∧ d.off + 1 ≤ 4 * d.nblk := by
  cases hkd : d.kind <;> simp only [hkd, Kind.isOneByte, Bool.false_eq_true] at hk <;>
    simp only [descWf, hkd, bytesFit, Bool.and_eq_true, decide_eq_true_eq] at hwf <;> omega

theorem descWf_kind_digit (hk : Kind.isDigit d.kind = true) : d.off / 2 + 1 ≤ 4 * d.nblk := by
  cases hkd : d.kind <;> simp only [hkd, Kind.isDigit, Bool.false_eq_true] at hk <;>
    simp only [descWf, hkd, digitFit, Bool.and_eq_true, decide_eq_true_eq] at hwf <;> omega

theorem descWf_kind_bitgrp (hk : d.kind = .bitgrp) :
    1 ≤ d.len ∧ d.len ≤ 2 ∧ d.bit + d.len ≤ 8 ∧ d.off + 1 ≤ 4 * d.nblk := by
  simp only [descWf, hk, Bool.and_eq_true, decide_eq_true_eq] at hwf
  omega

theorem descWf_kind_utf16be (hk : d.kind = .utf16be) : d.len % 2 = 0 := by
  simp only [descWf, hk, Bool.and_eq_true, decide_eq_true_eq] at hwf
  omega

theorem descWf_kind_ube (hk : d.kind = .ube) : d.len ≤ 8 := by
  simp only [descWf, hk, Bool.and_eq_true, decide_eq_true_eq] at hwf
  omega

theorem descWf_kind_ule16 (hk : d.kind = .ule16) : d.off + 2 ≤ 4 * d.nblk := by
  simp only [descWf, hk, bytesFit, Bool.and_eq_true, decide_eq_true_eq] at hwf
  omega

/-- An accepted operand fits its field (R166; log 13). -/
theorem descWf_kind_takesOp (hk : Kind.takesOp d.kind = true) : d.maxdig ≤ 2 * d.len := by
  cases hkd : d.kind <;> simp only [hkd, Kind.takesOp, Bool.false_eq_true] at hk <;>
    simp only [descWf, hkd, Bool.and_eq_true, decide_eq_true_eq] at hwf <;> omega

end

/-! ### Groups of bits of a byte -/

/-- The mask of a group of bits (R186). -/
def bitMask (d : Descriptor) : Byte := BitVec.ofNat 8 (2 ^ d.len - 1) <<< d.bit

section
variable {d : Descriptor} (h1 : 1 ≤ d.len) (h2 : d.len ≤ 2) (hfit : d.bit + d.len ≤ 8)
include h1 h2 hfit

theorem bitGroup_in_mask {b : Byte} (hb : b.toNat < 2 ^ d.len) : (b <<< d.bit) &&& ~~~(bitMask d) = 0 := by
  obtain hlen | hlen : d.len = 1 ∨ d.len = 2 := by omega
  all_goals
    rw [hlen] at hb
    rw [bitMask, hlen]
  · exact bits1_in_mask b (BitVec.le_def.mpr (Nat.le_of_lt_succ hb)) ⟨d.bit, by omega⟩
  · exact bits2_in_mask b (BitVec.le_def.mpr (Nat.le_of_lt_succ hb)) ⟨d.bit, by omega⟩

/-- The group just merged in. -/
theorem bitGroup_replaced (old : Byte) {b : Byte} (hb : b.toNat < 2 ^ d.len) :
    (mergeByte old (b <<< d.bit) (bitMask d)).toNat / 2 ^ d.bit % 2 ^ d.len = b.toNat := by
  obtain hlen | hlen : d.len = 1 ∨ d.len = 2 := by omega
  all_goals
    rw [hlen] at hb ⊢
    rw [bitMask, hlen]
  · exact bits1_replaced old b (BitVec.le_def.mpr (Nat.le_of_lt_succ hb)) ⟨d.bit, by omega⟩
  · exact bits2_replaced old b (BitVec.le_def.mpr (Nat.le_of_lt_succ hb)) ⟨d.bit, by omega⟩

/-- Merging the group that is there already changes nothing. -/
theorem bitGroup_put_back (old : Byte) :
    mergeByte old (BitVec.ofNat 8 (old.toNat / 2 ^ d.bit % 2 ^ d.len) <<< d.bit) (bitMask d) = old := by
  obtain hlen | hlen : d.len = 1 ∨ d.len = 2 := by omega
  all_goals rw [bitMask, hlen]
  · exact bits1_put_back old ⟨d.bit, by omega⟩
  · exact bits2_put_back old ⟨d.bit, by omega⟩

end

/-- Settles O38: dividing and taking the remainder picks bits `bit` to `bit + len`. -/
theorem bitGroupReadsLeastSignificantFirst : Obligations.BitGroupReadsLeastSignificantFirst := by
  intro p d c hk _
  refine ⟨(c.getD d.off 0).toNat / 2 ^ d.bit % 2 ^ d.len, by simp only [decodeBytes, hk],
    Nat.mod_lt _ (by positivity), fun k hkl => ?_⟩
  rw [Nat.testBit_mod_two_pow, Nat.testBit_div_two_pow, decide_eq_true hkl, Bool.true_and, Nat.add_comm]
  rfl

/-! ### Data inside the mask -/

/-- No bit of data lies outside the mask (R163). -/
def InsideMask (x : List Byte × List Byte) : Prop := ∀ k, x.1.getD k 0 &&& ~~~(x.2.getD k 0) = 0

theorem insideMask_wholeBytes (d : Descriptor) (bs : List Byte) : InsideMask (wholeBytes d bs) := by
  intro k
  simp only [wholeBytes, getD_spread]
  split
  · by_cases hlt : k - d.off < bs.length
    · rw [List.getD_replicate _ hlt]
      exact BitVec.and_zero
    · rw [getD_ge (Nat.le_of_not_lt hlt)]
      exact BitVec.zero_and
  · exact BitVec.zero_and

theorem insideMask_partByte (d : Descriptor) (idx : Nat) {dm : Byte × Byte} (h : dm.1 &&& ~~~dm.2 = 0) :
    InsideMask (partByte d idx dm) := by
  intro k
  simp only [partByte, getD_spread]
  split
  · cases k - idx with
    | zero => exact h
    | succ n => exact BitVec.zero_and
  · exact BitVec.zero_and

theorem insideMask_oneDigit (d : Descriptor) {q : Byte} (hq : q.toNat ≤ 15) : InsideMask (oneDigit d q) := by
  obtain ⟨hhigh, hlow⟩ := digit_in_mask q (BitVec.le_def.mpr hq)
  refine insideMask_partByte d _ ?_
  unfold digitPlace
  split
  · exact hhigh
  · exact hlow

/-! ### The integer operand -/

/-- The low byte of an operand that passed a range check within a byte is in that range. -/
theorem opvByte_le {o : Operand} {hi : Int} (h : inRange o 0 hi = true) (h2 : hi ≤ 255) :
    ((opvByte o).toNat : Int) ≤ hi := by
  obtain ⟨heq, hle⟩ := inRange_toNat h
  rw [opvByte_toNat h h2, ← heq]
  exact hle

theorem opvByte_le_15 {o : Operand} (h : inRange o 0 15 = true) : (opvByte o).toNat ≤ 15 := by
  have := opvByte_le h (by decide)
  omega

theorem opvByte_lt_two_pow {o : Operand} {len : Nat} (hlen : len ≤ 2) (h : inRange o 0 (2 ^ len - 1) = true) :
    (opvByte o).toNat < 2 ^ len := by
  have hpow : (2 : Int) ^ len ≤ 2 ^ 2 := pow_le_pow_right₀ (by decide) hlen
  have := opvByte_le h (by omega)
  zify
  omega

/-! ### The shapes of data and mask -/

/-- The shapes of data and mask (R163): whole bytes, one digit, a group of bits. -/
theorem encodeKind_shape {p : Params} {d : Descriptor} {o : Operand} {x : List Byte × List Byte}
    (h : encodeKind p d o = some x) :
    (∃ bs, x = wholeBytes d bs) ∨ (∃ q : Byte, q.toNat ≤ 15 ∧ x = oneDigit d q) ∨
      d.kind = .bitgrp ∧ inRange o 0 (2 ^ d.len - 1) = true ∧ x = partByte d d.off (opvByte o <<< d.bit, bitMask d) := by
  cases hk : d.kind <;>
    simp only [encodeKind, hk, Option.ite_none_right_eq_some, Option.some.injEq, Bool.and_eq_true, reduceCtorEq] at h
  case nib => exact .inr (.inl ⟨_, opvByte_le_15 h.1, h.2.symm⟩)
  case flagnib =>
    have := opvByte_le h.1 (by decide)
    exact .inr (.inl ⟨_, by omega, h.2.symm⟩)
  case enumn => exact .inr (.inl ⟨_, opvByte_le_15 h.1.1, h.2.symm⟩)
  case bitgrp => exact .inr (.inr ⟨rfl, h.1, h.2.symm⟩)
  all_goals exact .inl ⟨_, h.2.symm⟩

/-- Settles O37: by the shape of data and mask. -/
theorem encodeStaysInsideItsMask : Obligations.EncodeStaysInsideItsMask := by
  intro p d o data mask hwf hop he
  obtain ⟨hdata, hmask⟩ := encodeField_length hwf hop he
  obtain ⟨-, -, hkind⟩ := encodeField_some he
  have inside : InsideMask (data, mask) := by
    obtain ⟨bs, hx⟩ | ⟨q, hq, hx⟩ | ⟨hk, hin, hx⟩ := encodeKind_shape hkind <;> rw [hx]
    · exact insideMask_wholeBytes d bs
    · exact insideMask_oneDigit d hq
    · obtain ⟨h1, h2, hfit, -⟩ := descWf_kind_bitgrp hwf hk
      exact insideMask_partByte d _ (bitGroup_in_mask h1 h2 hfit (opvByte_lt_two_pow h2 hin))
  exact ⟨hdata, hmask, inside⟩

/-! ### What encode accepted decodes to the value given -/

/-- The bytes of a field's blocks once data and mask are merged in (R163). -/
abbrev written (c : List Byte) (x : List Byte × List Byte) : List Byte := mergeBytes c x.1 x.2

section
variable {p : Params} {d : Descriptor} {o : Operand} {c : List Byte} {x : List Byte × List Byte}

/-- `RAW` and `MAC` have one encode rule (R167). -/
theorem encodeKind_octets (hk : d.kind = .raw ∨ d.kind = .mac) : encodeKind p d o =
    if rawOk d o then some (wholeBytes d (zeroFill d.len (digitBytes o.op o.oplen))) else none := by
  obtain hk | hk := hk <;> simp only [encodeKind, hk]

/-- `RAW` and `MAC` have one decode rule (R167). -/
theorem decodeBytes_octets (hk : d.kind = .raw ∨ d.kind = .mac) : decodeBytes p d c = .bytes (fieldBytes d c) := by
  obtain hk | hk := hk <;> simp only [decodeBytes, hk]

/-- A byte of the field just merged in. -/
theorem getD_written_whole {bs : List Byte} (hc : c.length = 4 * d.nblk) (hb : d.off + bs.length ≤ 4 * d.nblk) {k : Nat}
    (hk : k < bs.length) : (written c (wholeBytes d bs)).getD (d.off + k) 0 = bs.getD k 0 := by
  rw [getD_whole hc hb _ (by omega), if_pos ⟨by omega, by omega⟩, Nat.add_sub_cancel_left]

/-- The bytes of an accepted `UBE` operand hold its value (R173; log 12). -/
theorem ubeOk_value (hok : ubeOk d o = true) :
    ((o.opv.toNat % 256 ^ d.len : Nat) : Int) = if d.len = 8 then (o.opv.toNat : Int) else o.opv.toInt := by
  by_cases h8 : d.len = 8
  · rw [if_pos h8, h8]
    exact congrArg _ (Nat.mod_eq_of_lt o.opv.isLt)
  · rw [ubeOk, if_neg h8, pow_mul] at hok
    obtain ⟨heq, hle⟩ := inRange_toNat hok
    have hlt : o.opv.toNat < 256 ^ d.len := by
      zify
      norm_num at hle ⊢
      omega
    rw [if_neg h8, Nat.mod_eq_of_lt hlt, heq]

/-- The low byte of an operand of `S8` is the operand (R180). -/
theorem opvByte_toInt (h : inRange o (-128) 127 = true) : (opvByte o).toInt = o.opv.toInt := by
  simp only [inRange, Bool.and_eq_true, decide_eq_true_eq] at h
  rw [opvByte, BitVec.toInt_setWidth]
  rw [BitVec.toInt_eq_toNat_bmod] at h ⊢
  rw [← Int.bmod_bmod_of_dvd (show (2 ^ 8 : Nat) ∣ 2 ^ 64 by decide)]
  exact Int.bmod_eq_of_le (by omega) (by omega)

variable (hwf : descWf d = true) (hc : c.length = 4 * d.nblk)
include hwf hc

theorem decode_encode_octets (hk : d.kind = .raw ∨ d.kind = .mac) (hop : o.op.length = 192) (hlen : o.oplen ≤ 384)
    (he : encodeKind p d o = some x) :
    ∃ bs, decodeBytes p d (written c x) = .bytes bs ∧ bs.length = d.len ∧
      ∀ q, digit bs q = if q < o.oplen then digit o.op q else 0 := by
  rw [encodeKind_octets hk, Option.ite_none_right_eq_some, Option.some.injEq] at he
  obtain ⟨hok, rfl⟩ := he
  have hbytes := descWf_kind_bytes hwf (by obtain hk | hk := hk <;> rw [hk] <;> rfl)
  have hmax := descWf_kind_takesOp hwf (by obtain hk | hk := hk <;> rw [hk] <;> rfl)
  simp only [rawOk, Bool.and_eq_true, decide_eq_true_eq] at hok
  have hfill : (zeroFill d.len (digitBytes o.op o.oplen)).length = d.len :=
    zeroFill_length (by rw [digitBytes_length (by omega)]; omega)
  refine ⟨_, decodeBytes_octets hk, ?_⟩
  rw [fieldBytes_whole hc hbytes.2 hfill]
  refine ⟨hfill, fun q => ?_⟩
  rw [digit_congr getD_zeroFill, digit_digitBytes (by omega)]

theorem decode_encode_ascii (hk : d.kind = .ascii) (hop : o.op.length = 192) (hlen : o.oplen ≤ 384)
    (he : encodeKind p d o = some x) :
    ∃ bs k, decodeBytes p d (written c x) = .bytes bs ∧
      bs ++ List.replicate k 0 = o.op.take (o.oplen / 2) ∧ bs.getLast? ≠ some 0 := by
  simp only [encodeKind, hk, Option.ite_none_right_eq_some, Option.some.injEq] at he
  obtain ⟨hok, rfl⟩ := he
  have hbytes := descWf_kind_bytes hwf (by rw [hk]; rfl)
  have hmax := descWf_kind_takesOp hwf (by rw [hk]; rfl)
  simp only [asciiOk, Bool.and_eq_true, decide_eq_true_eq] at hok
  have hfill : (zeroFill d.len (o.op.take (o.oplen / 2))).length = d.len :=
    zeroFill_length (by rw [List.length_take]; omega)
  obtain ⟨k, hk1, hk2⟩ := trimTail_spec (o.op.take (o.oplen / 2))
  refine ⟨_, k, ?_, hk1, hk2⟩
  simp only [decodeBytes, hk, fieldBytes_whole hc hbytes.2 hfill, asciiTrim]
  rw [zeroFill, trimTail_zeros]

theorem decode_encode_ube (hk : d.kind = .ube) (he : encodeKind p d o = some x) :
    decodeBytes p d (written c x) = .num (if d.len = 8 then (o.opv.toNat : Int) else o.opv.toInt) false := by
  simp only [encodeKind, hk, Option.ite_none_right_eq_some, Option.some.injEq] at he
  obtain ⟨hok, rfl⟩ := he
  have hbytes := descWf_kind_bytes hwf (by rw [hk]; rfl)
  simp only [decodeBytes, hk, fieldBytes_whole hc hbytes.2 (bigEndianBytes_length _ _), bigEndian_bytes,
    ubeOk_value hok]

theorem decode_encode_ule16 (hk : d.kind = .ule16) (he : encodeKind p d o = some x) :
    decodeBytes p d (written c x) = .num o.opv.toInt false := by
  simp only [encodeKind, hk, Option.ite_none_right_eq_some, Option.some.injEq] at he
  obtain ⟨hok, rfl⟩ := he
  have hfit := descWf_kind_ule16 hwf hk
  obtain ⟨heq, hle⟩ := inRange_toNat hok
  have hlo := getD_written_whole (bs := [loByte o.opv.toNat, hiByte o.opv.toNat]) hc hfit (k := 0) (by simp)
  have hhi := getD_written_whole (bs := [loByte o.opv.toNat, hiByte o.opv.toNat]) hc hfit (k := 1) (by simp)
  rw [Nat.add_zero] at hlo
  have hval : (hiByte o.opv.toNat).toNat * 256 + (loByte o.opv.toNat).toNat = o.opv.toNat :=
    blockNumber_hiByte_loByte (by omega)
  simp only [decodeBytes, hk]
  rw [hlo, hhi, List.getD_cons_succ, List.getD_cons_zero, List.getD_cons_zero, hval, heq]

/-- The kinds of one byte read back the byte that was merged in. -/
theorem byte_written (hk : Kind.isOneByte d.kind = true) (b : Byte) : (written c (wholeBytes d [b])).getD d.off 0 = b :=
  getD_written_whole (bs := [b]) hc (descWf_kind_oneByte hwf hk).2 (k := 0) (by simp)

theorem decode_encode_bias127 (hk : d.kind = .bias127) (he : encodeKind p d o = some x) :
    decodeBytes p d (written c x) = .num o.opv.toInt false := by
  simp only [encodeKind, hk, Option.ite_none_right_eq_some, Option.some.injEq] at he
  obtain ⟨hok, rfl⟩ := he
  simp only [inRange, Bool.and_eq_true, decide_eq_true_eq] at hok
  simp only [decodeBytes, hk, byte_written hwf hc (by rw [hk]; rfl),
    BitVec.toNat_ofInt, Config.tempBias]
  congr 1
  omega

theorem decode_encode_s8 (hk : d.kind = .s8) (he : encodeKind p d o = some x) :
    decodeBytes p d (written c x) = .num o.opv.toInt false := by
  simp only [encodeKind, hk, Option.ite_none_right_eq_some, Option.some.injEq] at he
  obtain ⟨hok, rfl⟩ := he
  simp only [decodeBytes, hk, byte_written hwf hc (by rw [hk]; rfl), opvByte_toInt hok]

theorem decode_encode_enumb (hk : d.kind = .enumb) (he : encodeKind p d o = some x) :
    decodeBytes p d (written c x) = .num o.opv.toInt false := by
  simp only [encodeKind, hk, Option.ite_none_right_eq_some, Option.some.injEq, Bool.and_eq_true] at he
  obtain ⟨⟨hok, hmap⟩, rfl⟩ := he
  simp only [decodeBytes, hk, byte_written hwf hc (by rw [hk]; rfl),
    decodeEnum, hmap, if_true, opvByte_toNat hok (le_refl _)]

theorem digit_written (hk : Kind.isDigit d.kind = true) {q : Byte} (hq : q.toNat ≤ 15) :
    digit (written c (oneDigit d q)) d.off = q :=
  digit_part hc (descWf_kind_digit hwf hk) hq

theorem decode_encode_nib (hk : d.kind = .nib) (he : encodeKind p d o = some x) :
    decodeBytes p d (written c x) = .num o.opv.toInt false := by
  simp only [encodeKind, hk, Option.ite_none_right_eq_some, Option.some.injEq] at he
  obtain ⟨hok, rfl⟩ := he
  simp only [decodeBytes, hk, digit_written hwf hc (by rw [hk]; rfl) (opvByte_le_15 hok),
    opvByte_toNat hok (by decide : (15 : Int) ≤ 255)]

theorem decode_encode_flagnib (hk : d.kind = .flagnib) (he : encodeKind p d o = some x) :
    decodeBytes p d (written c x) = .num o.opv.toInt false := by
  simp only [encodeKind, hk, Option.ite_none_right_eq_some, Option.some.injEq] at he
  obtain ⟨hok, rfl⟩ := he
  have hle := opvByte_le hok (by decide)
  have hval := opvByte_toNat hok (by decide)
  simp only [decodeBytes, hk, digit_written hwf hc (by rw [hk]; rfl) (by omega : (opvByte o).toNat ≤ 15), ← hval]
  obtain h | h : opvByte o = 0 ∨ opvByte o = 1 := by bv_omega
  all_goals
    rw [h]
    rfl

theorem decode_encode_enumn (hk : d.kind = .enumn) (he : encodeKind p d o = some x) :
    decodeBytes p d (written c x) = .num o.opv.toInt false := by
  simp only [encodeKind, hk, Option.ite_none_right_eq_some, Option.some.injEq, Bool.and_eq_true] at he
  obtain ⟨⟨hok, hmap⟩, rfl⟩ := he
  simp only [decodeBytes, hk, digit_written hwf hc (by rw [hk]; rfl) (opvByte_le_15 hok),
    decodeEnum, hmap, if_true, opvByte_toNat hok (by decide : (15 : Int) ≤ 255)]

theorem decode_encode_bitgrp (hk : d.kind = .bitgrp) (he : encodeKind p d o = some x) :
    decodeBytes p d (written c x) = .num o.opv.toInt false := by
  simp only [encodeKind, hk, Option.ite_none_right_eq_some, Option.some.injEq] at he
  obtain ⟨hok, rfl⟩ := he
  obtain ⟨h1, h2, hfit, hoff⟩ := descWf_kind_bitgrp hwf hk
  have hlt := opvByte_lt_two_pow h2 hok
  have hpow : (2 : Int) ^ d.len ≤ 2 ^ 2 := pow_le_pow_right₀ (by decide) h2
  simp only [decodeBytes, hk, getD_part hc hoff _ (Nat.lt_of_succ_le hoff), if_true]
  rw [← bitMask, bitGroup_replaced h1 h2 hfit _ hlt, opvByte_toNat hok (by omega)]

theorem decode_encode_int (hint : Kind.takesOp d.kind = false) (hube : d.kind ≠ .ube)
    (he : encodeKind p d o = some x) : decodeBytes p d (written c x) = .num o.opv.toInt false := by
  cases hk : d.kind with
  | raw | mac | ascii => simp [hk, Kind.takesOp] at hint
  | ube => exact absurd hk hube
  | utf16be => simp [encodeKind, hk] at he
  | ule16 => exact decode_encode_ule16 hwf hc hk he
  | bias127 => exact decode_encode_bias127 hwf hc hk he
  | s8 => exact decode_encode_s8 hwf hc hk he
  | nib => exact decode_encode_nib hwf hc hk he
  | flagnib => exact decode_encode_flagnib hwf hc hk he
  | bitgrp => exact decode_encode_bitgrp hwf hc hk he
  | enumb => exact decode_encode_enumb hwf hc hk he
  | enumn => exact decode_encode_enumn hwf hc hk he

end

/-- Settles O40: by the kind. -/
theorem fieldEncodeThenDecode : Obligations.FieldEncodeThenDecode := by
  intro p d o c data mask hwf hc hop he
  obtain ⟨-, h384, hkind⟩ := encodeField_some he
  refine ⟨fun hint => ?_, fun hk => ?_, fun hk => ?_⟩
  · by_cases hube : d.kind = .ube
    · simp only [hube, true_and]
      exact decode_encode_ube hwf hc hube hkind
    · rw [if_neg fun h => hube h.1]
      exact decode_encode_int hwf hc hint hube hkind
  · have hlen := h384 (by obtain hk | hk := hk <;> rw [hk] <;> rfl)
    obtain ⟨bs, hdec, hbs, hdig⟩ := decode_encode_octets hwf hc hk hop hlen hkind
    exact ⟨bs, hdec, hbs, fun q _ => hdig q⟩
  · exact decode_encode_ascii hwf hc hk hop (h384 (by rw [hk]; rfl)) hkind

/-! ### Encoding what decode gave reproduces the bytes -/

/-- The kind's rule accepts the operand, and what it gives is in the field already (R164). -/
def PutsBack (p : Params) (d : Descriptor) (o : Operand) (c : List Byte) : Prop :=
  ∃ x, encodeKind p d o = some x ∧ written c x = c

theorem encodeField_eq_encodeKind {p : Params} {d : Descriptor} {o : Operand} (hw : d.writable = true)
    (hlen : Kind.takesOp d.kind = true → o.oplen ≤ 384) : encodeField p d o = encodeKind p d o := by
  have hfits : (Kind.takesOp d.kind && decide (384 < o.oplen)) = false := by
    cases hk : Kind.takesOp d.kind with
    | false => rfl
    | true => exact decide_eq_false (Nat.not_lt.mpr (hlen hk))
  simp only [encodeField, hw, hfits, Bool.not_true, Bool.false_eq_true, if_false]

theorem PutsBack.encodeField {p : Params} {d : Descriptor} {o : Operand} {c : List Byte} (h : PutsBack p d o c)
    (hw : d.writable = true) (hlen : Kind.takesOp d.kind = true → o.oplen ≤ 384) :
    ∃ data mask, encodeField p d o = some (data, mask) ∧ mergeBytes c data mask = c := by
  obtain ⟨⟨data, mask⟩, hx, hc⟩ := h
  exact ⟨data, mask, (encodeField_eq_encodeKind hw hlen).trans hx, hc⟩

/-- An operand that holds a decoded integer below 2^64. -/
theorem toNat_of_ofInt {v : BitVec 64} {n : Nat} (h : v = BitVec.ofInt 64 (n : Int)) (hn : n < 2 ^ 64) :
    v.toNat = n := by
  rw [h, BitVec.ofInt_natCast, BitVec.toNat_ofNat, Nat.mod_eq_of_lt hn]

theorem zeroFill_full (bs : List Byte) : zeroFill bs.length bs = bs := by
  simp [zeroFill]

/-- Filling restores the zeros a trim took (R168, R169). -/
theorem zeroFill_asciiTrim (f : List Byte) : zeroFill f.length (asciiTrim f) = f := by
  obtain ⟨k, hk, -⟩ := trimTail_spec f
  have hlen := congrArg List.length hk
  rw [List.length_append, List.length_replicate] at hlen
  rw [zeroFill, asciiTrim, show f.length - (trimTail (fun b => b == 0#8) f).length = k by omega]
  exact hk

section
variable {p : Params} {d : Descriptor} {o : Operand} {c : List Byte} {v : Int}
variable (hwf : descWf d = true) (hc : c.length = 4 * d.nblk)
include hwf hc

/-- A field of whole bytes gets its own bytes. -/
theorem putsBack_bytes (hk : Kind.isBytes d.kind = true) (h : encodeKind p d o = some (wholeBytes d (fieldBytes d c))) :
    PutsBack p d o c := by
  have hfit := (descWf_kind_bytes hwf hk).2
  have hlen := fieldBytes_len hc hfit
  exact ⟨_, h, whole_self hc (by omega) fun k hk => getD_fieldBytes (by omega)⟩

theorem putsBack_oneByte (hk : Kind.isOneByte d.kind = true)
    (h : encodeKind p d o = some (wholeBytes d [c.getD d.off 0])) : PutsBack p d o c := by
  refine ⟨_, h, whole_self hc (descWf_kind_oneByte hwf hk).2 fun k hk => ?_⟩
  obtain rfl : k = 0 := Nat.lt_one_iff.mp hk
  rfl

theorem putsBack_digit (hk : Kind.isDigit d.kind = true)
    (h : encodeKind p d o = some (oneDigit d (digit c d.off))) : PutsBack p d o c :=
  ⟨_, h, dig_self hc (descWf_kind_digit hwf hk)⟩

theorem encode_decode_ube (hk : d.kind = .ube) (hv : decodeBytes p d c = .num v false)
    (ho : o.opv = BitVec.ofInt 64 v) : PutsBack p d o c := by
  simp only [decodeBytes, hk, DecVal.num.injEq, and_true] at hv
  subst hv
  have hfit := (descWf_kind_bytes hwf (by rw [hk]; rfl)).2
  have hlen := fieldBytes_len hc hfit
  have hlt := bigEndian_lt (fieldBytes d c)
  have h8 := descWf_kind_ube hwf hk
  have hpow : 256 ^ d.len ≤ 256 ^ 8 := Nat.pow_le_pow_right (by decide) h8
  rw [hlen] at hlt
  have hval := toNat_of_ofInt ho (by omega)
  have hok : ubeOk d o = true := by
    unfold ubeOk
    split
    · rfl
    · have hpow7 : 256 ^ d.len ≤ 256 ^ 7 := Nat.pow_le_pow_right (by decide) (by omega)
      rw [pow_mul]
      zify at hlt hpow7
      exact inRange_ofInt ho (by omega) (by norm_num at hlt ⊢; omega) (by norm_num at hpow7 ⊢; omega)
  refine putsBack_bytes hwf hc (by rw [hk]; rfl) ?_
  have hbytes := bigEndianBytes_bigEndian (fieldBytes d c)
  rw [hlen] at hbytes
  simp only [encodeKind, hk, hok, if_true, hval, hbytes]

theorem encode_decode_ule16 (hk : d.kind = .ule16) (hv : decodeBytes p d c = .num v false)
    (ho : o.opv = BitVec.ofInt 64 v) : PutsBack p d o c := by
  simp only [decodeBytes, hk, DecVal.num.injEq, and_true] at hv
  subst hv
  have hfit := descWf_kind_ule16 hwf hk
  have hlo := (c.getD d.off 0).isLt
  have hhi := (c.getD (d.off + 1) 0).isLt
  have hok : inRange o 0 0xFFFF = true := inRange_ofInt ho (by omega) (by omega) (by decide)
  have hval : o.opv.toNat = blockNumber (c.getD (d.off + 1) 0) (c.getD d.off 0) :=
    toNat_of_ofInt ho (by omega : (c.getD (d.off + 1) 0).toNat * 256 + (c.getD d.off 0).toNat < 2 ^ 64)
  refine ⟨wholeBytes d [c.getD d.off 0, c.getD (d.off + 1) 0], ?_, whole_self hc hfit fun k hk => ?_⟩
  · simp only [encodeKind, hk, hok, if_true, hval, loByte_blockNumber, hiByte_blockNumber]
  · obtain rfl | rfl : k = 0 ∨ k = 1 := by simp only [List.length_cons, List.length_nil] at hk; omega
    · rfl
    · rfl

theorem encode_decode_bias127 (hk : d.kind = .bias127) (hv : decodeBytes p d c = .num v false)
    (ho : o.opv = BitVec.ofInt 64 v) : PutsBack p d o c := by
  simp only [decodeBytes, hk, DecVal.num.injEq, and_true, Config.tempBias] at hv
  have hb := (c.getD d.off 0).isLt
  have hval : o.opv.toInt = v := by rw [ho, ofInt_toInt (by omega) (by omega)]
  have hbyte : BitVec.ofInt 8 (o.opv.toInt + Config.tempBias) = c.getD d.off 0 := by
    rw [hval, ← hv, Config.tempBias, Int.sub_add_cancel, BitVec.ofInt_natCast, BitVec.ofNat_toNat, BitVec.setWidth_eq]
  have hok : inRange o (-127) 128 = true := by
    rw [inRange, hval, Bool.and_eq_true, decide_eq_true_eq, decide_eq_true_eq]
    omega
  exact putsBack_oneByte hwf hc (by rw [hk]; rfl) (by simp only [encodeKind, hk, hok, if_true, hbyte])

theorem encode_decode_s8 (hk : d.kind = .s8) (hv : decodeBytes p d c = .num v false)
    (ho : o.opv = BitVec.ofInt 64 v) : PutsBack p d o c := by
  simp only [decodeBytes, hk, DecVal.num.injEq, and_true] at hv
  have hlo := BitVec.le_toInt (c.getD d.off 0)
  have hhi := BitVec.toInt_lt (x := c.getD d.off 0)
  have hval : o.opv.toInt = v := by rw [ho, ofInt_toInt (by omega) (by omega)]
  have hok : inRange o (-128) 127 = true := by
    rw [inRange, hval, Bool.and_eq_true, decide_eq_true_eq, decide_eq_true_eq]
    omega
  have hbyte : opvByte o = c.getD d.off 0 := BitVec.eq_of_toInt_eq (by rw [opvByte_toInt hok, hval, hv])
  exact putsBack_oneByte hwf hc (by rw [hk]; rfl) (by simp only [encodeKind, hk, hok, if_true, hbyte])

theorem encode_decode_enumb (hk : d.kind = .enumb) (hv : decodeBytes p d c = .num v false)
    (ho : o.opv = BitVec.ofInt 64 v) : PutsBack p d o c := by
  simp only [decodeBytes, hk] at hv
  obtain ⟨hmap, rfl⟩ := dec_num_mapped hv
  have hb := (c.getD d.off 0).isLt
  have hok : inRange o 0 255 = true := inRange_ofInt ho (by omega) (by omega) (by decide)
  exact putsBack_oneByte hwf hc (by rw [hk]; rfl)
    (by simp only [encodeKind, hk, hok, opvByte_ofInt ho, hmap, Bool.and_self, if_true])

theorem encode_decode_nib (hk : d.kind = .nib) (hv : decodeBytes p d c = .num v false)
    (ho : o.opv = BitVec.ofInt 64 v) : PutsBack p d o c := by
  simp only [decodeBytes, hk, DecVal.num.injEq, and_true] at hv
  subst hv
  have hq := digit_le c d.off
  have hok : inRange o 0 15 = true := inRange_ofInt ho (by omega) (by omega) (by decide)
  exact putsBack_digit hwf hc (by rw [hk]; rfl) (by simp only [encodeKind, hk, hok, opvByte_ofInt ho, if_true])

theorem encode_decode_flagnib (hk : d.kind = .flagnib) (hv : decodeBytes p d c = .num v false)
    (hflag : (digit c d.off).toNat ≤ 1) (ho : o.opv = BitVec.ofInt 64 v) : PutsBack p d o c := by
  simp only [decodeBytes, hk, DecVal.num.injEq, and_true] at hv
  have hdigit : (if digit c d.off = 1#8 then 1 else 0 : Int) = (digit c d.off).toNat := by
    obtain h | h : digit c d.off = 0 ∨ digit c d.off = 1 := by bv_omega
    all_goals
      rw [h]
      rfl
  rw [hdigit] at hv
  subst hv
  have hok : inRange o 0 1 = true := inRange_ofInt ho (by omega) (by omega) (by decide)
  exact putsBack_digit hwf hc (by rw [hk]; rfl) (by simp only [encodeKind, hk, hok, opvByte_ofInt ho, if_true])

theorem encode_decode_enumn (hk : d.kind = .enumn) (hv : decodeBytes p d c = .num v false)
    (ho : o.opv = BitVec.ofInt 64 v) : PutsBack p d o c := by
  simp only [decodeBytes, hk] at hv
  obtain ⟨hmap, rfl⟩ := dec_num_mapped hv
  have hq := digit_le c d.off
  have hok : inRange o 0 15 = true := inRange_ofInt ho (by omega) (by omega) (by decide)
  exact putsBack_digit hwf hc (by rw [hk]; rfl)
    (by simp only [encodeKind, hk, hok, opvByte_ofInt ho, hmap, Bool.and_self, if_true])

theorem encode_decode_bitgrp (hk : d.kind = .bitgrp) (hv : decodeBytes p d c = .num v false)
    (ho : o.opv = BitVec.ofInt 64 v) : PutsBack p d o c := by
  simp only [decodeBytes, hk, DecVal.num.injEq, and_true] at hv
  subst hv
  obtain ⟨h1, h2, hfit, hoff⟩ := descWf_kind_bitgrp hwf hk
  have hput := bitGroup_put_back h1 h2 hfit (c.getD d.off 0)
  have hlt : (c.getD d.off 0).toNat / 2 ^ d.bit % 2 ^ d.len < 2 ^ d.len := Nat.mod_lt _ (by positivity)
  have hpow : 2 ^ d.len ≤ 2 ^ 2 := Nat.pow_le_pow_right (by decide) h2
  generalize (c.getD d.off 0).toNat / 2 ^ d.bit % 2 ^ d.len = n at ho hput hlt
  have hok : inRange o 0 (2 ^ d.len - 1) = true := by
    zify at hlt hpow
    exact inRange_ofInt ho (by omega) (by omega) (by omega)
  have hbyte : opvByte o = BitVec.ofNat 8 n :=
    opvByte_ofInt (by rw [ho, BitVec.toNat_ofNat, Nat.mod_eq_of_lt (by omega)])
  refine ⟨partByte d d.off (opvByte o <<< d.bit, bitMask d), ?_, part_self hc hoff ?_⟩
  · simp only [encodeKind, hk, hok, if_true, bitMask]
  · rw [hbyte]
    exact hput

theorem encode_decode_int (hflag : d.kind = .flagnib → (digit c d.off).toNat ≤ 1)
    (hv : decodeBytes p d c = .num v false) (ho : o.opv = BitVec.ofInt 64 v) : PutsBack p d o c := by
  cases hk : d.kind with
  | raw | mac | ascii | utf16be => simp [decodeBytes, hk] at hv
  | ube => exact encode_decode_ube hwf hc hk hv ho
  | ule16 => exact encode_decode_ule16 hwf hc hk hv ho
  | bias127 => exact encode_decode_bias127 hwf hc hk hv ho
  | s8 => exact encode_decode_s8 hwf hc hk hv ho
  | nib => exact encode_decode_nib hwf hc hk hv ho
  | flagnib => exact encode_decode_flagnib hwf hc hk hv (hflag hk) ho
  | bitgrp => exact encode_decode_bitgrp hwf hc hk hv ho
  | enumb => exact encode_decode_enumb hwf hc hk hv ho
  | enumn => exact encode_decode_enumn hwf hc hk hv ho

theorem encode_decode_octets (hk : d.kind = .raw ∨ d.kind = .mac) (hlen : o.oplen = 2 * d.len)
    (hop : o.op.take d.len = fieldBytes d c) (hmin : d.mindig ≤ o.oplen) (hmax : o.oplen ≤ d.maxdig) :
    PutsBack p d o c := by
  have hbytes : Kind.isBytes d.kind = true := by obtain hk | hk := hk <;> rw [hk] <;> rfl
  have hf := fieldBytes_len hc (descWf_kind_bytes hwf hbytes).2
  have hok : rawOk d o = true := by
    rw [rawOk, Bool.and_eq_true, decide_eq_true_eq, decide_eq_true_eq]
    exact ⟨hmin, hmax⟩
  have hdig : digitBytes o.op o.oplen = fieldBytes d c := by
    rw [digitBytes, hlen, if_pos (by omega), Nat.mul_div_cancel_left _ (by decide), hop]
  have hfill : zeroFill d.len (fieldBytes d c) = fieldBytes d c := by
    rw [← hf]
    exact zeroFill_full _
  refine putsBack_bytes hwf hc hbytes ?_
  rw [encodeKind_octets hk, if_pos hok, hdig, hfill]

theorem encode_decode_ascii (hk : d.kind = .ascii) (hascii : ∀ b ∈ asciiTrim (fieldBytes d c), b.toNat ≤ 0x7F)
    (hlen : o.oplen = 2 * (asciiTrim (fieldBytes d c)).length)
    (hop : o.op.take (asciiTrim (fieldBytes d c)).length = asciiTrim (fieldBytes d c)) (hmin : d.mindig ≤ o.oplen)
    (hmax : o.oplen ≤ d.maxdig) : PutsBack p d o c := by
  have hbytes : Kind.isBytes d.kind = true := by rw [hk]; rfl
  have hf := fieldBytes_len hc (descWf_kind_bytes hwf hbytes).2
  have htake : o.op.take (o.oplen / 2) = asciiTrim (fieldBytes d c) := by
    rw [hlen, Nat.mul_div_cancel_left _ (by decide), hop]
  have hok : asciiOk d o = true := by
    simp only [asciiOk, htake, Bool.and_eq_true, decide_eq_true_eq, List.all_eq_true]
    exact ⟨⟨⟨by omega, hmin⟩, hmax⟩, hascii⟩
  have hfill := zeroFill_asciiTrim (fieldBytes d c)
  rw [hf] at hfill
  refine putsBack_bytes hwf hc hbytes ?_
  simp only [encodeKind, hk, hok, if_true, htake, hfill]

end

/-- Settles O41: by the kind; a read-only kind is shut out by the descriptor. -/
theorem fieldDecodeThenEncode : Obligations.FieldDecodeThenEncode := by
  intro p d o c hwf hw hc hop
  have h24 := (descWf_blocks hwf).2.1
  refine ⟨fun v hv hflag ho => ?_, fun bs hv hascii hlen htake hmin hmax => ?_⟩
  · refine (encode_decode_int hwf hc hflag hv ho).encodeField hw fun hk => ?_
    cases hkd : d.kind <;> simp [hkd, Kind.takesOp, decodeBytes] at hk hv
  · have hbs := decodeBytes_length hv
    refine PutsBack.encodeField ?_ hw fun _ => by omega
    cases hk : d.kind with
    | raw | mac =>
      have hoct : d.kind = .raw ∨ d.kind = .mac := by simp [hk]
      rw [decodeBytes_octets hoct, DecVal.bytes.injEq] at hv
      have hf := fieldBytes_len hc (descWf_kind_bytes hwf (by rw [hk]; rfl)).2
      rw [← hv, hf] at hlen htake
      exact encode_decode_octets hwf hc hoct hlen htake hmin hmax
    | ascii =>
      simp only [decodeBytes, hk, DecVal.bytes.injEq] at hv
      subst hv
      exact encode_decode_ascii hwf hc hk (hascii hk) hlen htake hmin hmax
    | utf16be => simp [descWf, hk, hw] at hwf
    | enumb | enumn => 
      simp only [decodeBytes, hk] at hv
      exact absurd hv (decodeEnum_ne_bytes _ _ _ _)
    | _ => simp [decodeBytes, hk] at hv

end Sys2Proof.Machine

/-! ## Fields as `FLD.RD` and `FLD.DEC` deliver them

What is delivered is said once for each shape of a decoded value (`Delivered`), and once that both commands deliver what the
field's decode rule yields. The statements about single kinds add the number or the string that their rule stands for. -/

namespace Sys2Proof.Machine

/-! ### Delivery -/

/-- What the delivery of a decoded value leaves in the registers (R187, R200). -/
def Delivered (d : Descriptor) (f : Nat) (v : DecVal) (t : State) : Prop :=
  match v with
  | .num n unk => NormalEnd t false unk ∧ t.resv = BitVec.ofInt 64 n ∧ t.reslen = 0
  | .bytes bs => NormalEnd t false false ∧ resBytes t = bs ∧ t.reslen.toNat = 2 * bs.length ∧ t.resv = 0
  | .unmapped => FaultedEnd t 5 (BitVec.ofNat 16 d.blk0) (BitVec.ofNat 8 f) 0

/-- A decoded value that sets no flag and is no miss (R162). -/
def DecVal.Plain : DecVal → Prop
  | .num _ unk => unk = false
  | .bytes _ => True
  | .unmapped => False

theorem Delivered.normalEnd {d : Descriptor} {f : Nat} {v : DecVal} {t : State} (h : Delivered d f v t) (hv : v.Plain) :
    NormalEnd t false false := by
  cases v with
  | num n unk =>
    obtain rfl : unk = false := hv
    exact h.1
  | bytes bs => exact h.1
  | unmapped => exact hv.elim

theorem deliver_next (d : Descriptor) (f : Nat) {v : DecVal} {s u : State} (hlen : ∀ bs, v = .bytes bs → bs.length ≤ 192)
    (hframe : OnlyResult s u) (htag : TagKept s u) :
    ∃ t, (deliver d f v u).toOutcome = .next t ∧ Delivered d f v t ∧ t.trace = u.trace ∧ OnlyResult s t ∧ TagKept s t := by
  cases v with
  | num n unk => exact ⟨_, rfl, ⟨normalEnd_finish _ u, rfl, rfl⟩, rfl, hframe.finish, htag⟩
  | bytes bs =>
    have h192 := hlen bs rfl
    exact ⟨_, rfl, ⟨normalEnd_finish _ u, resBytes_finish _ u h192, reslen_finish _ u h192, rfl⟩, rfl, hframe.finish, htag⟩
  | unmapped => exact ⟨_, rfl, faultedEnd_raise (by decide) _ _ u, rfl, hframe.raise, htag⟩

/-- The bytes a field decodes to fit `RES`. -/
theorem desc_decodeBytes_length {p q : Params} {f : Nat} {d : Descriptor} {c bs : List Byte} (hd : desc p f = some d)
    (hc : c.length = 4 * d.nblk) (h : decodeBytes q d c = .bytes bs) : bs.length ≤ 192 := by
  have h24 := (desc_blocks hd).2.1
  have := decodeBytes_length h
  omega

/-- `FLD.RD` with the well-behaved tag delivers what the field's rule makes of its blocks (R203). -/
theorem fldRd_delivers {s : State} {f : Nat} {d : Descriptor} (hl : s.link = []) (hd : desc s.params f = some d) :
    Completes (.fldRd f) s fun t =>
      Delivered d f (decodeBytes s.params d (tagCat s.tag d.blk0 d.nblk)) t ∧
      sent t = readsOf ((List.range d.nblk).map (d.blk0 + ·)) ++ sent s ∧ OnlyResult s t ∧ TagKept s t := by
  obtain ⟨u, hread, hframe, htag, hpar, hsent, hdec⟩ := readField_behaved hl hd
  have hrun : fldRdRun f s = deliver d f (decodeBytes s.params d (tagCat s.tag d.blk0 d.nblk)) u := by
    rw [fldRdRun, withDesc_some hd, hread, andThen_ok, hpar, hdec]
  obtain ⟨t, ht, hdel, htrace, hframe, htag⟩ :=
    deliver_next d f (fun bs h => desc_decodeBytes_length hd (tagCat_length _ _ _) h) hframe htag
  exact ⟨t, (congrArg Run.toOutcome hrun).trans ht, hdel, (congrArg (List.map Exchange.cmd) htrace).trans hsent, hframe,
    htag⟩

/-- `FLD.DEC` delivers what the field's rule makes of the snapshot, if that holds its blocks (R204). -/
theorem fldDec_delivers {s : State} {f : Nat} {d : Descriptor} (hd : desc s.params f = some d)
    (hsnap : ∀ j < d.nblk, s.snapv.getLsbD (d.blk0 + j) = true) :
    Completes (.fldDec f) s fun t =>
      Delivered d f (decodeBytes s.params d (cat s.snap d.blk0 d.nblk)) t ∧ sent t = sent s ∧ OnlyResult s t ∧
      TagKept s t := by
  have hrun : fldDecRun f s = deliver d f (decodeBytes s.params d (cat s.snap d.blk0 d.nblk)) s := by
    rw [fldDecRun, withDesc_some hd, missingBlock_none.mpr hsnap]
    rfl
  obtain ⟨t, ht, hdel, htrace, hframe, htag⟩ :=
    deliver_next d f (fun bs h => desc_decodeBytes_length hd (cat_length _ _ _) h) (OnlyResult.refl s) fun _ => rfl
  exact ⟨t, (congrArg Run.toOutcome hrun).trans ht, hdel, congrArg (List.map Exchange.cmd) htrace, hframe, htag⟩

/-! ### Unmapped codes -/

theorem decodeEnum_unmapped {p : Params} {d : Descriptor} {code : Byte} (h : mapped p d.tbl code = false) :
    decodeEnum p d code = if d.strict then .unmapped else .num code.toNat true :=
  if_neg (by simp [h])

/-- Settles O31: the rule of an enumeration yields the miss or the flagged code, and that is delivered. -/
theorem unmappedCodesAreFatalOnlyInTheStrictTable : Obligations.UnmappedCodesAreFatalOnlyInTheStrictTable := by
  intro s f d code hl hd hcode hmap
  obtain ⟨t, ht, hdel, -, hframe, htag⟩ := fldRd_delivers hl hd
  have hdec : decodeBytes s.params d (tagCat s.tag d.blk0 d.nblk) = decodeEnum s.params d code := by
    obtain ⟨hk, rfl⟩ | ⟨hk, rfl⟩ := hcode <;> simp only [decodeBytes, hk]
  rw [hdec, decodeEnum_unmapped hmap] at hdel
  refine ⟨t, ht, fun hs => ?_, fun hs => ?_, hframe, htag⟩
  · rw [if_neg (by simp [hs])] at hdel
    obtain ⟨hend, hresv, hreslen⟩ := hdel
    exact ⟨hend, toNat_of_ofInt hresv (by omega), hreslen⟩
  · rw [if_pos hs] at hdel
    exact hdel

/-! ### Text without its tail -/

/-- Trimming a tail is the library's `rdropWhile`. -/
theorem trimTail_eq_rdropWhile {α : Type} (p : α → Bool) (l : List α) : trimTail p l = l.rdropWhile p := by
  induction l with
  | nil => rfl
  | cons x xs ih =>
    rw [trimTail, ih, List.rdropWhile, List.rdropWhile, List.reverse_cons, List.dropWhile_append]
    cases h : xs.reverse.dropWhile p with
    | nil => cases hx : p x <;> simp [List.dropWhile, hx]
    | cons y ys => cases hr : (y :: ys).reverse <;> simp_all

/-- The bytes of a list of code units, each high byte first (R170). -/
def unitBytes (us : List (Byte × Byte)) : List Byte := us.flatMap fun u => [u.1, u.2]

theorem unitBytes_codeUnits {l : List Byte} (h : l.length % 2 = 0) : unitBytes (codeUnits l) = l := by
  induction l using codeUnits.induct with
  | case1 hi lo rest ih =>
    have hrest : rest.length % 2 = 0 := by
      simp only [List.length_cons] at h
      omega
    rw [codeUnits, unitBytes, List.flatMap_cons]
    exact congrArg (fun r => hi :: lo :: r) (ih hrest)
  | case2 l hl =>
    match l, h, hl with
    | [], _, _ => rfl
    | [a], h, _ => simp at h
    | a :: b :: rest, _, hl => exact absurd rfl (hl a b rest)

theorem unitBytes_replicate_zero (k : Nat) : unitBytes (List.replicate k (0, 0)) = List.replicate (2 * k) 0 := by
  induction k with
  | zero => rfl
  | succ k ih =>
    rw [List.replicate_succ, unitBytes, List.flatMap_cons, Nat.mul_succ, List.replicate_succ, List.replicate_succ]
    exact congrArg (fun r => 0 :: 0 :: r) ih

/-- The code unit 0x0000. -/
def isZeroUnit (u : Byte × Byte) : Bool := u.1 == 0#8 && u.2 == 0#8

theorem isZeroUnit_iff {u : Byte × Byte} : isZeroUnit u = true ↔ u = (0, 0) := by
  rw [isZeroUnit, Bool.and_eq_true, beq_iff_eq, beq_iff_eq, Prod.ext_iff]
  exact Iff.rfl

theorem utf16Trim_eq (f : List Byte) : utf16Trim f = unitBytes ((codeUnits f).rdropWhile isZeroUnit) :=
  congrArg unitBytes (trimTail_eq_rdropWhile isZeroUnit _)

theorem utf16Trim_length (f : List Byte) : (utf16Trim f).length % 2 = 0 := by
  rw [utf16Trim_eq, unitBytes, flatMap_pair_length]
  omega

/-- What is trimmed is zero code units. -/
theorem utf16Trim_append {f : List Byte} (h : f.length % 2 = 0) :
    ∃ k, utf16Trim f ++ List.replicate (2 * k) 0 = f := by
  have htail : (codeUnits f).rtakeWhile isZeroUnit =
      List.replicate ((codeUnits f).rtakeWhile isZeroUnit).length (0, 0) :=
    List.eq_replicate_of_mem fun u hu => isZeroUnit_iff.mp (List.mem_rtakeWhile_imp hu)
  refine ⟨((codeUnits f).rtakeWhile isZeroUnit).length, ?_⟩
  calc utf16Trim f ++ List.replicate (2 * _) 0
      = unitBytes ((codeUnits f).rdropWhile isZeroUnit) ++ unitBytes ((codeUnits f).rtakeWhile isZeroUnit) := by
        rw [utf16Trim_eq, ← unitBytes_replicate_zero, ← htail]
    _ = unitBytes (codeUnits f) := by
        rw [unitBytes, unitBytes, ← List.flatMap_append, List.rdropWhile_append_rtakeWhile, unitBytes]
    _ = f := unitBytes_codeUnits h

/-- No zero code unit is left at the end. -/
theorem utf16Trim_ne_append_zero (f bs : List Byte) : utf16Trim f ≠ bs ++ [0, 0] := by
  rw [utf16Trim_eq]
  intro h
  obtain hnil | ⟨us, u, hus⟩ := List.eq_nil_or_concat' ((codeUnits f).rdropWhile isZeroUnit)
  · rw [hnil] at h
    simp [unitBytes] at h
  · have hne : (codeUnits f).rdropWhile isZeroUnit ≠ [] := by simp [hus]
    have hlast := List.rdropWhile_last_not isZeroUnit _ hne
    simp only [hus, List.getLast_append_singleton] at hlast
    rw [hus, unitBytes, List.flatMap_append] at h
    obtain ⟨hhi, hlo⟩ : u.1 = 0 ∧ u.2 = 0 := by simpa using List.append_inj_right' h rfl
    exact hlast (isZeroUnit_iff.mpr (Prod.ext hhi hlo))

/-! ### The numbers of the integer kinds -/

/-- The base-256 digits of a big-endian number are its bytes (R172). -/
theorem bigEndian_digit (s : List Byte) {k : Nat} (hk : k < s.length) :
    bigEndian s / 256 ^ (s.length - 1 - k) % 256 = (s.getD k 0).toNat := by
  induction s using List.reverseRecOn with
  | nil => simp at hk
  | append_singleton s b ih =>
    have hb := b.isLt
    rw [List.length_append, List.length_singleton] at hk
    rw [bigEndian_append, List.length_append, List.length_singleton, Nat.add_sub_cancel, getD_append_small]
    by_cases hlt : k < s.length
    · rw [if_pos hlt, ← ih hlt, show s.length - k = (s.length - 1 - k) + 1 by omega, pow_succ', ← Nat.div_div_eq_div_mul,
        show (bigEndian s * 256 + b.toNat) / 256 = bigEndian s by omega]
    · rw [if_neg hlt, show k = s.length by omega, Nat.sub_self, pow_zero, Nat.div_one, List.getD_cons_zero]
      omega

/-- A digit as a number (R13). -/
theorem toNat_digit (c : List Byte) (q : Nat) : (digit c q).toNat =
    if q % 2 = 0 then (c.getD (q / 2) 0).toNat / 16 else (c.getD (q / 2) 0).toNat % 16 := by
  unfold digit
  split
  · rw [BitVec.toNat_ushiftRight, Nat.shiftRight_eq_div_pow]
  · rw [BitVec.toNat_and]
    exact Nat.and_two_pow_sub_one_eq_mod _ 4

/-- Two's complement of a byte (R179). -/
theorem toInt_byte (b : Byte) : b.toInt = if b.toNat ≤ 127 then (b.toNat : Int) else (b.toNat : Int) - 256 := by
  rw [BitVec.toInt_eq_toNat_cond]
  split <;> split <;> omega

/-! ### The value of each kind -/

/-- The kinds without a table decode to no miss and no flag (R162). -/
theorem decodeBytes_plain {p : Params} {d : Descriptor} {c : List Byte}
    (hk : d.kind ∈ [.ascii, .utf16be, .ube, .ule16, .bias127, .s8, .nib, .flagnib]) : (decodeBytes p d c).Plain := by
  cases hkd : d.kind <;> simp [hkd] at hk <;> simp only [decodeBytes, hkd, DecVal.Plain]

section
variable {p : Params} {d : Descriptor} {f : Nat} {c : List Byte} {t : State}
variable (h : Delivered d f (decodeBytes p d c) t)
include h

theorem Delivered.ascii (hk : d.kind = .ascii) :
    t.resv = 0 ∧ t.reslen.toNat = 2 * (resBytes t).length ∧
      (∃ k, resBytes t ++ List.replicate k 0 = fieldBytes d c) ∧ (resBytes t).getLast? ≠ some 0 := by
  simp only [decodeBytes, hk] at h
  obtain ⟨-, hres, hlen, hresv⟩ := h
  obtain ⟨k, happ, hlast⟩ := trimTail_spec (fieldBytes d c)
  rw [hres]
  exact ⟨hresv, hlen, ⟨k, happ⟩, hlast⟩

theorem Delivered.utf16be (hk : d.kind = .utf16be) (heven : (fieldBytes d c).length % 2 = 0) :
    t.resv = 0 ∧ t.reslen.toNat = 2 * (resBytes t).length ∧ t.reslen.toNat % 4 = 0 ∧
      (∃ k, resBytes t ++ List.replicate (2 * k) 0 = fieldBytes d c) ∧ ∀ bs, resBytes t ≠ bs ++ [0, 0] := by
  simp only [decodeBytes, hk] at h
  obtain ⟨-, hres, hlen, hresv⟩ := h
  have htwo := utf16Trim_length (fieldBytes d c)
  rw [hres]
  exact ⟨hresv, hlen, by omega, utf16Trim_append heven, utf16Trim_ne_append_zero _⟩

theorem Delivered.ube (hk : d.kind = .ube) (hlen : (fieldBytes d c).length = d.len) (h8 : d.len ≤ 8) :
    t.reslen = 0 ∧ t.resv.toNat < 256 ^ d.len ∧
      ∀ k < d.len, t.resv.toNat / 256 ^ (d.len - 1 - k) % 256 = (c.getD (d.off + k) 0).toNat := by
  simp only [decodeBytes, hk] at h
  obtain ⟨-, hresv, hreslen⟩ := h
  have hlt := bigEndian_lt (fieldBytes d c)
  have hpow : 256 ^ d.len ≤ 256 ^ 8 := Nat.pow_le_pow_right (by decide) h8
  rw [hlen] at hlt
  rw [toNat_of_ofInt hresv (by omega)]
  refine ⟨hreslen, hlt, fun k hkl => ?_⟩
  rw [← getD_fieldBytes hkl, ← hlen]
  exact bigEndian_digit _ (hlen ▸ hkl)

theorem Delivered.ule16 (hk : d.kind = .ule16) :
    t.reslen = 0 ∧ t.resv.toNat = (c.getD d.off 0).toNat + 256 * (c.getD (d.off + 1) 0).toNat := by
  simp only [decodeBytes, hk] at h
  obtain ⟨-, hresv, hreslen⟩ := h
  rw [toNat_of_ofInt hresv (by omega)]
  exact ⟨hreslen, by omega⟩

theorem Delivered.bias127 (hk : d.kind = .bias127) :
    t.reslen = 0 ∧ t.resv.toInt = ((c.getD d.off 0).toNat : Int) - 127 := by
  simp only [decodeBytes, hk] at h
  obtain ⟨-, hresv, hreslen⟩ := h
  have hb := (c.getD d.off 0).isLt
  rw [Config.tempBias] at hresv
  rw [hresv, ofInt_toInt (by omega) (by omega)]
  exact ⟨hreslen, rfl⟩

theorem Delivered.s8 (hk : d.kind = .s8) :
    t.reslen = 0 ∧ t.resv.toInt = if (c.getD d.off 0).toNat ≤ 127 then ((c.getD d.off 0).toNat : Int)
      else ((c.getD d.off 0).toNat : Int) - 256 := by
  simp only [decodeBytes, hk] at h
  obtain ⟨-, hresv, hreslen⟩ := h
  have hlo := BitVec.le_toInt (c.getD d.off 0)
  have hhi := BitVec.toInt_lt (x := c.getD d.off 0)
  rw [hresv, ofInt_toInt (by omega) (by omega)]
  exact ⟨hreslen, toInt_byte _⟩

theorem Delivered.nib (hk : d.kind = .nib) : t.reslen = 0 ∧ t.resv.toNat = (digit c d.off).toNat := by
  simp only [decodeBytes, hk] at h
  obtain ⟨-, hresv, hreslen⟩ := h
  exact ⟨hreslen, toNat_of_ofInt hresv (by omega)⟩

theorem Delivered.flagnib (hk : d.kind = .flagnib) :
    t.reslen = 0 ∧ t.resv = if (digit c d.off).toNat = 1 then 1 else 0 := by
  simp only [decodeBytes, hk] at h
  obtain ⟨-, hresv, hreslen⟩ := h
  refine ⟨hreslen, hresv.trans ?_⟩
  have hone : digit c d.off = 1#8 ↔ (digit c d.off).toNat = 1 := BitVec.toNat_inj.symm
  simp only [hone]
  split <;> rfl

end

/-- Settles O39: both commands deliver the decoded value, which is read off kind by kind. -/
theorem decodedValueOfEachKind : Obligations.DecodedValueOfEachKind := by
  intro s f d i c q hd hsrc hq hk
  have hwf := desc_wf hd
  obtain ⟨hc, t, ht, hdel⟩ : c.length = 4 * d.nblk ∧ Completes i s (Delivered d f (decodeBytes s.params d c)) := by
    obtain ⟨rfl, hl, rfl⟩ | ⟨rfl, hsnap, rfl⟩ := hsrc
    · obtain ⟨t, ht, hdel, -⟩ := fldRd_delivers hl hd
      exact ⟨tagCat_length _ _ _, t, ht, hdel⟩
    · obtain ⟨t, ht, hdel, -⟩ := fldDec_delivers hd hsnap
      exact ⟨cat_length _ _ _, t, ht, hdel⟩
  have hlen (hb : Kind.isBytes d.kind = true) : (fieldBytes d c).length = d.len :=
    fieldBytes_len hc (descWf_kind_bytes hwf hb).2
  rw [← toNat_digit] at hq
  subst hq
  refine ⟨t, ht, hdel.normalEnd (decodeBytes_plain hk), hdel.ascii, fun h => hdel.utf16be h ?_, fun h => ?_, hdel.ule16,
    hdel.bias127, hdel.s8, hdel.nib, hdel.flagnib⟩
  · rw [hlen (by rw [h]; rfl)]
    exact descWf_kind_utf16be hwf h
  · exact hdel.ube h (hlen (by rw [h]; rfl)) (descWf_kind_ube hwf h)

end Sys2Proof.Machine

/-! ## What `CFG.MUTATE` leaves in the field, and what `FLD.RD` reads back -/

namespace Sys2Proof.Machine

/-! ### Mutation of the well-behaved tag -/

/-- The block writes of a mutation with the well-behaved tag: the old blocks merged with data and mask (R233). -/
def mutateWrites (m : Memory) (d : Descriptor) (data mask : List Byte) : List (Nat × Block) :=
  newBlocks d.blk0 (oldsOf m d.blk0 (cutBlocks mask) 0) (cutBlocks data) (cutBlocks mask)

/-- With nothing scripted every exchange is with the well-behaved tag. -/
theorem allGood_of_link_nil {s : State} (h : s.link = []) (n : Nat) : AllGood n s := by
  intro e he
  simp [h] at he

section
variable {s : State} {f : Nat} {d : Descriptor} {data mask : List Byte}

/-- The blocks a mutation writes are blocks of the tag. -/
theorem mutateWrites_le (hd : desc s.params f = some d) (hm : mask.length = 4 * d.nblk) (m : Memory) :
    ∀ w ∈ mutateWrites m d data mask, w.1 ≤ 48 := by
  intro w hw
  have hfield := newBlocks_fst w hw
  have h48 := (desc_blocks hd).2.2
  rw [cutBlocks_length hm] at hfield
  omega

/-- `CFG.MUTATE` with the well-behaved tag: the reads of the blocks covered in part, the writes, the recompute (R233). -/
theorem mutateRun_behaved (hl : s.link = []) (hd : desc s.params f = some d)
    (he : encodeField s.params d (operandOf s) = some (data, mask)) :
    ∃ q b l, ∃ u : State,
      u = { s with seq := q, buf := b, tag := setAll s.tag (mutateWrites s.tag d data mask), trace := l ++ s.trace } ∧
      mutateRun f s = .ok { resv := (crc16 (region u.tag)).setWidth 64 } (recomputed u) ∧
      l.map (·.cmd) = ((mutateWrites s.tag d data mask).map fun w => TagCmd.bytes (.write w.1 w.2)).reverse ++
        readsOf (partials d.blk0 (cutBlocks mask) 0) := by
  have hm := (encodeField_length (desc_wf hd) (operandOf_op_length s) he).2
  have h48 := (desc_blocks hd).2.2
  obtain ⟨q, b, l, hread, hlr⟩ := readOld_allGood (fldId f) d.blk0 (ms := cutBlocks mask) 0 0
    (by rw [cutBlocks_length hm]; omega) (allGood_of_link_nil hl _)
  simp only [hl, List.drop_nil] at hread
  obtain ⟨q', l', hwrite, hlw⟩ := writeBlocks_allGood .write (fldId f) (mutateWrites_le (data := data) hd hm s.tag) 0
    (s := { s with seq := q, buf := b, link := [], trace := l ++ s.trace }) (allGood_of_link_nil rfl _)
  refine ⟨q', b, l' ++ l, _, rfl, ?_, by rw [List.map_append, hlr, hlw]⟩
  simp only [List.drop_nil] at hwrite
  rw [mutateRun_eq hd he, hread, andThen_ok, ← mutateWrites, hwrite, andThen_ok, recompute_behaved (fldId f) rfl,
    andThen_ok]
  simp only [hl, List.append_assoc]

/-- The field's blocks after the writes of a mutation (R163, R233). -/
theorem tagCat_mutateWrites {m : Memory} (hwf : Memory.wf m = true) (hdata : data.length = 4 * d.nblk)
    (hmask : mask.length = 4 * d.nblk) :
    tagCat (setAll m (mutateWrites m d data mask)) d.blk0 d.nblk =
      mergeBytes (tagCat m d.blk0 d.nblk) data mask := by
  have hcut := cutBlocks_length hmask
  have hlen := merged_length ((oldsOf_length m d.blk0 (cutBlocks mask) 0).trans hcut) (cutBlocks_length hdata) hcut
  have hblocks : (List.range d.nblk).map (fun k => (setAll m (mutateWrites m d data mask)).blockAt (d.blk0 + k)) =
      merged (oldsOf m d.blk0 (cutBlocks mask) 0) (cutBlocks data) (cutBlocks mask) := by
    refine List.ext_getElem (by rw [List.length_map, List.length_range, hlen]) fun j _ hj => ?_
    rw [List.getElem_map, List.getElem_range, mutateWrites, newBlocks_eq]
    exact setAll_consec hwf d.blk0 _ j hj
  rw [tagCat_join, hblocks, merged_olds, ← merge_join, join_cut hdata, join_cut hmask, hcut, ← List.range_eq_range',
    ← tagCat_join]

/-- Blocks of the region read the same after block 48 was written. -/
theorem tagCat_setBlock_48 (m : Memory) (b : Block) {blk0 nblk : Nat} (h : blk0 + nblk ≤ 48) :
    tagCat (m.setBlock 48 b) blk0 nblk = tagCat m blk0 nblk := by
  refine List.flatMap_congr fun j hj => ?_
  have := List.mem_range.mp hj
  rw [blockAt_setBlock_other m b (by omega)]

/-- What a mutation of the well-behaved tag leaves: the field's blocks merged with data and mask; nothing scripted, and the
parameters as before. -/
theorem exec_cfgMutate_behaved {t : State} (hl : s.link = []) (hwf : Memory.wf s.tag = true)
    (hd : desc s.params f = some d) (he : encodeField s.params d (operandOf s) = some (data, mask))
    (ht : exec (.cfgMutate f) s = .next t) :
    t.link = [] ∧ t.params = s.params ∧
      tagCat t.tag d.blk0 d.nblk = mergeBytes (tagCat s.tag d.blk0 d.nblk) data mask := by
  obtain ⟨hdata, hmask⟩ := encodeField_length (desc_wf hd) (operandOf_op_length s) he
  obtain ⟨q, b, l, u, rfl, hrun, -⟩ := mutateRun_behaved hl hd he
  cases (congrArg Run.toOutcome hrun).symm.trans ht
  obtain ⟨b', l', hrec, -⟩ := recomputed_eq
    { s with seq := q, buf := b, tag := setAll s.tag (mutateWrites s.tag d data mask), trace := l ++ s.trace }
  rw [finish_link, finish_params, finish_tag, hrec]
  exact ⟨hl, rfl, (tagCat_setBlock_48 _ _ (desc_blocks hd).2.2).trans (tagCat_mutateWrites hwf hdata hmask)⟩

end

/-! ### Read back -/

/-- Every integer an accepted operand decodes to is the operand (R23, R173). -/
theorem ofInt_operand (v : BitVec 64) (unsigned : Prop) [Decidable unsigned] :
    BitVec.ofInt 64 (if unsigned then (v.toNat : Int) else v.toInt) = v := by
  split
  · rw [BitVec.ofInt_natCast, BitVec.ofNat_toNat, BitVec.setWidth_eq]
  · exact BitVec.ofInt_toInt

/-- Settles O50: the blocks `FLD.RD` reads are those encode made, and they decode to the operand. -/
theorem mutateThenReadBack : Obligations.MutateThenReadBack := by
  intro s t u f d w hl hwf hd hne ht hu
  obtain ⟨⟨data, mask⟩, he⟩ := Option.ne_none_iff_exists'.mp hne
  obtain ⟨htl, htp, htag⟩ := exec_cfgMutate_behaved hl hwf hd he ht
  obtain ⟨u', hu', hdel, -⟩ := fldRd_delivers (s := acceptCmd w t) htl (htp ▸ hd)
  cases hu'.symm.trans hu
  rw [acceptCmd_params, acceptCmd_tag, htp, htag] at hdel
  obtain ⟨hint, hoct, hascii⟩ := fieldEncodeThenDecode s.params d (operandOf s) _ data mask (desc_wf hd)
    (tagCat_length _ _ _) (operandOf_op_length s) he
  refine ⟨hdel.normalEnd ?_, fun hk => ?_, fun hk => ?_, fun hk => ?_⟩
  · cases hk : Kind.takesOp d.kind with
    | false =>
      rw [hint hk]
      rfl
    | true =>
      cases hkd : d.kind <;> simp only [hkd, Kind.takesOp, Bool.false_eq_true] at hk <;>
        simp only [decodeBytes, hkd, DecVal.Plain]
  · rw [hint hk] at hdel
    obtain ⟨-, hresv, -⟩ := hdel
    exact hresv.trans (ofInt_operand _ _)
  · obtain ⟨bs, hdec, hlen, hdig⟩ := hoct hk
    rw [hdec] at hdel
    obtain ⟨-, rfl, -⟩ := hdel
    exact ⟨hlen, hdig⟩
  · obtain ⟨bs, k, hdec, happ, hlast⟩ := hascii hk
    rw [hdec] at hdel
    obtain ⟨-, rfl, -⟩ := hdel
    exact ⟨⟨k, happ⟩, hlast⟩

end Sys2Proof.Machine

/-! ## The field commands `FLD.RD`, `FLD.DEC`, `FLD.ENC`

Each is refused before any exchange, or delivers a decoded value (`Delivered`), or data and mask. How `FLD.DEC` ends is
said once, by the parameters, `SNAPV` and `SNAP` alone (`FldDecEnd`); its three statements are read off that. -/

namespace Sys2Proof.Machine

/-! ### Undefined fields -/

/-- 0xFF names no field (R201). -/
theorem desc_of_undefined {p : Params} {f : Nat} (h : f = 0xFF ∨ desc p f = none) : desc p f = none := by
  obtain rfl | h := h
  · rfl
  · exact h

/-- Settles O32: each of the four commands looks its field up first. -/
theorem undefinedFieldRaises : Obligations.UndefinedFieldRaises := by
  intro s f hf i hi
  have hd := desc_of_undefined hf
  simp only [List.mem_cons, List.not_mem_nil, or_false] at hi
  obtain rfl | rfl | rfl | rfl := hi <;> exact completes_refused rfl (withDesc_none hd _)

/-! ### `FLD.RD` -/

section
variable {d : Descriptor} {f : Nat} {v : DecVal} {t : State}

theorem Delivered.of_num (h : Delivered d f v t) (n : Int) (unk : Bool) (hv : v = .num n unk) :
    NormalEnd t false unk ∧ t.resv = BitVec.ofInt 64 n ∧ t.reslen = 0 := by
  subst hv
  exact h

theorem Delivered.of_bytes (h : Delivered d f v t) (bs : List Byte) (hv : v = .bytes bs) :
    NormalEnd t false false ∧ resBytes t = bs ∧ t.reslen.toNat = 2 * bs.length ∧ t.resv = 0 := by
  subst hv
  exact h

theorem Delivered.of_unmapped (h : Delivered d f v t) (hv : v = .unmapped) :
    FaultedEnd t 5 (BitVec.ofNat 16 d.blk0) (BitVec.ofNat 8 f) 0 := by
  subst hv
  exact h

/-- Only the miss of a strict table records a fault. -/
theorem Delivered.faultcode_zero (h : Delivered d f v t) (hv : v ≠ .unmapped) : t.faultcode = 0 := by
  cases v with
  | num n unk =>
    obtain ⟨⟨-, hcode, -⟩, -⟩ := h
    exact hcode
  | bytes bs =>
    obtain ⟨⟨-, hcode, -⟩, -⟩ := h
    exact hcode
  | unmapped => exact absurd rfl hv

end

/-- Settles O29: `FLD.RD` delivers the decoded value, of whatever shape. -/
theorem fldRdDeliversTheField : Obligations.FldRdDeliversTheField := by
  intro s f d hl hd
  obtain ⟨t, ht, hdel, hsent, hframe, htag⟩ := fldRd_delivers hl hd
  exact ⟨t, ht, hdel.of_num, hdel.of_bytes, hdel.of_unmapped, hsent, hframe, htag⟩

/-- Fields 2 and 3 are the 8 octets of blocks 11 and 12 (R208, R209). -/
theorem decodeBytes_devEui (p : Params) (m : Memory) {f : Nat} (hf : f = 2 ∨ f = 3) :
    ∃ d, desc p f = some d ∧ d.blk0 = 11 ∧ d.nblk = 2 ∧
      decodeBytes p d (tagCat m 11 2) = .bytes ((m.blockAt 11).toList ++ (m.blockAt 12).toList) := by
  obtain rfl | rfl := hf <;> exact ⟨_, rfl, rfl, rfl, decodeBytes_octets (.inr rfl)⟩

/-- Settles O30: the two blocks are the field, and their 8 bytes are 16 digits. -/
theorem fldRdDevEui : Obligations.FldRdDevEui := by
  intro s f hl hf
  obtain ⟨d, hd, hblk, hn, hdec⟩ := decodeBytes_devEui s.params s.tag hf
  obtain ⟨t, ht, hdel, hsent, hframe, htag⟩ := fldRd_delivers hl hd
  rw [hblk, hn] at hdel hsent
  obtain ⟨hend, hres, hlen, -⟩ := hdel.of_bytes _ hdec
  exact ⟨t, ht, hend, BitVec.eq_of_toNat_eq hlen, hres, hsent, hframe, htag⟩

/-! ### `FLD.DEC` -/

/-- How `FLD.DEC` ends: by the parameters, `SNAPV` and `SNAP` (R201, R204). -/
def FldDecEnd (p : Params) (snapv : BitVec 49) (snap : Vector Block 49) (f : Nat) (t : State) : Prop :=
  match desc p f with
  | none => FaultedEnd t 2 0xFFFF (BitVec.ofNat 8 f) 0
  | some d =>
    match missingBlock d snapv with
    | some n => FaultedEnd t 2 (BitVec.ofNat 16 n) (BitVec.ofNat 8 f) 0
    | none => Delivered d f (decodeField p d snap) t

section
variable {p : Params} {snapv : BitVec 49} {snap : Vector Block 49} {f : Nat} {d : Descriptor} {t : State}

theorem fldDecEnd_undefined (hd : desc p f = none) :
    FldDecEnd p snapv snap f t ↔ FaultedEnd t 2 0xFFFF (BitVec.ofNat 8 f) 0 := by
  rw [FldDecEnd, hd]

theorem fldDecEnd_missing {n : Nat} (hd : desc p f = some d) (hm : missingBlock d snapv = some n) :
    FldDecEnd p snapv snap f t ↔ FaultedEnd t 2 (BitVec.ofNat 16 n) (BitVec.ofNat 8 f) 0 := by
  simp only [FldDecEnd, hd, hm]

theorem fldDecEnd_present (hd : desc p f = some d) (hm : missingBlock d snapv = none) :
    FldDecEnd p snapv snap f t ↔ Delivered d f (decodeField p d snap) t := by
  simp only [FldDecEnd, hd, hm]

end

theorem fldDecRun_missing {s : State} {f n : Nat} {d : Descriptor} (hd : desc s.params f = some d)
    (hm : missingBlock d s.snapv = some n) :
    fldDecRun f s = .raised .encodingFault (BitVec.ofNat 16 n) (fldId f) s := by
  rw [fldDecRun, withDesc_some hd, hm]

/-- `FLD.DEC` ends as said, makes no exchange, and writes only its result, status and fault record (R204). -/
theorem fldDec_ends (f : Nat) (s : State) :
    Completes (.fldDec f) s fun t =>
      FldDecEnd s.params s.snapv s.snap f t ∧ sent t = sent s ∧ OnlyResult s t ∧ TagKept s t := by
  cases hd : desc s.params f with
  | none =>
    simp only [fldDecEnd_undefined hd]
    exact completes_refused rfl (withDesc_none hd _)
  | some d =>
    cases hm : missingBlock d s.snapv with
    | some n =>
      simp only [fldDecEnd_missing hd hm]
      exact completes_refused rfl (fldDecRun_missing hd hm)
    | none =>
      simp only [fldDecEnd_present hd hm]
      exact fldDec_delivers hd (missingBlock_none.mp hm)

/-- Settles O33: the blocks are all there and the value is delivered, or the first missing one is recorded. -/
theorem fldDecDecodesTheSnapshot : Obligations.FldDecDecodesTheSnapshot := by
  intro s f d hd
  obtain ⟨t, ht, hend, hkept⟩ := fldDec_ends f s
  refine ⟨t, ht, fun hall => ?_, fun j hj hout hin => ?_, hkept⟩
  · have hdel := (fldDecEnd_present hd (missingBlock_none.mpr hall)).mp hend
    exact ⟨hdel.of_num, hdel.of_bytes⟩
  · exact (fldDecEnd_missing hd (missingBlock_some hj hout hin)).mp hend

/-- Settles O58: only a field whose blocks are in the snapshot is decoded, and there no strict table misses. -/
theorem fldDecNeverMisses : Obligations.FldDecNeverMisses := by
  rintro s f ⟨-, -, -, hdecodes, -⟩
  obtain ⟨t, ht, hend, -⟩ := fldDec_ends f s
  refine ⟨t, ht, ?_⟩
  cases hd : desc s.params f with
  | none =>
    obtain ⟨-, hcode, -⟩ := (fldDecEnd_undefined hd).mp hend
    exact .inr hcode
  | some d =>
    cases hm : missingBlock d s.snapv with
    | some n =>
      obtain ⟨-, hcode, -⟩ := (fldDecEnd_missing hd hm).mp hend
      exact .inr hcode
    | none =>
      have hmapped := hdecodes f d hd (missingBlock_none.mp hm)
      exact .inl (((fldDecEnd_present hd hm).mp hend).faultcode_zero hmapped)

/-! ### What an end shows of the result -/

/-- The same result, status and fault record (R204, R256). -/
def SameShown (t t' : State) : Prop :=
  t.resv = t'.resv ∧ t.reslen = t'.reslen ∧ resBytes t = resBytes t' ∧ t.status = t'.status ∧
  t.faultcode = t'.faultcode ∧ t.faultblk = t'.faultblk ∧ t.faultfld = t'.faultfld

theorem resBytes_of_reslen_zero {t : State} (h : t.reslen = 0) : resBytes t = [] := by
  rw [resBytes, h]
  rfl

section
variable {t t' : State}

theorem FaultedEnd.sameShown {code fld : BitVec 8} {blk : BitVec 16} {resv : BitVec 64}
    (h : FaultedEnd t code blk fld resv) (h' : FaultedEnd t' code blk fld resv) : SameShown t t' := by
  obtain ⟨hst, hcode, hblk, hfld, hresv, hlen, -⟩ := h
  obtain ⟨hst', hcode', hblk', hfld', hresv', hlen', -⟩ := h'
  exact ⟨hresv.trans hresv'.symm, hlen.trans hlen'.symm,
    (resBytes_of_reslen_zero hlen).trans (resBytes_of_reslen_zero hlen').symm, hst.trans hst'.symm,
    hcode.trans hcode'.symm, hblk.trans hblk'.symm, hfld.trans hfld'.symm⟩

theorem NormalEnd.sameShown {crcok unk : Bool} (h : NormalEnd t crcok unk) (h' : NormalEnd t' crcok unk)
    (hresv : t.resv = t'.resv) (hlen : t.reslen = t'.reslen) (hres : resBytes t = resBytes t') : SameShown t t' := by
  obtain ⟨hst, hcode, hblk, hfld, -⟩ := h
  obtain ⟨hst', hcode', hblk', hfld', -⟩ := h'
  exact ⟨hresv, hlen, hres, hst.trans hst'.symm, hcode.trans hcode'.symm, hblk.trans hblk'.symm, hfld.trans hfld'.symm⟩

/-- The delivery of a value shows that value and nothing else. -/
theorem Delivered.sameShown {d : Descriptor} {f : Nat} {v : DecVal} (h : Delivered d f v t) (h' : Delivered d f v t') :
    SameShown t t' := by
  cases v with
  | num n unk =>
    obtain ⟨hend, hresv, hlen⟩ := h
    obtain ⟨hend', hresv', hlen'⟩ := h'
    exact hend.sameShown hend' (hresv.trans hresv'.symm) (hlen.trans hlen'.symm)
      ((resBytes_of_reslen_zero hlen).trans (resBytes_of_reslen_zero hlen').symm)
  | bytes bs =>
    obtain ⟨hend, hres, hlen, hresv⟩ := h
    obtain ⟨hend', hres', hlen', hresv'⟩ := h'
    exact hend.sameShown hend' (hresv.trans hresv'.symm) (BitVec.eq_of_toNat_eq (hlen.trans hlen'.symm))
      (hres.trans hres'.symm)
  | unmapped => exact FaultedEnd.sameShown h h'

/-- The end of `FLD.DEC` shows nothing but what follows from the parameters, `SNAPV` and `SNAP`. -/
theorem FldDecEnd.sameShown {p : Params} {snapv : BitVec 49} {snap : Vector Block 49} {f : Nat}
    (h : FldDecEnd p snapv snap f t) (h' : FldDecEnd p snapv snap f t') : SameShown t t' := by
  cases hd : desc p f with
  | none => exact ((fldDecEnd_undefined hd).mp h).sameShown ((fldDecEnd_undefined hd).mp h')
  | some d =>
    cases hm : missingBlock d snapv with
    | some n => exact ((fldDecEnd_missing hd hm).mp h).sameShown ((fldDecEnd_missing hd hm).mp h')
    | none => exact ((fldDecEnd_present hd hm).mp h).sameShown ((fldDecEnd_present hd hm).mp h')

end

/-- Settles O34: both runs end as the same parameters, `SNAPV` and `SNAP` say. -/
theorem fldDecDependsOnTheSnapshotOnly : Obligations.FldDecDependsOnTheSnapshotOnly := by
  intro s s' t t' f hsnap hsnapv hparams ht ht'
  obtain ⟨u, hu, hend, -⟩ := fldDec_ends f s
  obtain ⟨u', hu', hend', -⟩ := fldDec_ends f s'
  cases hu.symm.trans ht
  cases hu'.symm.trans ht'
  rw [← hsnap, ← hsnapv, ← hparams] at hend'
  exact hend.sameShown hend'

/-! ### `FLD.ENC` -/

section
variable {s : State} {f : Nat} {d : Descriptor}

theorem encodeField_readOnly {p : Params} {o : Operand} (h : d.writable = false) : encodeField p d o = none :=
  if_pos (by rw [h]; rfl)

theorem fldEncRun_none (hd : desc s.params f = some d) (he : encodeField s.params d (operandOf s) = none) :
    fldEncRun f s = .raised .encodingFault 0xFFFF (fldId f) s := by
  rw [fldEncRun, withDesc_some hd, withEncoded_none he]

theorem fldEncRun_some {data mask : List Byte} (hd : desc s.params f = some d)
    (he : encodeField s.params d (operandOf s) = some (data, mask)) :
    fldEncRun f s = .ok { bytes := data ++ mask } s := by
  rw [fldEncRun, withDesc_some hd, withEncoded_some he]

/-- `FLD.ENC` of an accepted value: data and mask fill 8 bytes of `RES` for each block of the field (R205). -/
theorem fldEnc_delivers {data mask : List Byte} (hd : desc s.params f = some d)
    (he : encodeField s.params d (operandOf s) = some (data, mask)) :
    Completes (.fldEnc f) s fun t =>
      (NormalEnd t false false ∧ resBytes t = data ++ mask ∧ t.reslen.toNat = 16 * d.nblk ∧ t.resv = 0) ∧
      sent t = sent s ∧ OnlyResult s t ∧ TagKept s t := by
  have hlen : (data ++ mask).length = 8 * d.nblk := by
    obtain ⟨hdata, hmask⟩ := encodeField_length (desc_wf hd) (operandOf_op_length s) he
    rw [List.length_append]
    omega
  have h192 : (data ++ mask).length ≤ 192 := by
    obtain ⟨-, h24, -⟩ := desc_blocks hd
    omega
  have hdigits : 2 * (data ++ mask).length = 16 * d.nblk := by omega
  exact ⟨_, congrArg Run.toOutcome (fldEncRun_some hd he),
    ⟨normalEnd_finish _ s, resBytes_finish _ s h192, (reslen_finish _ s h192).trans hdigits, rfl⟩, rfl,
    (OnlyResult.refl s).finish, fun _ => rfl⟩

end

/-- Settles O35: encode gives data and mask, or no value, and none for a read-only field. -/
theorem fldEncDeliversDataAndMask : Obligations.FldEncDeliversDataAndMask := by
  intro s f d hd
  cases he : encodeField s.params d (operandOf s) with
  | none =>
    obtain ⟨t, ht, hend, hkept⟩ := completes_refused (i := .fldEnc f) rfl (fldEncRun_none hd he)
    exact ⟨t, ht, fun _ _ h => (nomatch h), fun _ => hend, fun _ => hend, hkept⟩
  | some x =>
    obtain ⟨data, mask⟩ := x
    obtain ⟨t, ht, hdel, hkept⟩ := fldEnc_delivers hd he
    refine ⟨t, ht, fun data' mask' h => ?_, fun h => (nomatch h), fun hw => ?_, hkept⟩
    · cases h
      exact hdel
    · rw [encodeField_readOnly hw] at he
      cases he

end Sys2Proof.Machine

/-! ## The aggregate commands `CFG.READALL`, `CFG.MUTATE`, `CFG.ERASE`

What holds whatever the environment does is read off how the runs can end (`Laws/Aggregate.lean`); what the
well-behaved tag gives, off the run itself: the reads of a view and the decode pass (`takeSnapshot_next`), the two phases
of a mutation and its recompute, the fill of an erase and its validation. Mutation and erase write blocks in a row
(`consec`), so what the writes leave is said once for those. -/

namespace Sys2Proof.Machine

/-! ### The snapshot -/

/-- A run leaves the snapshot where no reset cuts it (R237). -/
def KeepsSnapshot {α : Type} (s : State) (r : Run α) : Prop :=
  r.Ends (fun _ t => SnapshotKept s t) (fun _ _ _ t => SnapshotKept s t) (fun _ => ¬NoReset s)

theorem KeepsSnapshot.next {r : Run Result} {s t : State} (h : KeepsSnapshot s r) (hn : NoReset s)
    (ht : r.toOutcome = .next t) : SnapshotKept s t := by
  obtain ⟨a, u, hk, rfl⟩ | ⟨f, blk, fld, u, hk, rfl⟩ | hc := Run.Ends.next h ht
  · exact hk
  · exact hk
  · exact absurd hn hc

theorem Ordinary.keepsSnapshot {W : Nat → Prop} {C : Prop} {s : State} {r : Run Result} (h : Ordinary W C s r) :
    KeepsSnapshot s r :=
  Run.Ends.mono h (fun _ _ ⟨hm, _⟩ => hm.snapshot) (fun _ _ _ _ ⟨hm, _⟩ => hm.snapshot) fun _ hc => hc.reset

/-- The shape of `CRC.VALIDATE` and `CFG.ERASE`: exchanges, then a comparison that succeeds, or raises (R150, R235). -/
def Comparing (W : Nat → Prop) (C : Prop) (s : State) (r : Run Result) : Prop :=
  r.Ends
    (fun a t => ∃ u c, Moves W C s u ∧ t = compared c c u ∧ a = { resv := c.setWidth 64, crcok := true })
    (fun f b d t => Moves W C s t ∧ f.ofExchange ∨
      ∃ u c e, c ≠ e ∧ Moves W C s u ∧ t = compared c e u ∧ f = .crcMismatch ∧ b = 48 ∧ d = 0xFF)
    (CutBy W s)

theorem validate_comparing (s : State) : Comparing noBlock False s (validate s) := validate_ends s

theorem eraseRun_comparing (s : State) : Comparing (· ≤ 48) True s (eraseRun s) := eraseRun_ends s

/-- A comparison moves the CRC registers alone. -/
theorem Comparing.keepsSnapshot {W : Nat → Prop} {C : Prop} {s : State} {r : Run Result} (h : Comparing W C s r) :
    KeepsSnapshot s r := by
  refine Run.Ends.mono h ?_ ?_ fun _ hc => hc.reset
  · rintro a t ⟨u, c, hm, rfl, -⟩
    exact hm.snapshot
  · rintro f blk fld t (⟨hm, -⟩ | ⟨u, c, e, -, hm, rfl, -⟩)
    · exact hm.snapshot
    · exact hm.snapshot

theorem mutateRun_keepsSnapshot (f : Nat) (s : State) : KeepsSnapshot s (mutateRun f s) := by
  cases hd : desc s.params f with
  | some d => exact (mutateRun_ends hd).keepsSnapshot
  | none =>
    rw [mutateRun, withDesc_none hd]
    exact ⟨rfl, rfl⟩

/-- A raw tag command moves no register. -/
theorem tagRun_snapshotKept {c : TagCmd} {s t : State} (hn : NoReset s) (h : tagRun c s = .next t) :
    SnapshotKept s t := by
  obtain ⟨m, ib, es, tr, rfl, -⟩ | hc := tagRun_next h
  · exact ⟨rfl, rfl⟩
  · exact absurd hn hc.reset

/-- Settles O44: by the instruction, each through how its run can end. -/
theorem snapshotChangesOnlyInReadall : Obligations.SnapshotChangesOnlyInReadall := by
  intro i s t hn hi h
  cases i with
  | rdblk blk => exact (rdblkRun_ends blk s).keepsSnapshot.next hn h
  | wrblk blk => exact (wrblkRun_ends blk s).keepsSnapshot.next hn h
  | getuid => exact (getuidRun_ends s).keepsSnapshot.next hn h
  | crcCompute => exact (crcComputeRun_ends s).keepsSnapshot.next hn h
  | crcEnc => exact (crcEncRun_ends s).keepsSnapshot.next hn h
  | crcDec => exact (crcDecRun_ends s).keepsSnapshot.next hn h
  | crcValidate => exact (validate_comparing s).keepsSnapshot.next hn h
  | crcRecompute => exact (crcRecomputeRun_ends s).keepsSnapshot.next hn h
  | fldRd sel => exact (fldRdRun_ends sel s).keepsSnapshot.next hn h
  | fldDec sel => exact (fldDecRun_ends sel s).keepsSnapshot.next hn h
  | fldEnc sel => exact (fldEncRun_ends sel s).keepsSnapshot.next hn h
  | cfgReadall v => exact absurd rfl (hi v)
  | cfgMutate sel => exact (mutateRun_keepsSnapshot sel s).next hn h
  | cfgErase => exact (eraseRun_comparing s).keepsSnapshot.next hn h
  | apduRead n => exact tagRun_snapshotKept (c := .read n) hn h
  | apduWrite n d => exact tagRun_snapshotKept (c := .write n d) hn h
  | apduGetuid => exact tagRun_snapshotKept (c := .getUid) hn h

/-! ### `CFG.READALL`, whatever the environment does -/

/-- Only the views 0 and 1 are defined (R38). -/
theorem view_of_ge {v : Nat} (h : 2 ≤ v) : view v = none := by
  match v, h with
  | n + 2, _ => rfl

/-- An undefined view is refused once the old snapshot is gone (R231). -/
theorem readallRun_undefined {v : Nat} (h : view v = none) (s : State) :
    readallRun v s = .raised .encodingFault 0xFFFF 0xFF (noSnapshot s) := by
  rw [readallRun, h]
  rfl

/-- Settles O43: only a normal end leaves the view, and exchanges keep the `SNAPV` of 0 that the operation starts with. -/
theorem noPartialSnapshot : Obligations.NoPartialSnapshot := by
  refine ⟨fun s t v h => ?_, fun s v hv => ?_⟩
  · obtain ⟨r, u, ⟨bs, w, hview, -, -, rfl, rfl⟩, rfl⟩ | ⟨f, blk, fld, u, ⟨hm, -⟩, rfl⟩ | hc :=
      (readallRun_ends v s).next h
    · exact .inr ⟨normalEnd_finish _ _, bs, hview, fun n => snapv_view hview n⟩
    · exact .inl hm.snapshot.2
    · obtain ⟨-, -, -, -, -, -, -, -, -, -, -, -, hsnapv, -⟩ := hc.atReset
      exact .inl hsnapv
  · exact ⟨_, congrArg Run.toOutcome (readallRun_undefined (view_of_ge hv) s), faultedEnd_raise (by decide) _ _ _, rfl,
      rfl, ⟨rfl, rfl, rfl, rfl⟩, ⟨rfl, rfl, rfl⟩, ⟨rfl, rfl⟩, rfl, fun _ => rfl⟩

/-! ### `CFG.READALL` with the well-behaved tag -/

section
variable {s : State} {v : Nat} {bs : List Nat}

/-- `CFG.READALL` with the well-behaved tag: the reads of the view, then the decode pass over `BUF` (R231). -/
theorem readallRun_behaved (hl : s.link = []) (hv : view v = some bs) :
    readallRun v s = takeSnapshot bs (readsState .viewRead bs 0 (noSnapshot s)) := by
  rw [readallRun, hv]
  show (readBlocks .viewRead 0xFF bs 0 (noSnapshot s)).andThen _ = _
  rw [readBlocks_behaved .viewRead 0xFF (fun n hn => (view_le hv n hn).trans (by omega)) 0 (s := noSnapshot s) hl,
    andThen_ok]

/-- The end of `CFG.READALL`: a pass without a miss takes the snapshot and delivers its blocks, one with a miss raises for
it and takes none (R231). -/
theorem takeSnapshot_next (hlen : bs.length ≤ 48) (s : State) :
    ∃ t, (takeSnapshot bs s).toOutcome = .next t ∧
      (firstUnmapped s.params bs s.buf (List.range 255) = none →
        NormalEnd t false false ∧ resBytes t = bs.flatMap (fun n => (imageAt s.buf n).toList) ∧
        t.reslen.toNat = 8 * bs.length ∧ t.resv = 0 ∧ t.snapv = blockMask bs ∧ t.snap = snapTake bs s.buf s.snap) ∧
      (∀ f d, firstUnmapped s.params bs s.buf (List.range 255) = some (f, d) →
        FaultedEnd t 5 (BitVec.ofNat 16 d.blk0) (BitVec.ofNat 8 f) 0 ∧ t.snapv = s.snapv) ∧
      t.trace = s.trace ∧ OperandsKept s t ∧ OutsideKept s t ∧ CrcPairKept s t ∧ t.crcreg = s.crcreg ∧ TagKept s t := by
  unfold takeSnapshot
  cases firstUnmapped s.params bs s.buf (List.range 255) with
  | none =>
    have hbytes : (bs.flatMap fun n => (imageAt s.buf n).toList).length = 4 * bs.length := blocks_length _ _
    have h192 : 4 * bs.length ≤ 192 := by omega
    refine ⟨_, rfl, fun _ => ⟨normalEnd_finish _ _, resBytes_finish _ _ (hbytes ▸ h192), ?_, rfl, rfl, rfl⟩,
      nofun, rfl, ⟨rfl, rfl, rfl, rfl⟩, ⟨rfl, rfl, rfl⟩, ⟨rfl, rfl⟩, rfl, fun _ => rfl⟩
    rw [reslen_finish _ _ (hbytes ▸ h192), hbytes]
    omega
  | some miss =>
    refine ⟨_, rfl, nofun, fun f d h => ?_, rfl, ⟨rfl, rfl, rfl, rfl⟩, ⟨rfl, rfl, rfl⟩, ⟨rfl, rfl⟩, rfl, fun _ => rfl⟩
    cases h
    exact ⟨faultedEnd_raise (by decide) _ _ _, rfl⟩

/-- A member of the view decodes from `BUF` as from the tag (R232). -/
theorem decodeField_viewRead (hv : view v = some bs) (p : Params) {d : Descriptor}
    (hin : ∀ j < d.nblk, d.blk0 + j ∈ bs) :
    decodeField p d (readsState .viewRead bs 0 s).buf = decodeBytes p d (tagCat s.tag d.blk0 d.nblk) := by
  rw [decodeField, cat_readsState .viewRead (fun n hn => (view_le hv n hn).trans (by omega)) hin]

/-- The blocks of the view stand in `BUF` as in the tag. -/
theorem imageAt_viewRead (hv : view v = some bs) {n : Nat} (hn : n ∈ bs) :
    imageAt (readsState .viewRead bs 0 s).buf n = s.tag.blockAt n := by
  rw [imageAt_readsState .viewRead (fun n hn => (view_le hv n hn).trans (by omega)), if_pos hn]

end

theorem imageAt_fin (img : Vector Block 49) (n : Fin 49) : imageAt img n = img[n] := by
  simp [imageAt]

/-- Settles O42: the pass over the blocks read finds a miss exactly where a member of the view misses on the tag. -/
theorem readallDeliversTheSnapshot : Obligations.ReadallDeliversTheSnapshot := by
  intro s v bs hl hvbs
  have hv : view v = some bs := by obtain ⟨rfl, rfl⟩ | ⟨rfl, rfl⟩ := hvbs <;> rfl
  have hrun := readallRun_behaved hl hv
  have hdec := fun d => decodeField_viewRead (s := noSnapshot s) (d := d) hv s.params
  have himg := fun n => imageAt_viewRead (s := noSnapshot s) (n := n) hv
  obtain ⟨q, b, l, hread, hsent, -⟩ := readsState_eq .viewRead bs 0 (noSnapshot s)
  rw [hread] at hrun hdec himg
  obtain ⟨t, ht, htaken, hmissed, htrace, hframe⟩ := takeSnapshot_next ((view_length hv).trans (by omega))
    { noSnapshot s with seq := q, buf := b, trace := l ++ s.trace }
  refine ⟨t, (congrArg Run.toOutcome hrun).trans ht, fun hall => ?_, fun f d hd hin hun hfirst => ?_,
    (sent_of_trace_append htrace).trans (by rw [hsent]), hframe⟩
  · have hnone : firstUnmapped s.params bs b (List.range 255) = none := firstUnmapped_eq_none fun f _ d hm => by
      obtain ⟨hd, hin⟩ := memberDesc_iff.mp hm
      rw [hdec d hin]
      exact hall f d hd hin
    obtain ⟨hend, hres, hlen, hresv, hsnapv, hsnap⟩ := htaken hnone
    refine ⟨hend, hres.trans (List.flatMap_congr fun n hn => congrArg Block.toList (himg n hn)), hlen, hresv,
      fun n => hsnapv ▸ snapv_view hv n, fun n hn => ?_⟩
    rw [← imageAt_fin, hsnap, imageAt_snapTake hn (by omega)]
    exact himg n hn
  · have hsome : firstUnmapped s.params bs b (List.range 255) = some (f, d) :=
      firstUnmapped_some List.pairwise_lt_range (List.mem_range.mpr (desc_lt hd)) (memberDesc_iff.mpr ⟨hd, hin⟩)
        ((hdec d hin).trans hun) fun g hg e hm => by
          obtain ⟨he, hin'⟩ := memberDesc_iff.mp hm
          rw [hdec e hin']
          exact hfirst g hg e he hin'
    exact hmissed f d hsome

/-! ### `CFG.MUTATE` refused -/

theorem mutateRun_none {s : State} {f : Nat} {d : Descriptor} (hd : desc s.params f = some d)
    (he : encodeField s.params d (operandOf s) = none) :
    mutateRun f s = .raised .encodingFault 0xFFFF (fldId f) s := by
  rw [mutateRun, withDesc_some hd, withEncoded_none he]

/-- A string longer than the field allows has no encoding (R166). -/
theorem encodeField_too_long {p : Params} {d : Descriptor} {o : Operand} (hk : d.kind = .raw ∨ d.kind = .mac)
    (h : d.maxdig < o.oplen) : encodeField p d o = none := by
  have hraw : rawOk d o = false := by simp [rawOk, Nat.not_le.mpr h]
  have hkind : encodeKind p d o = none := by rw [encodeKind_octets hk, hraw]; rfl
  simp [encodeField, hkind]

/-- Field 1 is the Join Key, of at most 32 digits (R36, R207). -/
theorem desc_joinKey {p : Params} {d : Descriptor} (h : desc p 1 = some d) : d.kind = .raw ∧ d.maxdig = 32 := by
  cases h
  exact ⟨rfl, rfl⟩

/-- Settles O46: in each of the three cases encode has no value. -/
theorem mutateRefusesBadOperands : Obligations.MutateRefusesBadOperands := by
  intro s f d hd hbad
  have he : encodeField s.params d (operandOf s) = none := by
    obtain hro | he | ⟨rfl, hlong⟩ := hbad
    · exact encodeField_readOnly hro
    · exact he
    · obtain ⟨hk, hmax⟩ := desc_joinKey hd
      exact encodeField_too_long (.inl hk) (hmax ▸ hlong)
  exact completes_refused rfl (mutateRun_none hd he)

/-! ### `CFG.MUTATE` that fails, whatever the environment does -/

/-- Two things said of how a part of an operation ends. -/
theorem Run.Ends.and {α : Type} {r : Run α} {ok ok' : α → State → Prop}
    {raised raised' : FaultKind → BitVec 16 → BitVec 8 → State → Prop} {cut cut' : State → Prop}
    (h : r.Ends ok raised cut) (h' : r.Ends ok' raised' cut') :
    r.Ends (fun a s => ok a s ∧ ok' a s) (fun f b d s => raised f b d s ∧ raised' f b d s)
      (fun s => cut s ∧ cut' s) := by
  cases r <;> exact ⟨h, h'⟩

/-- A block of a row of blocks. -/
theorem mem_row {blk0 nblk n : Nat} : n ∈ (List.range nblk).map (blk0 + ·) ↔ blk0 ≤ n ∧ n < blk0 + nblk := by
  simp only [List.mem_map, List.mem_range]
  constructor
  · rintro ⟨j, hj, rfl⟩
    exact ⟨by omega, by omega⟩
  · rintro ⟨hlo, hhi⟩
    exact ⟨n - blk0, by omega, by omega⟩

/-- A fault of a mutation that is not about block 48 leaves every byte outside the field: it falls before the write of
block 48 (R234). -/
theorem mutateRun_raised {s : State} {f : Nat} {d : Descriptor} (hd : desc s.params f = some d) :
    (mutateRun f s).Ends (fun _ _ => True)
      (fun _ b _ t => b ≠ 48 → TagKeptBut ((List.range d.nblk).map (d.blk0 + ·)) s t) (fun _ => ¬NoReset s) := by
  cases he : encodeField s.params d (operandOf s) with
  | none =>
    rw [mutateRun_none hd he]
    exact fun _ _ _ => rfl
  | some x =>
    obtain ⟨data, mask⟩ := x
    rw [mutateRun_eq hd he]
    have hm := (encodeField_length (desc_wf hd) (operandOf_op_length s) he).2
    have kept : ∀ {t}, Moves (inField d) False s t → TagKeptBut ((List.range d.nblk).map (d.blk0 + ·)) s t :=
      fun h a ha => h.bytes a (mt mem_row.mpr ha)
    have hwrites := mutateWrites_ends (f := f) (data := data) (s := s) (desc_wf hd) hm
    refine (Run.Ends.mono hwrites (fun _ _ h => h) (fun _ _ _ _ ⟨h, _⟩ _ => kept h) fun _ hc => hc.reset).andThen
      fun _ t h => ?_
    have hrec := (recompute_ends (fldId f) t).and (recompute_raised (fldId f) t)
    exact (Run.Ends.mono hrec (ok₂ := fun _ _ => True) (fun _ _ _ => trivial)
      (fun _ _ _ _ ⟨_, hu⟩ hb a ha => (hu hb a).trans (kept h a ha)) fun _ ⟨hc, _⟩ hn =>
        hc.reset (h.noReset hn)).andThen fun _ _ _ => trivial

/-- Settles O48: only a faulted end records a fault, and it leaves what is outside the field. -/
theorem failedMutationLeavesStoredCrc : Obligations.FailedMutationLeavesStoredCrc := by
  intro s t f d hn hd h hcode hblk
  obtain ⟨r, u, -, rfl⟩ | ⟨k, blk, fld, u, hkept, rfl⟩ | hc := (mutateRun_raised hd).next h
  · exact absurd rfl hcode
  · exact hkept hblk
  · exact absurd hn hc

/-! ### Blocks written in a row -/

theorem consec_append (blk0 : Nat) (as bs : List Block) :
    consec blk0 (as ++ bs) = consec blk0 as ++ consec (blk0 + as.length) bs := by
  induction as generalizing blk0 with
  | nil => rfl
  | cons a as ih =>
    rw [List.cons_append, consec, consec, ih, List.length_cons, List.cons_append]
    congr 3
    omega

/-- The block at each place is written to the address of that place. -/
theorem consec_map_range (blk0 n : Nat) (g : Nat → Block) :
    consec blk0 ((List.range n).map g) = (List.range n).map fun j => (blk0 + j, g j) := by
  induction n with
  | zero => rfl
  | succ n ih =>
    rw [List.range_succ, List.map_append, consec_append, ih, List.map_append, List.length_map, List.length_range]
    rfl

/-- What is read back from the blocks written in a row is what was written. -/
theorem map_blockAt_setAll {m : Memory} (hwf : Memory.wf m = true) (blk0 : Nat) (bs : List Block) :
    (List.range bs.length).map (fun j => (setAll m (consec blk0 bs)).blockAt (blk0 + j)) = bs := by
  refine List.ext_getElem (by rw [List.length_map, List.length_range]) fun j _ hj => ?_
  rw [List.getElem_map, List.getElem_range, setAll_consec hwf blk0 bs j hj]

/-- Blocks written in a row leave every byte outside them. -/
theorem byteAt_setAll_consec (m : Memory) (blk0 : Nat) (bs : List Block) {a : Nat}
    (ha : ¬(blk0 ≤ a / 4 ∧ a / 4 < blk0 + bs.length)) : (setAll m (consec blk0 bs)).byteAt a = m.byteAt a :=
  setAll_byte m _ a fun w hw heq => ha (heq ▸ consec_mem w hw)

theorem mem_consec_map_range {blk0 n : Nat} {g : Nat → Block} :
    ∀ w ∈ consec blk0 ((List.range n).map g), blk0 ≤ w.1 ∧ w.1 < blk0 + n := by
  simpa using consec_mem (blk0 := blk0) (bs := (List.range n).map g)

/-- A list of writes cut in two. -/
theorem writeBlocks_append (ph : Phase) (fld : BitVec 8) (ws ws' : List (Nat × Block)) (i : Nat) (s : State) :
    writeBlocks ph fld (ws ++ ws') i s =
      (writeBlocks ph fld ws i s).andThen fun _ s => writeBlocks ph fld ws' (i + ws.length) s := by
  induction ws generalizing i s with
  | nil => rfl
  | cons w ws ih =>
    obtain ⟨n, d⟩ := w
    rw [List.cons_append, writeBlocks, writeBlocks, andThen_assoc]
    congr 1
    funext _ t
    rw [ih, List.length_cons, Nat.add_assoc, Nat.add_comm 1]

/-- The commands of a list of block writes, newest first. -/
def writesSent (ws : List (Nat × Block)) : List (List Byte) :=
  (ws.map fun w => TagCmd.bytes (.write w.1 w.2)).reverse

/-- The first write that fails ends a list of writes: the blocks before it are new, its own block is as the environment
says (R77, R260). -/
theorem writeBlocks_fail (ph : Phase) (fld : BitVec 8) {before after : List (Nat × Block)} {n : Nat} (b : Block)
    (hn : ∀ w ∈ before, w.1 ≤ 48) (hn' : n ≤ 48) (i : Nat) {s : State} {y : Answer} {fate : WriteFate}
    {es : List LinkEvent} (hy : ¬Answered y) (hl : FailsAfter before.length y fate es s) :
    ∃ q l, writeBlocks ph fld (before ++ (n, b) :: after) i s = .raised .transportFault (BitVec.ofNat 16 n) fld
        { s with
          seq := q, link := es
          tag := (setAll s.tag before).setBlock n
            (fateBlock s.params fate ((setAll s.tag before).blockAt n) b)
          trace := l ++ s.trace } ∧
      l.map (·.cmd) = writesSent (before ++ [(n, b)]) := by
  obtain ⟨q, l, hbefore, hlb⟩ := writeBlocks_allGood ph fld hn i hl.allGood
  rw [hl, List.drop_left' List.length_replicate] at hbefore
  obtain ⟨u, rfl, ⟨-, hw⟩ | ⟨hyes, -⟩⟩ := writeBlock_answers (.pos ph (i + before.length)) hn' b fld
    (s := { s with
      seq := q, link := ⟨[], .answers y fate⟩ :: es, tag := setAll s.tag before, trace := l ++ s.trace }) rfl
  · refine ⟨.pos ph (i + before.length), ⟨.pos ph (i + before.length), TagCmd.bytes (.write n b), some y⟩ :: l, ?_, ?_⟩
    · rw [writeBlocks_append, hbefore, andThen_ok, writeBlocks, hw, andThen_raised, if_neg (mt (answered_iff y).mpr hy),
        tagAfterFailure, tagStore_of_le hn']
      rfl
    · simp only [writesSent, List.map_cons, hlb, List.map_append, List.reverse_append]
      rfl
  · exact absurd hyes hy

/-! ### The writes of a mutation -/

/-- The field's blocks merged with data and mask (R163, R233). -/
def mutateBlocks (m : Memory) (d : Descriptor) (data mask : List Byte) : List Block :=
  merged (oldsOf m d.blk0 (cutBlocks mask) 0) (cutBlocks data) (cutBlocks mask)

theorem mutateWrites_eq (m : Memory) (d : Descriptor) (data mask : List Byte) :
    mutateWrites m d data mask = consec d.blk0 (mutateBlocks m d data mask) := newBlocks_eq _ _ _ _

section
variable {m : Memory} {d : Descriptor} {data mask : List Byte} (hdata : data.length = 4 * d.nblk)
  (hmask : mask.length = 4 * d.nblk)
include hdata hmask

theorem mutateBlocks_length : (mutateBlocks m d data mask).length = d.nblk :=
  merged_length ((oldsOf_length m d.blk0 (cutBlocks mask) 0).trans (cutBlocks_length hmask)) (cutBlocks_length hdata)
    (cutBlocks_length hmask)

theorem joinBlocks_mutateBlocks :
    joinBlocks (mutateBlocks m d data mask) = mergeBytes (tagCat m d.blk0 d.nblk) data mask := by
  rw [mutateBlocks, merged_olds, ← merge_join, join_cut hdata, join_cut hmask, cutBlocks_length hmask,
    ← List.range_eq_range', ← tagCat_join]

/-- A mutation leaves every byte outside the field before it stamps block 48. -/
theorem byteAt_mutateWrites {a : Nat} (ha : ¬inField d (a / 4)) :
    (setAll m (mutateWrites m d data mask)).byteAt a = m.byteAt a := by
  rw [mutateWrites_eq]
  exact byteAt_setAll_consec _ _ _ (by rwa [mutateBlocks_length hdata hmask])

/-- The commands of a mutation's writes carry what the field's blocks hold once block 48 is stamped. -/
theorem writesSent_mutateWrites (hwf : Memory.wf m = true) (h48 : d.blk0 + d.nblk ≤ 48) (b : Block) :
    writesSent (mutateWrites m d data mask) =
      ((List.range d.nblk).map fun j => TagCmd.bytes (.write (d.blk0 + j)
        (((setAll m (mutateWrites m d data mask)).setBlock 48 b).blockAt (d.blk0 + j)))).reverse := by
  have hread := map_blockAt_setAll hwf d.blk0 (mutateBlocks m d data mask)
  rw [mutateBlocks_length hdata hmask, ← mutateWrites_eq] at hread
  rw [writesSent]
  conv_lhs => rw [mutateWrites_eq, ← hread, consec_map_range, List.map_map]
  refine congrArg List.reverse (List.map_congr_left fun j hj => ?_)
  have := List.mem_range.mp hj
  rw [blockAt_setBlock_other _ _ (show d.blk0 + j ≠ 48 by omega)]
  rfl

/-- The writes of a mutation up to block `k` of the field, where `p` gives the merged blocks. -/
theorem mutateWrites_split {p : Nat → Block} {k : Nat} (hk : k < d.nblk)
    (hp : ∀ j ≤ k, (p j).toList = ((mergeBytes (tagCat m d.blk0 d.nblk) data mask).drop (4 * j)).take 4) :
    ∃ after, mutateWrites m d data mask =
      consec d.blk0 ((List.range k).map p) ++ (d.blk0 + k, p k) :: after := by
  have hlen := mutateBlocks_length (m := m) hdata hmask
  have hblock : ∀ j ≤ k, ∀ hj : j < (mutateBlocks m d data mask).length, (mutateBlocks m d data mask)[j] = p j := by
    intro j hjk hj
    apply blockAt_ext
    rw [hp j hjk, ← joinBlocks_mutateBlocks hdata hmask, joinBlocks_take4 _ j hj]
  have htake : (mutateBlocks m d data mask).take k = (List.range k).map p := by
    refine List.ext_getElem (by rw [List.length_take, List.length_map, List.length_range, hlen]; omega)
      fun j hj hj' => ?_
    have : j < k := by simpa using hj'
    rw [List.getElem_take, hblock j this.le, List.getElem_map, List.getElem_range]
  refine ⟨consec (d.blk0 + k + 1) ((mutateBlocks m d data mask).drop (k + 1)), ?_⟩
  conv_lhs => rw [mutateWrites_eq, ← List.take_append_drop k (mutateBlocks m d data mask), htake,
    List.drop_eq_getElem_cons (hlen ▸ hk), hblock k le_rfl, consec_append]
  rw [List.length_map, List.length_range]
  rfl

end

/-! ### `CFG.MUTATE` with the well-behaved tag -/

/-- Settles O45: by what the two phases and a good recompute change. -/
theorem mutateWritesTheFieldAndStamps : Obligations.MutateWritesTheFieldAndStamps := by
  intro s f d data mask hl hwf hd he
  obtain ⟨hdata, hmask⟩ := encodeField_length (desc_wf hd) (operandOf_op_length s) he
  have h48 := (desc_blocks hd).2.2
  obtain ⟨q, b, l, u, rfl, hrun, hsent⟩ := mutateRun_behaved hl hd he
  obtain ⟨b', l', hrec, hsent'⟩ := recomputed_eq
    { s with seq := q, buf := b, tag := setAll s.tag (mutateWrites s.tag d data mask), trace := l ++ s.trace }
  rw [hrec] at hrun
  have hwf' := setAll_wf hwf (mutateWrites s.tag d data mask)
  refine ⟨_, congrArg Run.toOutcome hrun, normalEnd_finish _ _, ?_, ?_, ?_, ?_, ?_, rfl, ?_, ⟨rfl, rfl, rfl, rfl⟩,
    ⟨rfl, rfl, rfl⟩, ⟨rfl, rfl⟩, ⟨rfl, rfl⟩⟩
  · rw [finish_tag, tagCat_setBlock_48 _ _ h48, tagCat_mutateWrites hwf hdata hmask]
  · rw [finish_tag, blockAt_setBlock_same hwf', region_setBlock_48]
  · intro a ha
    rw [List.mem_cons, not_or, mem_row] at ha
    obtain ⟨hne, hout⟩ := ha
    rw [finish_tag, byteAt_setBlock_other _ _ hne, byteAt_mutateWrites hdata hmask hout]
  · rw [finish_crcreg, finish_tag, region_setBlock_48]
  · rw [finish_resv, finish_tag, region_setBlock_48]
  · rw [finish_tag, sent_of_trace_append (s := s) (l := l' ++ l) (List.append_assoc l' l s.trace).symm,
      List.map_append, hsent, hsent', blockAt_setBlock_same hwf', ← writesSent_mutateWrites hdata hmask hwf h48,
      ← partials_eq d.blk0 mask hmask, writesSent]
    simp only [List.append_assoc, List.cons_append]

/-! ### A write of the field that fails -/

/-- The exchanges before the failing one are good, the first `a` of them as well as the `k` after them. -/
theorem FailsAfter.split {a k : Nat} {y : Answer} {fate : WriteFate} {es : List LinkEvent} {s : State}
    (h : FailsAfter (a + k) y fate es s) :
    AllGood a s ∧ s.link.drop a = List.replicate k good ++ ⟨[], .answers y fate⟩ :: es := by
  have hlink : s.link = List.replicate a good ++ (List.replicate k good ++ ⟨[], .answers y fate⟩ :: es) := by
    rw [h, List.replicate_add, List.append_assoc]
  rw [AllGood, hlink, List.take_left' List.length_replicate, List.drop_left' List.length_replicate]
  exact ⟨fun e he => List.eq_of_mem_replicate he, rfl⟩

/-- `CFG.MUTATE` whose write of the field's block `k` fails: the reads and the writes before it are good, and it ends
the operation (R234). -/
theorem mutateRun_fails {s : State} {f k : Nat} {d : Descriptor} {data mask : List Byte} {p : Nat → Block} {y : Answer}
    {fate : WriteFate} {es : List LinkEvent} (hd : desc s.params f = some d)
    (he : encodeField s.params d (operandOf s) = some (data, mask))
    (hp : ∀ j ≤ k, (p j).toList = ((mergeBytes (tagCat s.tag d.blk0 d.nblk) data mask).drop (4 * j)).take 4)
    (hk : k < d.nblk) (hy : ¬Answered y)
    (hl : FailsAfter ((partials d.blk0 (cutBlocks mask) 0).length + k) y fate es s) :
    ∃ q b l, mutateRun f s = .raised .transportFault (BitVec.ofNat 16 (d.blk0 + k)) (fldId f)
        { s with
          seq := q, buf := b, link := es
          tag := (setAll s.tag (consec d.blk0 ((List.range k).map p))).setBlock (d.blk0 + k)
            (fateBlock s.params fate ((setAll s.tag (consec d.blk0 ((List.range k).map p))).blockAt (d.blk0 + k)) (p k))
          trace := l ++ s.trace } ∧
      l.map (·.cmd) = writesSent (consec d.blk0 ((List.range k).map p) ++ [(d.blk0 + k, p k)]) ++
        readsOf (partials d.blk0 (cutBlocks mask) 0) := by
  obtain ⟨hdata, hmask⟩ := encodeField_length (desc_wf hd) (operandOf_op_length s) he
  have h48 := (desc_blocks hd).2.2
  obtain ⟨hgood, hrest⟩ := hl.split
  obtain ⟨q, b, l, hread, hsent⟩ := readOld_allGood (fldId f) d.blk0 (ms := cutBlocks mask) 0 0 (s := s)
    (by rw [cutBlocks_length hmask]; omega) hgood
  rw [hrest] at hread
  obtain ⟨after, hsplit⟩ := mutateWrites_split hdata hmask hk hp
  obtain ⟨q', l', hwrite, hsent'⟩ := writeBlocks_fail .write (fldId f) (after := after) (p k)
    (before := consec d.blk0 ((List.range k).map p)) (n := d.blk0 + k)
    (fun w hw => by have := mem_consec_map_range w hw; omega) (by omega) 0 hy
    (s := { s with
      seq := q, buf := b, link := List.replicate k good ++ ⟨[], .answers y fate⟩ :: es, trace := l ++ s.trace })
    (by rw [consec_length, List.length_map, List.length_range])
  rw [← hsplit] at hwrite
  refine ⟨q', b, l' ++ l, ?_, by rw [List.map_append, hsent, hsent']⟩
  rw [mutateRun_eq hd he, hread, andThen_ok, ← mutateWrites, hwrite, andThen_raised, List.append_assoc]

/-- Settles O47: by the run up to the failed write. -/
theorem mutateStopsAtTheFirstFailedWrite : Obligations.MutateStopsAtTheFirstFailedWrite := by
  intro s f k d data mask partly p y fate es hwf hd he hpartly hp hk hy hl
  obtain ⟨-, hmask⟩ := encodeField_length (desc_wf hd) (operandOf_op_length s) he
  have hpart : partials d.blk0 (cutBlocks mask) 0 = partly.map (d.blk0 + ·) := by
    rw [partials_eq d.blk0 mask hmask, hpartly]
  obtain ⟨q, b, l, hrun, hsent⟩ := mutateRun_fails hd he hp hk hy (by rwa [hpart, List.length_map])
  refine ⟨_, congrArg Run.toOutcome hrun, faultedEnd_raise (by decide) _ _ _, fun j hj => ?_, fun htorn => ?_,
    fun a ha => ?_, ?_, rfl, OnlyResult.refl s⟩
  · have hnew := setAll_consec hwf d.blk0 ((List.range k).map p) j (by simpa using hj)
    rw [raiseFault_tag, blockAt_setBlock_other _ _ (show d.blk0 + j ≠ d.blk0 + k by omega), hnew, List.getElem_map,
      List.getElem_range]
  · have hold := setAll_block s.tag (consec d.blk0 ((List.range k).map p)) (d.blk0 + k)
      fun w hw => by have := mem_consec_map_range w hw; omega
    rw [raiseFault_tag, blockAt_setBlock_same (setAll_wf hwf _), hold]
    exact fateBlock_oldOrNew htorn fate _ _
  · rw [mem_row] at ha
    rw [raiseFault_tag, byteAt_setBlock_other _ _ (by omega), byteAt_setAll_consec _ _ _
      (by rw [List.length_map, List.length_range]; omega)]
  · have hwrites : consec d.blk0 ((List.range k).map p) ++ [(d.blk0 + k, p k)] =
        (List.range (k + 1)).map fun j => (d.blk0 + j, p j) := by
      rw [← consec_map_range, List.range_succ, List.map_append, consec_append, List.length_map, List.length_range]
      rfl
    rw [sent_of_trace_append (s := s) (l := l) rfl, hsent, hpart, hwrites, writesSent, List.map_map]
    rfl

/-! ### `CFG.ERASE` -/

/-- The fill of `CFG.ERASE`: blocks 0 to 47 in a row (R235). -/
def eraseWrites : List (Nat × Block) := (List.range 48).map fun n => (n, Block.fill 0xFF)

theorem eraseWrites_eq : eraseWrites = consec 0 (List.replicate 48 (Block.fill 0xFF)) := by decide

theorem eraseRun_eq (s : State) : eraseRun s =
    (writeBlocks .write 0xFF eraseWrites 0 s).andThen fun _ s => (recompute 0xFF s).andThen fun _ s => validate s := rfl

theorem eraseWrites_le : ∀ w ∈ eraseWrites, w.1 ≤ 48 := by decide

/-- The CRC of a filled region (R236, V93). -/
theorem crc16_region_fill {m : Memory} (h : ∀ n < 48, m.blockAt n = Block.fill 0xFF) :
    crc16 (region m) = 0x12C3#16 := by
  have hblocks : (List.range 48).map (fun n => m.blockAt (0 + n)) = List.replicate 48 (Block.fill 0xFF) := by
    refine List.eq_replicate_iff.mpr ⟨by simp, fun b hb => ?_⟩
    obtain ⟨n, hn, rfl⟩ := List.mem_map.mp hb
    rw [Nat.zero_add, h n (List.mem_range.mp hn)]
  rw [region, tagCat_join, hblocks]
  decide +kernel

/-- The tag once `CFG.ERASE` has filled its blocks 0 to 47 (R235). -/
def filled (m : Memory) : Memory := setAll m eraseWrites

theorem byteAt_filled (m : Memory) {a : Nat} (ha : 48 ≤ a / 4) : (filled m).byteAt a = m.byteAt a := by
  rw [filled, eraseWrites_eq, byteAt_setAll_consec _ _ _ (by rw [List.length_replicate]; omega)]

section
variable {m : Memory} (hwf : Memory.wf m = true)
include hwf

theorem filled_wf : Memory.wf (filled m) = true := setAll_wf hwf _

theorem blockAt_filled {n : Nat} (hn : n < 48) : (filled m).blockAt n = Block.fill 0xFF := by
  have := setAll_consec hwf 0 (List.replicate 48 (Block.fill 0xFF)) n (by simpa using hn)
  rwa [Nat.zero_add, List.getElem_replicate, ← eraseWrites_eq] at this

theorem crc16_region_filled : crc16 (region (filled m)) = 0x12C3#16 :=
  crc16_region_fill fun _ hn => blockAt_filled hwf hn

end

/-- A validation right after a recompute finds the CRC just stored (R152). -/
theorem recompute_validate_behaved {s : State} (hl : s.link = []) (hwf : Memory.wf s.tag = true) {c : BitVec 16}
    (hc : crc16 (region s.tag) = c) :
    ∃ q b l, ((recompute 0xFF s).andThen fun _ u => validate u) = .ok { resv := c.setWidth 64, crcok := true }
        { s with
          seq := q, buf := b, crcreg := c, crcexp := c, crcact := c
          tag := s.tag.setBlock 48 (encStore c), trace := l ++ s.trace } ∧
      l.map (·.cmd) = readsOf (List.range 49) ++ TagCmd.bytes (.write 48 (encStore c)) :: readsOf (List.range 48) := by
  obtain ⟨b, l, hrec, hsent⟩ := recomputed_eq s
  obtain ⟨q, b', l', hsent', hval⟩ := validate_behaved (s := recomputed s) (by rw [hrec]; exact hl)
  rw [recompute_behaved 0xFF hl, andThen_ok, hval, hrec, crcCompare_eq, hc]
  rw [hc] at hsent
  refine ⟨q, b', l' ++ l, ?_, by rw [List.map_append, hsent, hsent']⟩
  have hcur : crc16 (region (s.tag.setBlock 48 (encStore c))) =
      decStore ((s.tag.setBlock 48 (encStore c)).blockAt 48) := by
    rw [region_setBlock_48, blockAt_setBlock_same hwf, decStore_encStore, hc]
  rw [if_pos hcur, region_setBlock_48, blockAt_setBlock_same hwf, decStore_encStore, hc, compared, List.append_assoc]

/-- `CFG.ERASE` with the well-behaved tag: the fill, the stamp of block 48, the validation that finds it (R235). -/
theorem eraseRun_behaved {s : State} (hl : s.link = []) (hwf : Memory.wf s.tag = true) :
    ∃ q b l, eraseRun s = .ok { resv := 0x12C3, crcok := true }
        { s with
          seq := q, buf := b, crcreg := 0x12C3, crcexp := 0x12C3, crcact := 0x12C3
          tag := (filled s.tag).setBlock 48 (encStore 0x12C3), trace := l ++ s.trace } ∧
      l.map (·.cmd) = readsOf (List.range 49) ++
        TagCmd.bytes (.write 48 (encStore 0x12C3)) :: readsOf (List.range 48) ++ writesSent eraseWrites := by
  obtain ⟨q, l, hwrite, hsent⟩ := writeBlocks_allGood .write 0xFF eraseWrites_le 0 (allGood_of_link_nil hl _)
  have hwf' := filled_wf hwf
  have hcrc := crc16_region_filled hwf
  rw [hl, List.drop_nil, ← filled] at hwrite
  generalize filled s.tag = m at hwrite hwf' hcrc ⊢
  obtain ⟨q', b, l', hrest, hsent'⟩ := recompute_validate_behaved
    (s := { s with seq := q, link := [], tag := m, trace := l ++ s.trace }) rfl hwf' hcrc
  refine ⟨q', b, l' ++ l, ?_, by rw [List.map_append, hsent, hsent']; rfl⟩
  rw [eraseRun_eq, hwrite, andThen_ok, hrest, hl, List.append_assoc]
  rfl

/-- Settles O49: by the run with the well-behaved tag. -/
theorem eraseFillsAndValidates : Obligations.EraseFillsAndValidates := by
  intro s hl hwf
  obtain ⟨q, b, l, hrun, hsent⟩ := eraseRun_behaved hl hwf
  have hstamp : encStore 0x12C3 = ⟨0xC3, 0x12, 0x00, 0x00⟩ := by decide
  rw [hstamp] at hrun hsent
  refine ⟨_, congrArg Run.toOutcome hrun, normalEnd_finish _ _, fun n hn => ?_, ?_, fun a ha => ?_, rfl,
    rfl, rfl, rfl, rfl, ?_, ⟨rfl, rfl, rfl, rfl⟩, ⟨rfl, rfl, rfl⟩, ⟨rfl, rfl⟩⟩
  · rw [finish_tag, blockAt_setBlock_other _ _ hn.ne, blockAt_filled hwf hn]
    rfl
  · rw [finish_tag, blockAt_setBlock_same (filled_wf hwf)]
  · rw [List.mem_range, Nat.not_lt] at ha
    rw [finish_tag, byteAt_setBlock_other _ _ (show a / 4 ≠ 48 by omega), byteAt_filled _ (by omega)]
  · rw [sent_of_trace_append (s := s) (l := l) rfl, hsent, writesSent, eraseWrites, List.map_map]
    rfl

end Sys2Proof.Machine

/-! ## Faults: what `raise` records, and an `EncodingFault` comes before any exchange

An ordinary command raises `EncodingFault` in the state it started in (`Ordinary`); the other commands raise it only for a
view or field that is not defined. So each run, where it ends in `EncodingFault`, has made no exchange (R253). -/

namespace Sys2Proof.Machine

/-! ### `raise` -/

/-- Settles O52: `RESV` is the computed CRC after `CrcMismatch`, and 0 after the other four kinds. -/
theorem raiseEffect : Obligations.RaiseEffect := by
  intro f blk fld s
  refine ⟨?_, (OnlyResult.refl s).raise, rfl⟩
  cases f with
  | crcMismatch => exact faultedEnd_crcMismatch blk fld s
  | transportFault | encodingFault | decodeFault | unknownBeaconType => exact faultedEnd_raise (by decide) blk fld s

/-! ### `EncodingFault` before any exchange -/

/-- `FAULTCODE` 2 is the code of `EncodingFault` alone (R251). -/
theorem eq_encodingFault_of_code {f : FaultKind} (h : f.code = 2) : f = .encodingFault := by
  cases f with
  | encodingFault => rfl
  | transportFault | decodeFault | crcMismatch | unknownBeaconType => cases h

/-- No exchange lies between the two states: record, environment and tag are as before. -/
def NoExchange (s t : State) : Prop := t.trace = s.trace ∧ t.tag = s.tag ∧ t.link = s.link

/-- A run that raises `EncodingFault` only before its first exchange (R253). -/
def RefusesFirst (s : State) (r : Run Result) : Prop :=
  r.Ends (fun _ _ => True) (fun f _ _ t => f = .encodingFault → NoExchange s t) AtReset

/-- `FAULTCODE` is 0 after a normal end and after a reset, so code 2 is that of a raised `EncodingFault`. -/
theorem RefusesFirst.next {s t : State} {r : Run Result} (h : RefusesFirst s r) (ht : r.toOutcome = .next t)
    (hcode : t.faultcode = 2) : NoExchange s t := by
  obtain ⟨a, u, -, rfl⟩ | ⟨f, blk, fld, u, hu, rfl⟩ | hreset := Run.Ends.next h ht
  · cases hcode
  · exact hu (eq_encodingFault_of_code hcode)
  · obtain ⟨-, -, hzero, -⟩ := hreset
    rw [hzero] at hcode
    cases hcode

theorem Ordinary.refusesFirst {W : Nat → Prop} {C : Prop} {s : State} {r : Run Result} (h : Ordinary W C s r) :
    RefusesFirst s r := by
  refine Run.Ends.mono h (fun _ _ _ => trivial) ?_ fun _ hc => hc.atReset
  rintro f blk fld t ⟨-, -, hstart⟩ hf
  rw [hstart hf]
  exact ⟨rfl, rfl, rfl⟩

/-- A command that ends by comparing CRCs, `CRC.VALIDATE` or `CFG.ERASE`, raises no `EncodingFault` at all: its faults are
those of its exchanges and `CrcMismatch` (R150, R235). -/
theorem refusesFirst_of_compares {W : Nat → Prop} {C : Prop} {s : State} {r : Run Result} {ok : Result → State → Prop}
    (h : r.Ends ok
      (fun f b d t => Moves W C s t ∧ f.ofExchange ∨
        ∃ u c e, c ≠ e ∧ Moves W C s u ∧ t = compared c e u ∧ f = .crcMismatch ∧ b = 48 ∧ d = 0xFF)
      (CutBy W s)) : RefusesFirst s r := by
  refine h.mono (fun _ _ _ => trivial) ?_ fun _ hc => hc.atReset
  rintro f blk fld t (⟨-, hex⟩ | ⟨u, c, e, -, -, -, rfl, -⟩) hf
  · exact absurd hf hex.ne.2.1
  · cases hf

/-- `CFG.READALL` of an undefined view has dropped the snapshot and made no exchange (R231). -/
theorem readallRun_refusesFirst (v : Nat) (s : State) : RefusesFirst s (readallRun v s) := by
  refine (readallRun_ends v s).mono (fun _ _ _ => trivial) ?_ fun _ hc => hc.atReset
  rintro f blk fld t ⟨-, -, hstart⟩ hf
  rw [hstart hf]
  exact ⟨rfl, rfl, rfl⟩

theorem mutateRun_refusesFirst (f : Nat) (s : State) : RefusesFirst s (mutateRun f s) := by
  cases hd : desc s.params f with
  | some d => exact (mutateRun_ends hd).refusesFirst
  | none =>
    rw [mutateRun, withDesc_none hd]
    exact fun _ => ⟨rfl, rfl, rfl⟩

/-- Settles O53: by the command, each through how its run can end. -/
theorem encodingFaultMeansNoExchange : Obligations.EncodingFaultMeansNoExchange := by
  intro i s t hi h hcode
  cases i with
  | rdblk blk => exact (rdblkRun_ends blk s).refusesFirst.next h hcode
  | wrblk blk => exact (wrblkRun_ends blk s).refusesFirst.next h hcode
  | getuid => exact (getuidRun_ends s).refusesFirst.next h hcode
  | crcCompute => exact (crcComputeRun_ends s).refusesFirst.next h hcode
  | crcEnc => exact (crcEncRun_ends s).refusesFirst.next h hcode
  | crcDec => exact (crcDecRun_ends s).refusesFirst.next h hcode
  | crcValidate => exact (refusesFirst_of_compares (validate_ends s)).next h hcode
  | crcRecompute => exact (crcRecomputeRun_ends s).refusesFirst.next h hcode
  | fldRd sel => exact (fldRdRun_ends sel s).refusesFirst.next h hcode
  | fldDec sel => exact (fldDecRun_ends sel s).refusesFirst.next h hcode
  | fldEnc sel => exact (fldEncRun_ends sel s).refusesFirst.next h hcode
  | cfgReadall sel => exact (readallRun_refusesFirst sel s).next h hcode
  | cfgMutate sel => exact (mutateRun_refusesFirst sel s).next h hcode
  | cfgErase => exact (refusesFirst_of_compares (eraseRun_ends s)).next h hcode
  | apduRead | apduWrite | apduGetuid => cases hi

end Sys2Proof.Machine

/-! ## Every host command ends, within 146 exchanges

How a command ends is read off its lawful run (`exec_hostCommand`). How many exchanges it makes is a bound on each run, the
lengths of its read and write lists added up; the longest command is `CFG.ERASE`, whose 48 writes, recompute and validation
make 146 (10_state.md R31). -/

namespace Sys2Proof.Machine

/-! ### The three kinds of end -/

theorem faultKind_code_bounds (f : FaultKind) : 1 ≤ f.code.toNat ∧ f.code.toNat ≤ 5 := by
  cases f <;> decide

/-- `raise` ends the operation with the kind's code, whatever the kind (R256). -/
theorem faultedEnd_raiseFault (f : FaultKind) (blk : BitVec 16) (fld : BitVec 8) (s : State) :
    FaultedEnd (raiseFault f blk fld s) f.code blk fld (raiseFault f blk fld s).resv :=
  ⟨rfl, rfl, rfl, rfl, rfl, rfl, rfl⟩

/-- The next state of a lawful run is a normal end, a faulted end, or the registers at reset (R43, R283). -/
theorem Lawful.ended {P C : Prop} {s t : State} {r : Run Result} (h : Lawful P C s r) (ht : r.toOutcome = .next t) :
    (∃ crcok unk, NormalEnd t crcok unk) ∨
    (∃ code blk fld resv, FaultedEnd t code blk fld resv ∧ 1 ≤ code.toNat ∧ code.toNat ≤ 5) ∨
    (AtReset t ∧ ¬NoReset s) := by
  obtain ⟨a, u, -, rfl⟩ | ⟨f, blk, fld, u, -, rfl⟩ | hc := Run.Ends.next h ht
  · exact .inl ⟨_, _, normalEnd_finish a u⟩
  · exact .inr (.inl ⟨_, _, _, _, faultedEnd_raiseFault f blk fld u, faultKind_code_bounds f⟩)
  · exact .inr (.inr ⟨hc.atReset, hc.reset⟩)

/-! ### How many exchanges each command makes -/

theorem rdblkRun_within (blk : Nat) (s : State) : Within 1 s (rdblkRun blk s) :=
  (readBlock_within _ _ _ s).andThen (m := 0) fun _ _ _ => .zero rfl

theorem wrblkRun_within (blk : Nat) (s : State) : Within 1 s (wrblkRun blk s) := by
  unfold wrblkRun
  split
  · exact (Within.zero rfl).mono (Nat.zero_le 1)
  · exact (writeBlock_within _ _ _ _ s).andThen (m := 0) fun _ _ _ => .zero rfl

theorem getUid_within (q : Seq) (s : State) : Within 1 s (getUid q s) :=
  (transmit_within q _ s).andThen (m := 0) fun y t _ => checkStatus_within y _ _ t

theorem getuidRun_within (s : State) : Within 1 s (getuidRun s) := by
  refine (getUid_within _ s).andThen (m := 0) fun u t _ => .zero ?_
  split <;> rfl

theorem crcComputeRun_within (s : State) : Within 0 s (crcComputeRun s) := by
  unfold crcComputeRun
  split <;> exact .zero rfl

theorem crcEncRun_within (s : State) : Within 0 s (crcEncRun s) := by
  unfold crcEncRun
  split <;> exact .zero rfl

theorem crcDecRun_within (s : State) : Within 0 s (crcDecRun s) := by
  unfold crcDecRun
  split <;> exact .zero rfl

/-- `recompute` and the delivery of its CRC, as `CRC.RECOMPUTE` and `CFG.MUTATE` end. -/
theorem recomputeRun_within (fld : BitVec 8) (s : State) :
    Within (α := Result) 49 s ((recompute fld s).andThen fun c s => .ok { resv := c.setWidth 64 } s) :=
  (recompute_within fld s).andThen (m := 0) fun _ _ _ => .zero rfl

theorem deliver_within (d : Descriptor) (f : Nat) (v : DecVal) (s : State) : Within 0 s (deliver d f v s) := by
  cases v <;> exact .zero rfl

/-- A command on an undefined field makes no exchange (R201). -/
theorem withDesc_within {α : Type} {n f : Nat} {s : State} {k : Descriptor → Run α}
    (h : ∀ d, desc s.params f = some d → Within n s (k d)) : Within n s (withDesc f s k) := by
  cases hd : desc s.params f with
  | none =>
    rw [withDesc_none hd]
    exact (Within.zero rfl).mono (Nat.zero_le n)
  | some d =>
    rw [withDesc_some hd]
    exact h d hd

/-- A value the field does not take makes no exchange (R163); one it takes gives a mask of the field's blocks. -/
theorem withEncoded_within {α : Type} {n f : Nat} {d : Descriptor} {s : State} {k : List Byte → List Byte → Run α}
    (hd : descWf d = true) (h : ∀ data mask : List Byte, mask.length = 4 * d.nblk → Within n s (k data mask)) :
    Within n s (withEncoded f d s k) := by
  cases he : encodeField s.params d (operandOf s) with
  | none =>
    rw [withEncoded_none he]
    exact (Within.zero rfl).mono (Nat.zero_le n)
  | some x =>
    obtain ⟨data, mask⟩ := x
    rw [withEncoded_some he]
    exact h data mask (encodeField_length hd (operandOf_op_length s) he).2

/-- A field lies in at most 24 blocks (R45). -/
theorem fldRdRun_within (f : Nat) (s : State) : Within 24 s (fldRdRun f s) := by
  refine withDesc_within fun d hd => ?_
  obtain ⟨-, hnblk, -⟩ := desc_blocks hd
  exact ((readBlocks_within _ _ _ 0 s).andThen (m := 0) fun _ t _ => deliver_within d f _ t).mono (by simpa using hnblk)

theorem fldDecRun_within (f : Nat) (s : State) : Within 0 s (fldDecRun f s) := by
  refine withDesc_within fun d _ => ?_
  split
  · exact .zero rfl
  · exact deliver_within d f _ s

theorem fldEncRun_within (f : Nat) (s : State) : Within 0 s (fldEncRun f s) :=
  withDesc_within fun _ hd => withEncoded_within (desc_wf hd) fun _ _ _ => .zero rfl

theorem takeSnapshot_within (bs : List Nat) (s : State) : Within 0 s (takeSnapshot bs s) := by
  unfold takeSnapshot
  split <;> exact .zero rfl

/-- The longer view has 17 blocks (R38). -/
theorem readallRun_within (v : Nat) (s : State) : Within 17 s (readallRun v s) := by
  unfold readallRun
  split
  · exact (Within.zero rfl).mono (Nat.zero_le 17)
  · rename_i bs hv
    have hreads : Within bs.length s (readBlocks .viewRead 0xFF bs 0 (noSnapshot s)) := readBlocks_within _ _ bs 0 _
    exact (hreads.andThen (m := 0) fun _ t _ => takeSnapshot_within bs t).mono (view_length hv)

/-- Each of at most 24 blocks is read and written at most once, then the CRC is stamped (R233). -/
theorem mutateRun_within (f : Nat) (s : State) : Within 97 s (mutateRun f s) := by
  refine withDesc_within fun d hd => withEncoded_within (desc_wf hd) fun data mask hmask => ?_
  obtain ⟨-, hnblk, -⟩ := desc_blocks hd
  have hcut : (cutBlocks mask).length ≤ 24 := (cutBlocks_length hmask).trans_le hnblk
  exact ((readOld_within _ _ _ 0 0 s).mono hcut).andThen (m := 73) fun olds t _ =>
    ((writeBlocks_within .write _ _ 0 t).mono ((newBlocks_length d.blk0 olds _ _).trans hcut)).andThen (m := 49)
      fun _ u _ => recomputeRun_within _ u

/-- 48 writes, the 49 exchanges of `recompute`, the 49 of `validate` (R235). -/
theorem eraseRun_within (s : State) : Within 146 s (eraseRun s) :=
  (writeBlocks_within _ _ _ 0 s).andThen (m := 98) fun _ t _ =>
    (recompute_within _ t).andThen (m := 49) fun _ u _ => validate_within u

/-- No host command adds more than 146 exchanges to the record (R31). -/
theorem exec_trace_length {i : Instr} {s t : State} (hi : Instr.isHostCommand i = true) (h : exec i s = .next t) :
    t.trace.length ≤ s.trace.length + 146 := by
  cases i with
  | rdblk blk => exact ((rdblkRun_within blk s).mono (by decide)).next h
  | wrblk blk => exact ((wrblkRun_within blk s).mono (by decide)).next h
  | getuid => exact ((getuidRun_within s).mono (by decide)).next h
  | crcCompute => exact ((crcComputeRun_within s).mono (by decide)).next h
  | crcEnc => exact ((crcEncRun_within s).mono (by decide)).next h
  | crcDec => exact ((crcDecRun_within s).mono (by decide)).next h
  | crcValidate => exact ((validate_within s).mono (by decide)).next h
  | crcRecompute => exact ((recomputeRun_within 0xFF s).mono (by decide)).next h
  | fldRd sel => exact ((fldRdRun_within sel s).mono (by decide)).next h
  | fldDec sel => exact ((fldDecRun_within sel s).mono (by decide)).next h
  | fldEnc sel => exact ((fldEncRun_within sel s).mono (by decide)).next h
  | cfgReadall sel => exact ((readallRun_within sel s).mono (by decide)).next h
  | cfgMutate sel => exact ((mutateRun_within sel s).mono (by decide)).next h
  | cfgErase => exact ((eraseRun_within s).mono (by decide)).next h
  | apduRead | apduWrite | apduGetuid => cases hi

/-- Settles O51: the command is a lawful run, which has a next state and ends in one of the three ways, and no run makes
more than 146 exchanges. -/
theorem hostCommandsAlwaysEnd : Obligations.HostCommandsAlwaysEnd := by
  intro i s hi
  obtain ⟨r, hexec, hlawful⟩ := exec_hostCommand i s hi
  obtain ⟨t, ht⟩ := toOutcome_next r
  have hnext : exec i s = .next t := hexec.trans ht
  exact ⟨t, hnext, hlawful.ended ht, by simpa [sent] using exec_trace_length hi hnext⟩

end Sys2Proof.Machine
